-- ==== Sys2Proof/Word.lean ====
section
/-! DEFINITION. The two word types of the block: a byte of IN, OUT or the stream, and a host register. -/

namespace Sys2Proof

/-- One byte of IN, OUT or the instruction stream (10_state.md R39, 20_memory.md R60). -/
abbrev Byte := BitVec 8

/-- One host register, 32 bits wide (10_state.md R22, 00_scope.md R9). -/
abbrev Word := BitVec 32

end Sys2Proof
end

