-- ==== Sys2Proof/Syntax.lean ====
section
/-! DEFINITION. The instructions: one constructor per row of spec/opcode_table.json. The operands are the decoded values
of 30_encoding.md R90, R91 and R95 (a distance, a length, a trailing literal count), exact natural numbers (R9, D24).
The literal bytes that follow an instruction in the stream are not operands: its meaning copies them from IN
(42_decoder_fsm.md R185; log entry 12). -/

namespace Sys2Proof

/-- The twelve stream instructions and the four host commands. -/
inductive Instr where
  /-- LITFS `n`: first-byte literal run of 1 to 3 bytes (43_literal_instructions.md R212). -/
  | litfs (n : Nat)
  /-- LITF `n`: first-byte literal run of 4 to 238 bytes (43_literal_instructions.md R211). -/
  | litf (n : Nat)
  /-- LIT `n`: literal run of 4 to 18 bytes (43_literal_instructions.md R213). -/
  | lit (n : Nat)
  /-- LITX `n`: literal run of 19 bytes or more (43_literal_instructions.md R214). -/
  | litx (n : Nat)
  /-- M1L `dist, s`: 3-byte match right after a literal run (44_match_instructions.md R232). -/
  | m1l (dist s : Nat)
  /-- M1 `dist, s`: 2-byte match after trailing literals (44_match_instructions.md R231). -/
  | m1 (dist s : Nat)
  /-- M2 `dist, len, s`: short match, 1-byte distance (44_match_instructions.md R233). -/
  | m2 (dist len s : Nat)
  /-- M3 `dist, len, s`: near match, length 3 to 33 (44_match_instructions.md R234). -/
  | m3 (dist len s : Nat)
  /-- M3X `dist, len, s`: near match, length 34 and up (44_match_instructions.md R235). -/
  | m3x (dist len s : Nat)
  /-- M4 `dist, len, s`: far match, length 3 to 9 (44_match_instructions.md R236). -/
  | m4 (dist len s : Nat)
  /-- M4X `dist, len, s`: far match, length 10 and up (44_match_instructions.md R237). -/
  | m4x (dist len s : Nat)
  /-- EOS `l3, ext, s`: end of stream. The three fields are ignored by its meaning (44_match_instructions.md R238);
  `ext` is the continuation value where `l3 = 0` and 0 elsewhere (30_encoding.md R88, R95). -/
  | eos (l3 ext s : Nat)
  /-- COMPRESS: a CTRL write with OP = 0 and START = 1 (45_host_commands.md R271). -/
  | compress
  /-- DECOMPRESS: a CTRL write with OP = 1 and START = 1 (45_host_commands.md R272). -/
  | decompress
  /-- COMPRESS_FRAMED: a CTRL write with OP = 2 and START = 1 (45_host_commands.md R273). -/
  | compressFramed
  /-- DECOMPRESS_FRAMED: a CTRL write with OP = 3 and START = 1 (45_host_commands.md R274). -/
  | decompressFramed
  deriving DecidableEq, Repr

end Sys2Proof
end

