-- ==== Sys2Proof/WellFormed.lean ====
section
/-! DEFINITION. Which instructions an encoding exists for: the operand ranges of 30_encoding.md R82 to R88 and
44_match_instructions.md R240. -/

namespace Sys2Proof

/-- Every operand lies in the range its encoding can hold. -/
def Instr.wf : Instr → Bool
  | .litfs n => decide (1 ≤ n) && decide (n ≤ 3)
  | .litf n => decide (4 ≤ n) && decide (n ≤ 238)
  | .lit n => decide (4 ≤ n) && decide (n ≤ 18)
  | .litx n => decide (19 ≤ n)
  | .m1l dist s => decide (2049 ≤ dist) && decide (dist ≤ 3072) && decide (s ≤ 3)
  | .m1 dist s => decide (1 ≤ dist) && decide (dist ≤ 1024) && decide (s ≤ 3)
  | .m2 dist len s =>
    decide (1 ≤ dist) && decide (dist ≤ 2048) && decide (3 ≤ len) && decide (len ≤ 8) && decide (s ≤ 3)
  | .m3 dist len s =>
    decide (1 ≤ dist) && decide (dist ≤ 16384) && decide (3 ≤ len) && decide (len ≤ 33) && decide (s ≤ 3)
  | .m3x dist len s => decide (1 ≤ dist) && decide (dist ≤ 16384) && decide (34 ≤ len) && decide (s ≤ 3)
  | .m4 dist len s =>
    decide (16385 ≤ dist) && decide (dist ≤ 49151) && decide (3 ≤ len) && decide (len ≤ 9) && decide (s ≤ 3)
  | .m4x dist len s => decide (16385 ≤ dist) && decide (dist ≤ 49151) && decide (10 ≤ len) && decide (s ≤ 3)
  | .eos l3 ext s =>
    decide (l3 ≤ 7) && (if l3 = 0 then decide (1 ≤ ext) else decide (ext = 0)) && decide (s ≤ 3)
  | .compress => true
  | .decompress => true
  | .compressFramed => true
  | .decompressFramed => true

end Sys2Proof
end

