-- ==== Sys2Proof/Decode.lean ====
section
/-! DEFINITION. The decoder from bytes to instructions, total on any bytes and rejecting by name, and after it the
encoder, both written from the encoding tables of 30_encoding.md. What a byte means depends on the decoder state
(30_encoding.md R81), so decoding takes the table to read it in. -/

namespace Sys2Proof

/-- Which opcode table a byte is read in (30_encoding.md R81): the decoder state, or a write to CTRL. -/
inductive DecodeTable where
  | start
  | literalOrMatch
  | afterLiteral
  | afterTrailing
  | ctrl
  deriving DecidableEq, Repr

/-- Why bytes give no instruction. -/
inductive Reject where
  /-- No opcode byte is left. -/
  | noInput
  /-- An operand byte is missing. -/
  | truncated
  /-- The first byte of a stream is 0 to 17: it is not consumed here (30_encoding.md R81, 42_decoder_fsm.md R187). -/
  | notFirstByteRun
  /-- A CTRL word with START = 0: it starts nothing (10_state.md R24). -/
  | noStart
  deriving DecidableEq, Repr

/-- What the decoder answers: an instruction with the bytes that follow its header, or a named rejection. -/
inductive Decoded where
  | ok (i : Instr) (rest : List Byte)
  | reject (r : Reject)
  deriving DecidableEq, Repr

/-- The bit field `v[hi:lo]` as an unsigned number (00_scope.md R10). -/
def bits (v : Byte) (hi lo : Nat) : Nat := v.toNat / 2 ^ lo % 2 ^ (hi + 1 - lo)

/-- The continuation value at the head of `bytes`, `255 * z + X`, with the bytes after it (30_encoding.md R89,
42_decoder_fsm.md R184). None where the bytes end before a non-zero one. -/
def readExt : List Byte → Option (Nat × List Byte)
  | [] => none
  | b :: rest =>
    if b.toNat = 0 then
      match readExt rest with
      | some (v, after) => some (255 + v, after)
      | none => none
    else some (b.toNat, rest)

/-- M3 and M3X: the two distance bytes after the length (30_encoding.md R85, R90). -/
def decodeNear (form : Nat → Nat → Instr) : List Byte → Decoded
  | lo :: hi :: rest => .ok (form (1 + bits lo 7 2 + 64 * hi.toNat) (bits lo 1 0)) rest
  | _ => .reject .truncated

/-- M4, M4X and EOS: the two distance bytes after the length. `h` is bit 3 of the opcode byte; EOS is `H = 0` with
`D = 0`, whatever the other fields hold (30_encoding.md R86, R88, R90). -/
def decodeFar (h : Nat) (form : Nat → Nat → Instr) (eos : Nat → Instr) : List Byte → Decoded
  | lo :: hi :: rest =>
    let d := bits lo 7 2 + 64 * hi.toNat
    if h = 0 ∧ d = 0 then .ok (eos (bits lo 1 0)) rest
    else .ok (form (16384 + 16384 * h + d) (bits lo 1 0)) rest
  | _ => .reject .truncated

/-- A match opcode `t` of 16 or more, with the bytes after it (42_decoder_fsm.md R191). -/
def decodeMatch (t : Byte) (bytes : List Byte) : Decoded :=
  if 64 ≤ t.toNat then
    match bytes with
    | b :: rest => .ok (.m2 (1 + bits t 4 2 + 8 * b.toNat) (bits t 7 5 + 1) (bits t 1 0)) rest
    | [] => .reject .truncated
  else if 32 ≤ t.toNat then
    if bits t 4 0 = 0 then
      match readExt bytes with
      | some (ext, rest) => decodeNear (fun dist s => .m3x dist (33 + ext) s) rest
      | none => .reject .truncated
    else decodeNear (fun dist s => .m3 dist (bits t 4 0 + 2) s) bytes
  else
    if bits t 2 0 = 0 then
      match readExt bytes with
      | some (ext, rest) =>
        decodeFar (bits t 3 3) (fun dist s => .m4x dist (9 + ext) s) (fun s => .eos 0 ext s) rest
      | none => .reject .truncated
    else
      decodeFar (bits t 3 3) (fun dist s => .m4 dist (bits t 2 0 + 2) s) (fun s => .eos (bits t 2 0) 0 s) bytes

/-- The first byte of a stream (30_encoding.md R81, R82). -/
def decodeStart : List Byte → Decoded
  | [] => .reject .noInput
  | t :: rest =>
    if 21 ≤ t.toNat then .ok (.litf (t.toNat - 17)) rest
    else if 18 ≤ t.toNat then .ok (.litfs (t.toNat - 17)) rest
    else .reject .notFirstByteRun

/-- The general opcode table of state `ExpectLiteralOrMatch` (30_encoding.md R81, R83). -/
def decodeLiteralOrMatch : List Byte → Decoded
  | [] => .reject .noInput
  | t :: rest =>
    if t.toNat = 0 then
      match readExt rest with
      | some (ext, after) => .ok (.litx (18 + ext)) after
      | none => .reject .truncated
    else if t.toNat < 16 then .ok (.lit (t.toNat + 3)) rest
    else decodeMatch t rest

/-- State `ExpectMatch(AfterLiteral)`: a byte below 16 is M1L (30_encoding.md R87). -/
def decodeAfterLiteral : List Byte → Decoded
  | [] => .reject .noInput
  | t :: rest =>
    if t.toNat < 16 then
      match rest with
      | b :: after => .ok (.m1l (2049 + bits t 3 2 + 4 * b.toNat) (bits t 1 0)) after
      | [] => .reject .truncated
    else decodeMatch t rest

/-- State `ExpectMatch(AfterTrailing)`: a byte below 16 is M1 (30_encoding.md R87). -/
def decodeAfterTrailing : List Byte → Decoded
  | [] => .reject .noInput
  | t :: rest =>
    if t.toNat < 16 then
      match rest with
      | b :: after => .ok (.m1 (1 + bits t 3 2 + 4 * b.toNat) (bits t 1 0)) after
      | [] => .reject .truncated
    else decodeMatch t rest

/-- A 32-bit write to CTRL, its four bytes lowest first: OP is bits 1:0, START bit 2, and bits 31:3 are ignored
(10_state.md R24). -/
def decodeCtrl : List Byte → Decoded
  | b :: _ :: _ :: _ :: rest =>
    if bits b 2 2 = 0 then .reject .noStart
    else
      match bits b 1 0 with
      | 0 => .ok .compress rest
      | 1 => .ok .decompress rest
      | 2 => .ok .compressFramed rest
      | _ => .ok .decompressFramed rest
  | _ => .reject .truncated

/-- The instruction at the head of `bytes`, read in table `c` (30_encoding.md R81). -/
def decode (c : DecodeTable) (bytes : List Byte) : Decoded :=
  match c with
  | .start => decodeStart bytes
  | .literalOrMatch => decodeLiteralOrMatch bytes
  | .afterLiteral => decodeAfterLiteral bytes
  | .afterTrailing => decodeAfterTrailing bytes
  | .ctrl => decodeCtrl bytes

/-- The tables an instruction is read in (the "states" of spec/opcode_table.json). -/
def Instr.inTable : Instr → DecodeTable → Bool
  | .litfs _, .start => true
  | .litf _, .start => true
  | .lit _, .literalOrMatch => true
  | .litx _, .literalOrMatch => true
  | .m1l _ _, .afterLiteral => true
  | .m1 _ _, .afterTrailing => true
  | .m2 _ _ _, c => decide (c ≠ .start ∧ c ≠ .ctrl)
  | .m3 _ _ _, c => decide (c ≠ .start ∧ c ≠ .ctrl)
  | .m3x _ _ _, c => decide (c ≠ .start ∧ c ≠ .ctrl)
  | .m4 _ _ _, c => decide (c ≠ .start ∧ c ≠ .ctrl)
  | .m4x _ _ _, c => decide (c ≠ .start ∧ c ≠ .ctrl)
  | .eos _ _ _, c => decide (c ≠ .start ∧ c ≠ .ctrl)
  | .compress, .ctrl => true
  | .decompress, .ctrl => true
  | .compressFramed, .ctrl => true
  | .decompressFramed, .ctrl => true
  | _, _ => false

/-- A number as one byte, reduced modulo 256 (00_scope.md R9). -/
def byte (n : Nat) : Byte := BitVec.ofNat 8 n

/-- The continuation bytes of a value of 1 or more: `(v - 1) div 255` zero bytes and then the remainder
(30_encoding.md R94, 41_encoder.md R155). -/
def continuation (v : Nat) : List Byte :=
  List.replicate ((v - 1) / 255) (byte 0) ++ [byte (v - 255 * ((v - 1) / 255))]

/-- The two distance bytes of M3 and M4: `DDDDDDSS`, then `DDDDDDDD` (20_memory.md R62, 41_encoder.md R156). -/
def distanceBytes (o s : Nat) : List Byte := [byte (o % 64 * 4 + s), byte (o / 64 % 256)]

/-- The header bytes of an instruction: its opcode byte and its operand bytes (30_encoding.md R82 to R88), without
the literal bytes that follow them. A host command is its CTRL word, lowest byte first. -/
def encode : Instr → List Byte
  | .litfs n => [byte (n + 17)]
  | .litf n => [byte (n + 17)]
  | .lit n => [byte (n - 3)]
  | .litx n => byte 0 :: continuation (n - 18)
  | .m1l dist s => [byte ((dist - 2049) % 4 * 4 + s), byte ((dist - 2049) / 4)]
  | .m1 dist s => [byte ((dist - 1) % 4 * 4 + s), byte ((dist - 1) / 4)]
  | .m2 dist len s => [byte ((len - 1) * 32 + (dist - 1) % 8 * 4 + s), byte ((dist - 1) / 8)]
  | .m3 dist len s => byte (0x20 + (len - 2)) :: distanceBytes (dist - 1) s
  | .m3x dist len s => byte 0x20 :: (continuation (len - 33) ++ distanceBytes (dist - 1) s)
  | .m4 dist len s =>
    byte (0x10 + 8 * ((dist - 16384) / 16384) + (len - 2)) :: distanceBytes (dist - 16384) s
  | .m4x dist len s =>
    byte (0x10 + 8 * ((dist - 16384) / 16384)) :: (continuation (len - 9) ++ distanceBytes (dist - 16384) s)
  | .eos l3 ext s =>
    byte (0x10 + l3) :: ((if l3 = 0 then continuation ext else []) ++ distanceBytes 0 s)
  | .compress => [byte 4, byte 0, byte 0, byte 0]
  | .decompress => [byte 5, byte 0, byte 0, byte 0]
  | .compressFramed => [byte 6, byte 0, byte 0, byte 0]
  | .decompressFramed => [byte 7, byte 0, byte 0, byte 0]

/-- The zero bytes of the continuation of `v`, the `z` of 30_encoding.md R89 and R94. -/
def zeroCount (v : Nat) : Nat := (v - 1) / 255

/-- How many header bytes an instruction has: the "length" column of spec/opcode_table.json without the literal
bytes (30_encoding.md R82 to R88). -/
def Instr.headerLength : Instr → Nat
  | .litfs _ => 1
  | .litf _ => 1
  | .lit _ => 1
  | .litx n => 2 + zeroCount (n - 18)
  | .m1l _ _ => 2
  | .m1 _ _ => 2
  | .m2 _ _ _ => 2
  | .m3 _ _ _ => 3
  | .m3x _ len _ => 4 + zeroCount (len - 33)
  | .m4 _ _ _ => 3
  | .m4x _ len _ => 4 + zeroCount (len - 9)
  | .eos l3 ext _ => if l3 = 0 then 4 + zeroCount ext else 3
  | .compress => 4
  | .decompress => 4
  | .compressFramed => 4
  | .decompressFramed => 4

/-- How many literal bytes follow the header in the stream: the run of a literal instruction, or the trailing
literals of a match (30_encoding.md R82 to R87). -/
def Instr.literalCount : Instr → Nat
  | .litfs n => n
  | .litf n => n
  | .lit n => n
  | .litx n => n
  | .m1l _ s => s
  | .m1 _ s => s
  | .m2 _ _ s => s
  | .m3 _ _ s => s
  | .m3x _ _ s => s
  | .m4 _ _ s => s
  | .m4x _ _ s => s
  | .eos _ _ _ => 0
  | .compress => 0
  | .decompress => 0
  | .compressFramed => 0
  | .decompressFramed => 0

/-- The `n` lowest bytes of `w`, lowest first (20_memory.md R61: little-endian). -/
def leBytes : Nat → Nat → List Byte
  | 0, _ => []
  | n + 1, w => byte w :: leBytes n (w / 256)

/-- How many bytes a table word is laid out to: its own, and zeros above them (log entry 16). -/
abbrev tableSpan : Nat := 256

/-- The bytes of a table word: the first byte is bits 7:0, and every byte above `nbits` is zero. -/
def tableBytes (nbits w : Nat) : List Byte :=
  leBytes ((nbits + 7) / 8) w ++ List.replicate (tableSpan - (nbits + 7) / 8) (byte 0)

/-- The table in which a bare word is read. Rows of spec/opcode_table.json share byte values and are told apart by the
decoder state (30_encoding.md R81), which a bare word does not carry: this gives every byte value one table, so that
each row that a word can select without a state has one. DESIGN CHOICE, log entry 16. -/
def tableOf (w : Nat) : DecodeTable :=
  if 4 ≤ w ∧ w ≤ 7 then .ctrl
  else if w % 256 = 0 then .afterTrailing
  else if w % 256 < 8 then .literalOrMatch
  else if w % 256 < 16 then .afterLiteral
  else if w % 256 < 18 then .literalOrMatch
  else if w % 256 < 32 then .start
  else .literalOrMatch

/-- The instruction the decoder reads from a table word of `nbits` bits (log entry 16). -/
def decodeTableWord (nbits w : Nat) : Option Instr :=
  match decode (tableOf w) (tableBytes nbits w) with
  | .ok i _ => some i
  | .reject _ => none

end Sys2Proof
end

