-- ==== Sys2Proof/Config.lean ====
section
/-! DEFINITION. What an implementation of the block fixes: the constants of 00_scope.md R7, the parameters of
00_scope.md R8 (an argument of the model: State holds one `Params`), and the free values, which the spec leaves open
(93_implementation_defined.md, treatment "any value") and which no proof can see. Each free value is one function of
its arguments for every block and every time: that equal arguments give equal values is the model's choice (DESIGN
CHOICE, log entry 4). -/

namespace Sys2Proof

/-- `MF_UPDATE_SLOT`: which slot a probed position is written to after a rehash lookup (40_match_finder.md R119). -/
inductive UpdateSlot where
  | primary
  | lastProbed
  deriving DecidableEq, Repr

/-- `ENC_FIRST_RUN_FORM`: how a literal run of 4 to 238 bytes that opens the output is written (41_encoder.md R148). -/
inductive FirstRunForm where
  | shortOpcode
  | general
  deriving DecidableEq, Repr

/-- The parameters the spec leaves open (00_scope.md R8), fixed for one machine. -/
structure Params where
  /-- `MAX_LEN`, the largest source, stream or capacity length the block accepts. -/
  maxLen : Nat
  /-- `IN_SIZE`, the size of the IN memory in bytes. -/
  inSize : Nat
  /-- `OUT_SIZE`, the size of the OUT memory in bytes. -/
  outSize : Nat
  /-- `POS_BITS`, the width of a stored table position in bits. -/
  posBits : Nat
  /-- `MF_UPDATE_SLOT`. -/
  updateSlot : UpdateSlot
  /-- `ENC_FIRST_RUN_FORM`. -/
  firstRunForm : FirstRunForm
  deriving DecidableEq, Repr

/-- The default of `POS_BITS` for a `MAX_LEN`: `ceil(log2(MAX_LEN + 1))`, at least 14 (00_scope.md R8). -/
def Params.defaultPosBits (maxLen : Nat) : Nat := max 14 (Nat.log2 maxLen + 1)

/-- The defaults of 00_scope.md R8. `IN_SIZE` and `OUT_SIZE` have no default there: 65536 is the value of the spec's
host-level vectors (95_test_vectors.md). DESIGN CHOICE (log entry 1), unsafe for a claim that names the value. -/
def Params.default : Params where
  maxLen := 2 ^ 32 - 1
  inSize := 65536
  outSize := 65536
  posBits := Params.defaultPosBits (2 ^ 32 - 1)
  updateSlot := .primary
  firstRunForm := .shortOpcode

/-- The limits 00_scope.md R8 puts on the parameters; a position below `MAX_LEN` fits in `POS_BITS` bits (DEDUCED, log
entry 1). -/
def Params.ok (p : Params) : Bool :=
  decide (p.maxLen ≤ 2 ^ 32 - 1) && decide (p.inSize ≤ p.maxLen) &&
    decide (p.outSize ≤ p.maxLen + p.maxLen / 16 + 71) &&
    decide (14 ≤ p.posBits) && decide (p.maxLen < 2 ^ p.posBits)

namespace Config

/-- `TABLE_SLOTS` (00_scope.md R7). -/
abbrev tableSlots : Nat := 16384

/-- `HASH_MASK` (00_scope.md R7). -/
abbrev hashMask : Nat := 0x3FFF

/-- `REHASH_MASK` (00_scope.md R7). -/
abbrev rehashMask : Nat := 0x7FF

/-- `REHASH_XOR` (00_scope.md R7). -/
abbrev rehashXor : Nat := 0x201F

/-- `SHORT_INPUT_MAX`: a source this long or shorter is never searched for matches (00_scope.md R7). -/
abbrev shortInputMax : Nat := 13

/-- `SCAN_MARGIN` = 8 + 5 (00_scope.md R7). -/
abbrev scanMargin : Nat := 13

/-- `M2_MAX_OFFSET` (00_scope.md R7). -/
abbrev m2MaxOffset : Nat := 2048

/-- `M3_MAX_OFFSET` (00_scope.md R7). -/
abbrev m3MaxOffset : Nat := 16384

/-- `M4_MAX_OFFSET` (00_scope.md R7). -/
abbrev m4MaxOffset : Nat := 49151

/-- `FIRST_RUN_MAX`: the longest first run written as `17 + n` (00_scope.md R7). -/
abbrev firstRunMax : Nat := 238

/-- The byte of IN at an address that nothing has written since reset number `generation` (10_state.md R41: IN is
unspecified after reset; 93_implementation_defined.md: any value). A free value: it has no body. DESIGN CHOICE: two
blocks with equal generations read equal bytes at an address that neither has written. Log entries 4 and 22. -/
opaque freeIn (generation address : Nat) : Byte

/-- The byte of OUT at an address that holds no specified value since event number `generation` (10_state.md R41,
45_host_commands.md R279, 60_exceptions.md R319: any value). A free value. DESIGN CHOICE: two blocks with equal
generations read equal bytes there. Log entries 4, 5 and 22. -/
opaque freeOut (generation address : Nat) : Byte

/-- What the host reads at an OUT address while `BUSY = 1` (70_reset_and_hazards.md R335: bytes are not final).
A free value. DESIGN CHOICE: one value for each address throughout one command. Log entry 5. -/
opaque busyOut (generation address : Nat) : Byte

/-- `d.t` after the DECOMPRESS start step, where 42_decoder_fsm.md R182 calls it unspecified. A free value.
Log entry 6. -/
opaque freeOpcode (generation : Nat) : Byte

/-- What a 32-bit host register shows of a length or cursor that needs more than 32 bits, which the spec does not
state. A free value. Log entry 15. -/
opaque overlong (value : Nat) : Word

end Config

end Sys2Proof
end

