-- ==== Sys2Proof/Machine/State.lean ====
section
/-! DEFINITION. The state of one LZMF block: every register, cursor, table and memory of 10_state.md, the parameters
it was built with, and the turns the host and the engine are about to take. -/

namespace Sys2Proof.Machine

/-- The five error kinds of the decoder (60_exceptions.md R300). -/
inductive ErrKind where
  | outputOverrun
  | inputOverrun
  | lookbehindOverrun
  | eofMarkerNotFound
  | inputNotConsumed
  deriving DecidableEq, Repr

/-- Where `ExpectMatch` was entered from (10_state.md R36). -/
inductive MatchCtx where
  | afterLiteral
  | afterTrailing
  deriving DecidableEq, Repr

/-- `d.state`, the decoder state (10_state.md R36). -/
inductive DState where
  | start
  | expectLiteralOrMatch
  | expectMatch (ctx : MatchCtx)
  /-- Transient: never the state at a step boundary (42_decoder_fsm.md R196). -/
  | copyingMatch
  /-- `End`. -/
  | ended
  | error (kind : ErrKind)
  deriving DecidableEq, Repr

/-- The operation a CTRL write selects, `CTRL.OP` (10_state.md R24). -/
inductive OpKind where
  | compress
  | decompress
  | compressFramed
  | decompressFramed
  deriving DecidableEq, Repr

/-- `mode`, the engine's top-level state (10_state.md R32). -/
inductive Mode where
  | idle
  | compressing (op : OpKind)
  | decompressing (op : OpKind)
  deriving DecidableEq, Repr

/-- The stored bits of STATUS (10_state.md R25); the bits the register shows as 0 have no storage. -/
structure Status where
  busy : Bool
  done : Bool
  error : Bool
  errKind : BitVec 3
  deriving DecidableEq, Repr

/-- The host registers that hold a value (10_state.md R23, R25 to R30). CTRL stores nothing (R24), and register 7 and
above hold nothing (R31). -/
structure HostRegs where
  status : Status
  inLen : Word
  dstCap : Word
  outLen : Word
  inPos : Word
  outPos : Word
  deriving DecidableEq, Repr

/-- The encoder registers `e.*` (10_state.md R33). -/
structure EncRegs where
  /-- The source length. -/
  L : Nat
  /-- The scan position. -/
  ip : Nat
  /-- The start of the pending literal run. -/
  ii : Nat
  /-- The output cursor, counting stream bytes. -/
  op : Nat
  deriving DecidableEq, Repr

/-- The decoder registers `d.*` (10_state.md R34). -/
structure DecRegs where
  /-- The stream length. -/
  N : Nat
  /-- The destination capacity. -/
  C : Nat
  /-- The input cursor: the program counter (10_state.md R35). -/
  ip : Nat
  /-- The write cursor. -/
  op : Nat
  state : DState
  /-- An opcode byte already fetched, meaningful in `ExpectMatch(AfterTrailing)`. -/
  t : Byte
  deriving DecidableEq, Repr

/-- What the host reads (20_memory.md R60). -/
inductive HostRead where
  | reg (number : Nat)
  | inByte (address : Nat)
  | outByte (address : Nat)
  deriving DecidableEq, Repr

/-- What the world outside the engine can do to the block: the host's accesses (20_memory.md R60, 10_state.md R23) and
the platform's reset (70_reset_and_hazards.md R330). -/
inductive HostAction where
  | writeReg (number : Nat) (value : Word)
  | writeIn (address : Nat) (value : Byte)
  | writeOut (address : Nat) (value : Byte)
  | read (what : HostRead)
  | reset
  deriving DecidableEq, Repr

/-- Whose turn it is. -/
inductive Turn where
  | engine
  | host (action : HostAction)
  deriving DecidableEq, Repr

/-- Memory as sparse data: the bytes that hold a value, by rising address. An address that is not listed holds no
specified value and reads as a free value (log entry 4). -/
abbrev Memory := List Host.Cell

/-- The state of one block. -/
structure State where
  /-- The parameters of 00_scope.md R8, an argument of the model that no step changes (log entry 1). -/
  cfg : Params
  /-- The host registers (10_state.md R23). -/
  regs : HostRegs
  /-- The engine's top-level state (10_state.md R32). -/
  mode : Mode
  /-- The encoder registers (10_state.md R33). -/
  e : EncRegs
  /-- The decoder registers (10_state.md R34). -/
  d : DecRegs
  /-- `TABLE`: the slots that hold a position, by rising slot; a slot not listed is `Empty` (10_state.md R38). -/
  table : List (Nat × Nat)
  /-- The IN memory (10_state.md R39). -/
  inMem : Memory
  /-- The OUT memory (10_state.md R39). -/
  outMem : Memory
  /-- The model's own counter: how often IN became unspecified. It selects the free value an unlisted byte of IN reads
  as (log entry 4). -/
  inGen : Nat
  /-- The model's own counter: how often OUT became unspecified, wholly or above a result (log entries 4 and 5). -/
  outGen : Nat
  /-- The model's own queue: the turns about to be taken, next first; where it is empty the engine moves
  (log entry 7). -/
  turns : List Turn
  deriving DecidableEq, Repr

/-- Why the machine stops. No instruction stops on every path. -/
inductive Fault where
  /-- A host turn writes IN, OUT, IN_LEN or DST_CAP while `BUSY = 1`, which 70_reset_and_hazards.md R334 forbids the
  host and 93_implementation_defined.md calls a fault of the environment. Raised by the host's turn. Safe
  (log entry 9). -/
  | hostWriteWhileBusy
  /-- A host turn accesses IN at or above `IN_SIZE`: no such byte (20_memory.md R60). Safe (log entry 10). -/
  | addressOutsideIn
  /-- A host turn accesses OUT at or above `OUT_SIZE`: no such byte (20_memory.md R60). Safe (log entry 10). -/
  | addressOutsideOut
  /-- The engine's bounds reach outside IN or OUT, so that an access would have no byte. Raised by the engine's turn
  and by the stream instructions; no state that meets the invariant raises it (Safety.lean). Safe (log entry 14). -/
  | boundsOutsideMemory
  /-- The encoder has no earlier byte `OUT[e.op - 2]` to patch, which 41_encoder.md R162 excludes. Raised by the
  encoder's turn; no state that meets the invariant raises it. Safe (log entry 14). -/
  | noByteToPatch
  /-- The decoder is in `CopyingMatch` at a step boundary, which 42_decoder_fsm.md R196 excludes. Raised by the
  engine's turn; no state that meets the invariant raises it. Safe (log entry 21). -/
  | copyingMatchAtBoundary
  deriving DecidableEq, Repr

/-- Why an instruction has no meaning. No instruction is refused in this model. -/
inductive Refusal where
  /-- Raised by exec's arms for an instruction without a meaning; there is none. Safe. -/
  | notModelled (mnemonic : String)
  deriving DecidableEq, Repr

/-- What a step or a meaning answers. -/
abbrev Answer := Host.Outcome State Fault Refusal

/-- STATUS after reset: idle with no result (10_state.md R25, R41). -/
def Status.reset : Status where
  busy := false
  done := false
  error := false
  errKind := 0

/-- The block right after reset (10_state.md R41). The host registers and `mode` are the spec's; the engine registers,
TABLE and the memories are unspecified there: the registers hold 0 and `Start`, the table reads Empty (DESIGN CHOICE,
log entries 2 and 3, unsafe), and the memories list nothing and read as free values (log entry 4). -/
def State.reset : State where
  cfg := Params.default
  regs :=
    { status := Status.reset, inLen := 0, dstCap := 0, outLen := 0, inPos := 0, outPos := 0 }
  mode := .idle
  e := { L := 0, ip := 0, ii := 0, op := 0 }
  d := { N := 0, C := 0, ip := 0, op := 0, state := .start, t := 0 }
  table := []
  inMem := []
  outMem := []
  inGen := 0
  outGen := 0
  turns := []

end Sys2Proof.Machine
end

