-- ==== Sys2Proof/Machine/Flags.lean ====
section
/-! DEFINITION. The block has no condition codes (10_state.md R37): its only flags are the bits of STATUS. Their values
after each event, the error codes, and the word the host reads. -/

namespace Sys2Proof.Machine

/-- The STATUS.ERR_KIND code of a decoder error (60_exceptions.md R300). -/
def ErrKind.code : ErrKind → BitVec 3
  | .outputOverrun => 1
  | .inputOverrun => 2
  | .lookbehindOverrun => 3
  | .eofMarkerNotFound => 4
  | .inputNotConsumed => 5

/-- The ERR_KIND code of a refused command, `ArgRefused` (60_exceptions.md R300, R307). -/
def argRefusedCode : BitVec 3 := 6

/-- STATUS while an operation runs (45_host_commands.md R270). -/
def Status.running : Status where
  busy := true
  done := false
  error := false
  errKind := 0

/-- STATUS after an operation stopped in `End` (45_host_commands.md R278). -/
def Status.success : Status where
  busy := false
  done := true
  error := false
  errKind := 0

/-- STATUS after an operation stopped with an error code (45_host_commands.md R276, R278). -/
def Status.failure (code : BitVec 3) : Status where
  busy := false
  done := false
  error := true
  errKind := code

/-- The word the host reads from STATUS: BUSY bit 0, DONE bit 1, ERROR bit 2, ERR_KIND bits 6:4, all others 0
(10_state.md R25). -/
def Status.word (s : Status) : Word :=
  BitVec.ofNat 32 (s.busy.toNat + 2 * s.done.toNat + 4 * s.error.toNat + 16 * s.errKind.toNat)

end Sys2Proof.Machine
end

