-- ==== Sys2Proof/Machine/Operands.lean ====
section
/-! DEFINITION. Operands that are not in an instruction's bytes: the frame header, the output bound, the bases of the
framed commands, and lengths as host registers show them. -/

namespace Sys2Proof.Machine

/-- `OUT_BOUND(L) = L + floor(L/16) + 64 + 3` (00_scope.md R7, 41_encoder.md R140). -/
def outBound (L : Nat) : Nat := L + L / 16 + 67

/-- `le32`: four bytes as an unsigned number, the first the lowest (00_scope.md R11, 20_memory.md R61). -/
def le32 (b0 b1 b2 b3 : Byte) : Nat :=
  b0.toNat + 256 * b1.toNat + 65536 * b2.toNat + 16777216 * b3.toNat

/-- A length or cursor as a 32-bit host register shows it; the spec states no value for one of more than 32 bits
(log entry 15). -/
def reg32 (n : Nat) : Word := if n < 2 ^ 32 then BitVec.ofNat 32 n else Config.overlong n

/-- Where the stream starts in IN: 4 for DECOMPRESS_FRAMED, else 0 (45_host_commands.md R272, R274, D31). -/
def State.inBase (s : State) : Nat :=
  match s.mode with
  | .decompressing .decompressFramed => 4
  | _ => 0

/-- Where the stream starts in OUT: 4 for COMPRESS_FRAMED, else 0 (45_host_commands.md R271, R273, D31). -/
def State.outBase (s : State) : Nat :=
  match s.mode with
  | .compressing .compressFramed => 4
  | _ => 0

/-- The opcode table of a decoder state in which an opcode is decoded (30_encoding.md R81). -/
def DState.table : DState → Option DecodeTable
  | .start => some .start
  | .expectLiteralOrMatch => some .literalOrMatch
  | .expectMatch .afterLiteral => some .afterLiteral
  | .expectMatch .afterTrailing => some .afterTrailing
  | .copyingMatch => none
  | .ended => none
  | .error _ => none

/-- The decoder state an opcode table belongs to; the CTRL register belongs to none. -/
def stateOfTable : DecodeTable → Option DState
  | .start => some .start
  | .literalOrMatch => some .expectLiteralOrMatch
  | .afterLiteral => some (.expectMatch .afterLiteral)
  | .afterTrailing => some (.expectMatch .afterTrailing)
  | .ctrl => none

end Sys2Proof.Machine
end

