-- ==== Sys2Proof/Machine/Ops.lean ====
section
/-! DEFINITION. The named operations over memory and registers: sparse data, byte reads and writes, the copies of the
decoder, and how an operation stops. Stopping with an error is the block's only form of exception: there is no vector,
no handler and no return (60_exceptions.md R303, R310, R311). -/

namespace Sys2Proof.Machine

/-! Sparse data: pairs of a key and a value by rising key, used for IN, OUT and TABLE. -/

/-- The value at a key, if it is listed. -/
def Sparse.get? {α : Type} : List (Nat × α) → Nat → Option α
  | [], _ => none
  | (a, v) :: rest, k => if a = k then some v else Sparse.get? rest k

/-- List a value at a key, keeping the keys rising. -/
def Sparse.set {α : Type} : List (Nat × α) → Nat → α → List (Nat × α)
  | [], k, v => [(k, v)]
  | (a, w) :: rest, k, v =>
    if k < a then (k, v) :: (a, w) :: rest
    else if k = a then (k, v) :: rest
    else (a, w) :: Sparse.set rest k v

/-- The canonical form: keys strictly rising. An unlisted key has no value of its own, so no entry repeats one. -/
abbrev Sparse.wf {α : Type} (m : List (Nat × α)) : Prop := (m.map Prod.fst).Pairwise (· < ·)

/-- The canonical form of a memory. -/
abbrev Memory.wf (m : Memory) : Prop := Sparse.wf m

/-- A memory that lists just these bytes, from address `a` up. -/
def Memory.ofBytes : Nat → List Byte → Memory
  | _, [] => []
  | a, b :: rest => (a, b) :: Memory.ofBytes (a + 1) rest

/-- List consecutive bytes from address `a` up, keeping what lies below and above them. -/
def Memory.writeBytes (m : Memory) (a : Nat) (bytes : List Byte) : Memory :=
  m.filter (fun cell => decide (cell.1 < a)) ++ Memory.ofBytes a bytes ++
    m.filter (fun cell => decide (a + bytes.length ≤ cell.1))

/-! Byte reads (20_memory.md R64, R67: one byte, no side effect). -/

/-- `IN[a]` (00_scope.md R11). -/
def State.inByte (s : State) (a : Nat) : Byte := (Sparse.get? s.inMem a).getD (Config.freeIn s.inGen a)

/-- `OUT[a]` (00_scope.md R11). -/
def State.outByte (s : State) (a : Nat) : Byte := (Sparse.get? s.outMem a).getD (Config.freeOut s.outGen a)

/-- `MemRead(IN, a, n)` (00_scope.md R11). -/
def State.readIn (s : State) : Nat → Nat → List Byte
  | _, 0 => []
  | a, n + 1 => s.inByte a :: s.readIn (a + 1) n

/-- `MemRead(OUT, a, n)` (00_scope.md R11). -/
def State.readOut (s : State) : Nat → Nat → List Byte
  | _, 0 => []
  | a, n + 1 => s.outByte a :: s.readOut (a + 1) n

/-! Register and memory updates. -/

/-- Write consecutive bytes of OUT. -/
def State.writeOut (s : State) (a : Nat) (bytes : List Byte) : State :=
  { s with outMem := Memory.writeBytes s.outMem a bytes }

/-- `d.ip <- ip`. -/
def State.setIp (s : State) (ip : Nat) : State := { s with d := { s.d with ip := ip } }

/-- `d.op <- op`. -/
def State.setOp (s : State) (op : Nat) : State := { s with d := { s.d with op := op } }

/-- `d.state <- x`. -/
def State.setDState (s : State) (x : DState) : State := { s with d := { s.d with state := x } }

/-- `d.t <- t`. -/
def State.setT (s : State) (t : Byte) : State := { s with d := { s.d with t := t } }

/-- The remaining turns. -/
def State.setTurns (s : State) (turns : List Turn) : State := { s with turns := turns }

/-- All of OUT becomes unspecified (60_exceptions.md R319). -/
def State.forgetOut (s : State) : State := { s with outMem := [], outGen := s.outGen + 1 }

/-- `OUT[0 .. n)` is a result and the rest of OUT becomes unspecified (45_host_commands.md R279). -/
def State.keepOut (s : State) (n : Nat) : State :=
  { s with outMem := Memory.ofBytes 0 (s.readOut 0 n), outGen := s.outGen + 1 }

/-! How an operation stops (45_host_commands.md R276, R278). -/

/-- The registers and the mode a stopping operation leaves. DESIGN CHOICE: `e.*`, `d.*` and TABLE keep their last values
until a start step sets them, where 10_state.md R32 calls them unspecified (log entry 27). -/
def State.stop (s : State) (status : Status) (outLen inPos outPos : Word) : State :=
  { s with
    regs := { s.regs with status := status, outLen := outLen, inPos := inPos, outPos := outPos }
    mode := .idle }

/-- `raise Error(kind)` with the cursors to report: the decode stops, STATUS records the kind, OUT_LEN is 0 and OUT
becomes unspecified (60_exceptions.md R303, R319; 45_host_commands.md R278). -/
def State.stopError (s : State) (kind : ErrKind) (inPos outPos : Nat) : State :=
  ((s.setDState (.error kind)).forgetOut).stop (Status.failure kind.code) 0 (reg32 inPos) (reg32 outPos)

/-- `raise Error(kind)` from a running decode: IN_POS counts from the start of IN, OUT_POS is `d.op`
(60_exceptions.md R303; 45_host_commands.md R278). -/
def State.raiseError (s : State) (kind : ErrKind) : State := s.stopError kind (s.inBase + s.d.ip) s.d.op

/-- A decode reaches `End`: `OUT[0 .. d.op)` is the result (42_decoder_fsm.md R193, R194; 45_host_commands.md R278,
R279). `d.*` keeps its last values: DESIGN CHOICE, log entry 27. -/
def State.endDecode (s : State) : State :=
  ((s.setDState .ended).keepOut s.d.op).stop Status.success (reg32 s.d.op) (reg32 (s.inBase + s.d.ip)) (reg32 s.d.op)

/-- A compression reaches its end: the stream, with its header where framed, is the result
(45_host_commands.md R271, R273, R278, R279). `e.*` and TABLE keep their last values: DESIGN CHOICE, log entry 27. -/
def State.endEncode (s : State) : State :=
  (s.keepOut (s.outBase + s.e.op)).stop Status.success (reg32 (s.outBase + s.e.op)) (reg32 s.e.L)
    (reg32 (s.outBase + s.e.op))

/-- A refused command: `ArgRefused`, OUT and TABLE not touched (45_host_commands.md R276). `e.*` and `d.*` keep their
last values, the lengths latched by R270 step 2 not showing in them: DESIGN CHOICE, log entry 27. -/
def State.refuse (s : State) : State := s.stop (Status.failure argRefusedCode) 0 0 0

/-! Decoder phases: each goes on, or fails with the state at the failing check (60_exceptions.md R309). -/

/-- What a phase of a stream instruction gives. -/
inductive Phase where
  | ok (s : State)
  | err (kind : ErrKind) (s : State)
  deriving DecidableEq, Repr

/-- The next phase, unless this one failed. -/
def Phase.andThen (p : Phase) (f : State → Phase) : Phase :=
  match p with
  | .ok s => f s
  | .err kind s => .err kind s

/-- The state after the last phase: an error stops the decode. -/
def Phase.state (p : Phase) : State :=
  match p with
  | .ok s => s
  | .err kind s => s.raiseError kind

/-- `copy_literals(n)`: the output check, the input check, then the copy in increasing order
(42_decoder_fsm.md R185). -/
def copyLiterals (n : Nat) (s : State) : Phase :=
  if s.d.C < s.d.op + n then .err .outputOverrun s
  else if s.d.N - s.d.ip < n + 1 then .err .inputOverrun s
  else
    .ok (((s.writeOut s.d.op (s.readIn (s.inBase + s.d.ip) n)).setOp (s.d.op + n)).setIp (s.d.ip + n))

/-- The byte-by-byte copy: each byte is read after the one before it was written (42_decoder_fsm.md R186). -/
def copyBack (dist : Nat) : Nat → State → State
  | 0, s => s
  | len + 1, s =>
    copyBack dist len ((s.writeOut s.d.op [s.outByte (s.d.op - dist)]).setOp (s.d.op + 1))

/-- `copy_match(dist, len)`: the lookbehind check, the output check, then the copy (42_decoder_fsm.md R186). -/
def copyMatch (dist len : Nat) (s : State) : Phase :=
  if s.d.op < dist then .err .lookbehindOverrun s
  else if s.d.C < s.d.op + len then .err .outputOverrun s
  else .ok (copyBack dist len s)

/-- `d.t <- fetch()`, and the next opcode is a match (42_decoder_fsm.md R183, R192). -/
def fetchHeld (s : State) : Phase :=
  if s.d.N ≤ s.d.ip then .err .inputOverrun s
  else
    .ok (((s.setT (s.inByte (s.inBase + s.d.ip))).setIp (s.d.ip + 1)).setDState (.expectMatch .afterTrailing))

/-- `finish_match(s)`: no trailing literal, or a copy of them and the fetch of the next opcode
(42_decoder_fsm.md R192). -/
def finishMatch (count : Nat) (s : State) : Phase :=
  if count = 0 then .ok (s.setDState .expectLiteralOrMatch)
  else (copyLiterals count s).andThen fetchHeld

/-- The running decode's bounds lie inside the memories: the stream in IN, the destination in OUT, the write cursor in
the destination (42_decoder_fsm.md R180, R197; 45_host_commands.md R275). Every access of a stream instruction then
has a byte. -/
def State.decodeBounds (s : State) : Bool :=
  decide (s.inBase + s.d.N ≤ s.cfg.inSize) && decide (s.d.C ≤ s.cfg.outSize) && decide (s.d.op ≤ s.d.C)

/-- A stream instruction's answer, or the fault of bounds that no run reaches (log entry 14). -/
def decodeAnswer (s : State) (p : Phase) : Answer :=
  if s.decodeBounds then .next p.state else .fault .boundsOutsideMemory

/-- LITF, LIT and LITX: copy the run; the next opcode is a match (43_literal_instructions.md R211, R213, R214). -/
def literalRun (n : Nat) (s : State) : Phase :=
  (copyLiterals n s).andThen fun s => .ok (s.setDState (.expectMatch .afterLiteral))

/-- Every match but EOS: the copy, then the trailing literals (44_match_instructions.md R230). -/
def matchRun (dist len count : Nat) (s : State) : Phase :=
  (copyMatch dist len s).andThen (finishMatch count)

end Sys2Proof.Machine
end

