-- ==== Sys2Proof/Machine/MatchFinder.lean ====
section
/-! DEFINITION. The hash index and the match finder (40_match_finder.md). The source bytes are `S[i] = IN[i]`
(41_encoder.md R141). -/

namespace Sys2Proof.Machine

/-- `h1`, the four bytes mixed, in exact numbers (40_match_finder.md R110, R111). -/
def hashMix (p0 p1 p2 p3 : Byte) : Nat :=
  (((((p3.toNat <<< 6) ^^^ p2.toNat) <<< 5) ^^^ p1.toNat) <<< 5) ^^^ p0.toNat

/-- `index(p0, p1, p2, p3)`, in exact numbers (40_match_finder.md R110, R111). -/
def hashIndex (p0 p1 p2 p3 : Byte) : Nat := ((hashMix p0 p1 p2 p3 * 33) >>> 5) &&& Config.hashMask

/-- `rehash(idx)`, the fallback slot (40_match_finder.md R112). -/
def rehash (idx : Nat) : Nat := (idx &&& Config.rehashMask) ^^^ Config.rehashXor

/-- `TABLE[k]`; none is `Empty` (10_state.md R38). -/
def State.slot (s : State) (k : Nat) : Option Nat := Sparse.get? s.table k

/-- The hash slot of position `p` (40_match_finder.md R110). -/
def State.indexAt (s : State) (p : Nat) : Nat :=
  hashIndex (s.inByte p) (s.inByte (p + 1)) (s.inByte (p + 2)) (s.inByte (p + 3))

/-- The candidate in slot `k`, unless it is rejected: empty, not below `p`, or more than 49151 behind it
(40_match_finder.md R116). -/
def State.candidate (s : State) (k p : Nat) : Option Nat :=
  match s.slot k with
  | none => none
  | some c => if p ≤ c ∨ Config.m4MaxOffset < p - c then none else some c

/-- The test that sends a candidate on to the 3-byte check: near, or equal in the 4th byte
(40_match_finder.md R117, R118). -/
def State.goesOn (s : State) (c p : Nat) : Bool :=
  decide (p - c ≤ Config.m2MaxOffset) || s.inByte (c + 3) == s.inByte (p + 3)

/-- The slot to write and the candidate that goes on to the 3-byte check (40_match_finder.md R117 to R119, R125). -/
def State.lookup (s : State) (p : Nat) : Nat × Option Nat :=
  let idx := s.indexAt p
  match s.candidate idx p with
  | none => (idx, none)
  | some c =>
    if s.goesOn c p then (idx, some c)
    else
      let idx2 := rehash idx
      let slot := if s.cfg.updateSlot = .lastProbed then idx2 else idx
      match s.candidate idx2 p with
      | none => (slot, none)
      | some c2 => if s.goesOn c2 p then (slot, some c2) else (slot, none)

/-- The 3-byte confirmation (40_match_finder.md R120). -/
def State.confirmed (s : State) (m p : Nat) : Bool :=
  s.inByte m == s.inByte p && s.inByte (m + 1) == s.inByte (p + 1) && s.inByte (m + 2) == s.inByte (p + 2)

/-- The first offset from `k` up, at most `fuel` further, at which `S[m + k]` and `S[p + k]` differ. -/
def State.agreeFrom (s : State) (m p : Nat) : Nat → Nat → Nat
  | k, 0 => k
  | k, fuel + 1 => if s.inByte (m + k) = s.inByte (p + k) then s.agreeFrom m p (k + 1) fuel else k

/-- The match length: bytes `p+3 .. p+8` first, then the open loop to the end of the source
(40_match_finder.md R121). -/
def State.matchLength (s : State) (m p : Nat) : Nat :=
  let k := s.agreeFrom m p 3 6
  if k < 9 then k else s.agreeFrom m p 9 (s.e.L - (p + 9))

/-- What a probe finds. -/
inductive Found where
  | noMatch
  | hit (dist len : Nat)
  deriving DecidableEq, Repr

/-- `probe(p)`: the slot that is written with `p`, and what was found (40_match_finder.md R125). -/
def State.probe (s : State) (p : Nat) : Nat × Found :=
  match s.lookup p with
  | (slot, none) => (slot, .noMatch)
  | (slot, some m) =>
    if s.confirmed m p then (slot, .hit (p - m) (s.matchLength m p)) else (slot, .noMatch)

end Sys2Proof.Machine
end

