-- ==== Sys2Proof/Machine/Encoder.lean ====
section
/-! DEFINITION. The encoder: its emissions (41_encoder.md R144 to R157) and its two steps, one probe with the emission
it causes, and the final step (70_reset_and_hazards.md R342). -/

namespace Sys2Proof.Machine

/-- How a literal run is written (41_encoder.md R144). -/
inductive RunForm where
  /-- Nothing is written. -/
  | nothing
  /-- The count goes into the low 2 bits of `OUT[e.op - 2]` (41_encoder.md R145). -/
  | patch
  /-- A literal instruction is written. -/
  | instr (i : Instr)
  deriving DecidableEq, Repr

/-- `17 + n`: LITFS or LITF (30_encoding.md R82). -/
def firstRun (n : Nat) : Instr := if n ≤ 3 then .litfs n else .litf n

/-- The general forms of a run: patch, LIT or LITX (41_encoder.md R145 to R147). -/
def generalForm (n : Nat) : RunForm :=
  if n ≤ 3 then .patch else if n ≤ 18 then .instr (.lit n) else .instr (.litx n)

/-- The form of a run of `n` bytes: the first rule of R148, R149, R145, R146 and R147 that applies
(41_encoder.md R144). -/
def runForm (form : FirstRunForm) (tail : Bool) (op n : Nat) : RunForm :=
  if n = 0 then .nothing
  else if tail then
    if op = 0 ∧ n ≤ Config.firstRunMax then .instr (firstRun n) else generalForm n
  else if op = 0 ∧ form = .shortOpcode ∧ 4 ≤ n ∧ n ≤ Config.firstRunMax then .instr (firstRun n)
  else generalForm n

/-- Emit bytes: `OUT[e.op] <- b`, `e.op <- e.op + 1`, each behind the output base (41_encoder.md, opening;
45_host_commands.md R273). -/
def State.emit (s : State) (bytes : List Byte) : State :=
  { s.writeOut (s.outBase + s.e.op) bytes with e := { s.e with op := s.e.op + bytes.length } }

/-- `OUT[e.op - 2] <- OUT[e.op - 2] | n` (41_encoder.md R145); none where there is no such byte. -/
def State.patch (s : State) (n : Nat) : Option State :=
  if s.e.op < 2 then none
  else
    let a := s.outBase + s.e.op - 2
    some (s.writeOut a [s.outByte a ||| byte n])

/-- `emit_literals(from, to, ctx)`: the length encoding and then the raw bytes (41_encoder.md R144 to R150). -/
def State.emitLiterals (s : State) (start stop : Nat) (tail : Bool) : Option State :=
  let n := stop - start
  match runForm s.cfg.firstRunForm tail s.e.op n with
  | .nothing => some s
  | .patch =>
    match s.patch n with
    | some s' => some (s'.emit (s.readIn start n))
    | none => none
  | .instr i => some ((s.emit (encode i)).emit (s.readIn start n))

/-- The match form of a distance and a length, its trailing count still 0 (41_encoder.md R151). -/
def matchForm (dist len : Nat) : Instr :=
  if dist ≤ Config.m2MaxOffset ∧ len ≤ 8 then .m2 dist len 0
  else if dist ≤ Config.m3MaxOffset then
    if len ≤ 33 then .m3 dist len 0 else .m3x dist len 0
  else if len ≤ 9 then .m4 dist len 0
  else .m4x dist len 0

/-- `emit_match(dist, len)` (41_encoder.md R151 to R156). -/
def State.emitMatch (s : State) (dist len : Nat) : State := s.emit (encode (matchForm dist len))

/-- The terminator the encoder writes, `11 00 00` (41_encoder.md R157). -/
def canonicalEos : Instr := .eos 1 0 0

/-- The scan is over: the source is short, or a position after the first probe has reached the margin
(40_match_finder.md R115, R126; 41_encoder.md R142; log entry 17). -/
def State.scanDone (s : State) : Bool :=
  decide (s.e.L ≤ Config.shortInputMax) ||
    (decide (s.e.ip ≠ 4) && decide (s.e.L - Config.scanMargin ≤ s.e.ip))

/-- The encoder's cursors lie inside the memories. -/
def State.encodeBounds (s : State) : Bool := decide (s.outBase + s.e.op ≤ s.cfg.outSize)

/-- The answer of an encoder step, or the fault of an output cursor outside OUT, which no run reaches
(41_encoder.md R161; log entry 14). -/
def encodeAnswer (emitted next : State) : Answer :=
  if emitted.encodeBounds then .next next else .fault .boundsOutsideMemory

/-- A position as a slot of `POS_BITS` bits holds it (00_scope.md R8, 10_state.md R38). Within the limits of the
parameters nothing is lost (log entry 1). -/
def State.slotPosition (s : State) (p : Nat) : Nat := p % 2 ^ s.cfg.posBits

/-- `TABLE[slot] <- Pos(e.ip)` (40_match_finder.md R119). -/
def State.storePosition (s : State) (slot : Nat) : State :=
  { s with table := Sparse.set s.table slot (s.slotPosition s.e.ip) }

/-- One probe at `e.ip` with the emission it causes (40_match_finder.md R119, R122, R123; 41_encoder.md R143, R158,
R159). -/
def probeStep (s : State) : Answer :=
  match s.probe s.e.ip with
  | (slot, .noMatch) =>
    let s1 := s.storePosition slot
    encodeAnswer s1 { s1 with e := { s1.e with ip := s.e.ip + 1 } }
  | (slot, .hit dist len) =>
    match (s.storePosition slot).emitLiterals s.e.ii s.e.ip false with
    | none => .fault .noByteToPatch
    | some s1 =>
      let s2 := s1.emitMatch dist len
      encodeAnswer s2 { s2 with e := { s2.e with ip := s.e.ip + len, ii := s.e.ip + len } }

/-- The last step: the tail run, the terminator and the completion (41_encoder.md R149, R157, R159;
45_host_commands.md R278). -/
def finalStep (s : State) : Answer :=
  match s.emitLiterals s.e.ii s.e.L true with
  | none => .fault .noByteToPatch
  | some s1 =>
    let s2 := s1.emit (encode canonicalEos)
    encodeAnswer s2 s2.endEncode

/-- One encoder step (70_reset_and_hazards.md R342). -/
def encoderStep (s : State) : Answer :=
  if s.cfg.inSize < s.e.L then .fault .boundsOutsideMemory
  else if s.scanDone then finalStep s
  else probeStep s

end Sys2Proof.Machine
end

