-- ==== Sys2Proof/Machine/Commands.lean ====
section
/-! DEFINITION. The four host commands: the accepting step of 45_host_commands.md R270, with its refusals and each
command's start step. -/

namespace Sys2Proof.Machine

/-- The result registers are 0 from the accepting step on (45_host_commands.md R270 step 3). -/
def State.clearResults (s : State) : State :=
  { s with regs := { s.regs with outLen := 0, inPos := 0, outPos := 0 } }

/-- The command runs: STATUS is busy and the mode is set (45_host_commands.md R270 step 5). -/
def State.begin (s : State) (mode : Mode) : State :=
  { s with regs := { s.regs with status := Status.running }, mode := mode }

/-- The input length is too large for any command (45_host_commands.md R275, first row). -/
def State.inputTooLong (s : State) : Bool :=
  decide (s.cfg.inSize < s.regs.inLen.toNat) || decide (s.cfg.maxLen < s.regs.inLen.toNat)

/-- A capacity is too large for OUT (45_host_commands.md R274 step 2, R275). -/
def State.capacityTooLarge (s : State) (C : Nat) : Bool :=
  decide (s.cfg.outSize < C) || decide (s.cfg.maxLen < C)

/-- The COMPRESS start step (41_encoder.md R141, 40_match_finder.md R114, R115). `e.ip` and TABLE are set only where
they are used (log entry 20), and `d.*` is kept (log entry 27). -/
def State.startEncode (s : State) (L : Nat) : State :=
  if Config.shortInputMax < L then { s with table := [], e := { L := L, ip := 4, ii := 0, op := 0 } }
  else { s with e := { s.e with L := L, ii := 0, op := 0 } }

/-- The DECOMPRESS start step (42_decoder_fsm.md R182). `d.t` is unspecified: a free value (log entry 6). `e.*` and
TABLE are kept (log entry 27). -/
def State.startDecode (s : State) (N C : Nat) : State :=
  { s with
    d := { N := N, C := C, ip := 0, op := 0, state := .start, t := Config.freeOpcode s.outGen } }

/-- An accepted COMPRESS or COMPRESS_FRAMED, `header` being the bytes in front of the stream
(45_host_commands.md R271, R273, R275). -/
def acceptCompress (op : OpKind) (header : List Byte) (s : State) : State :=
  let L := s.regs.inLen.toNat
  if s.inputTooLong || decide (s.cfg.outSize < header.length + outBound L) then s.clearResults.refuse
  else ((s.clearResults.begin (.compressing op)).startEncode L).writeOut 0 header

/-- An accepted DECOMPRESS (45_host_commands.md R272, R275). -/
def acceptDecompress (s : State) : State :=
  let C := s.regs.dstCap.toNat
  if s.inputTooLong || s.capacityTooLarge C then s.clearResults.refuse
  else (s.clearResults.begin (.decompressing .decompress)).startDecode s.regs.inLen.toNat C

/-- The capacity in the frame header (45_host_commands.md R274 step 2). -/
def State.headerCapacity (s : State) : Nat := le32 (s.inByte 0) (s.inByte 1) (s.inByte 2) (s.inByte 3)

/-- An accepted DECOMPRESS_FRAMED: too short for its header is an error, too large a header a refusal
(45_host_commands.md R274, R275, R276; log entry 18). -/
def acceptDecompressFramed (s : State) : State :=
  let n := s.regs.inLen.toNat
  if s.inputTooLong then s.clearResults.refuse
  else if n < 4 then (s.clearResults.begin (.decompressing .decompressFramed)).stopError .inputOverrun 0 0
  else if s.capacityTooLarge s.headerCapacity then s.clearResults.refuse
  else (s.clearResults.begin (.decompressing .decompressFramed)).startDecode (n - 4) s.headerCapacity

/-- A command is ignored while `BUSY = 1` (45_host_commands.md R277). -/
def unlessBusy (s accepted : State) : Answer := if s.regs.status.busy then .next s else .next accepted

/-- COMPRESS (45_host_commands.md R271). -/
def execCompress (s : State) : Answer := unlessBusy s (acceptCompress .compress [] s)

/-- DECOMPRESS (45_host_commands.md R272). -/
def execDecompress (s : State) : Answer := unlessBusy s (acceptDecompress s)

/-- COMPRESS_FRAMED: the header is the source length, little-endian (45_host_commands.md R273). -/
def execCompressFramed (s : State) : Answer :=
  unlessBusy s (acceptCompress .compressFramed (leBytes 4 s.regs.inLen.toNat) s)

/-- DECOMPRESS_FRAMED (45_host_commands.md R274). -/
def execDecompressFramed (s : State) : Answer := unlessBusy s (acceptDecompressFramed s)

end Sys2Proof.Machine
end

