-- ==== Sys2Proof/Machine/Literals.lean ====
section
/-! DEFINITION. The literal-run instructions (43_literal_instructions.md). A meaning starts with `d.ip` just after the
instruction's header (log entry 11). -/

namespace Sys2Proof.Machine

/-- LITFS: copy 1 to 3 bytes and fetch the next opcode into `d.t` (43_literal_instructions.md R212). -/
def execLitfs (n : Nat) (s : State) : Answer := decodeAnswer s ((copyLiterals n s).andThen fetchHeld)

/-- LITF: copy 4 to 238 bytes (43_literal_instructions.md R211). -/
def execLitf (n : Nat) (s : State) : Answer := decodeAnswer s (literalRun n s)

/-- LIT: copy 4 to 18 bytes (43_literal_instructions.md R213). -/
def execLit (n : Nat) (s : State) : Answer := decodeAnswer s (literalRun n s)

/-- LITX: copy 19 bytes or more (43_literal_instructions.md R214). -/
def execLitx (n : Nat) (s : State) : Answer := decodeAnswer s (literalRun n s)

end Sys2Proof.Machine
end

