-- ==== Sys2Proof/Machine/Matches.lean ====
section
/-! DEFINITION. The match instructions and the end of stream (44_match_instructions.md). A meaning starts with `d.ip`
just after the instruction's header (log entry 11). -/

namespace Sys2Proof.Machine

/-- M1L: 3 bytes, right after a literal run (44_match_instructions.md R232). -/
def execM1l (dist count : Nat) (s : State) : Answer := decodeAnswer s (matchRun dist 3 count s)

/-- M1: 2 bytes, after trailing literals (44_match_instructions.md R231). -/
def execM1 (dist count : Nat) (s : State) : Answer := decodeAnswer s (matchRun dist 2 count s)

/-- M2 (44_match_instructions.md R233). -/
def execM2 (dist len count : Nat) (s : State) : Answer := decodeAnswer s (matchRun dist len count s)

/-- M3 (44_match_instructions.md R234). -/
def execM3 (dist len count : Nat) (s : State) : Answer := decodeAnswer s (matchRun dist len count s)

/-- M3X (44_match_instructions.md R235). -/
def execM3x (dist len count : Nat) (s : State) : Answer := decodeAnswer s (matchRun dist len count s)

/-- M4 (44_match_instructions.md R236). -/
def execM4 (dist len count : Nat) (s : State) : Answer := decodeAnswer s (matchRun dist len count s)

/-- M4X (44_match_instructions.md R237). -/
def execM4x (dist len count : Nat) (s : State) : Answer := decodeAnswer s (matchRun dist len count s)

/-- EOS: the end of the stream must be the end of the input (42_decoder_fsm.md R193, 44_match_instructions.md R238).
Its three fields are ignored (D15). -/
def execEos (_l3 _ext _count : Nat) (s : State) : Answer :=
  if s.decodeBounds then
    if s.d.ip = s.d.N then .next s.endDecode
    else if s.d.ip < s.d.N then .next (s.raiseError .inputNotConsumed)
    else .next (s.raiseError .inputOverrun)
  else .fault .boundsOutsideMemory

end Sys2Proof.Machine
end

