-- ==== Sys2Proof/Machine/Dispatch.lean ====
section
/-! DEFINITION. One arm per constructor of Instr: each calls the instruction's own meaning. -/

namespace Sys2Proof.Machine

def exec (i : Instr) (s : State) : Host.Outcome State Fault Refusal :=
  match i with
  | .litfs n => Sys2Proof.Machine.execLitfs n s
  | .litf n => Sys2Proof.Machine.execLitf n s
  | .lit n => Sys2Proof.Machine.execLit n s
  | .litx n => Sys2Proof.Machine.execLitx n s
  | .m1l dist count => Sys2Proof.Machine.execM1l dist count s
  | .m1 dist count => Sys2Proof.Machine.execM1 dist count s
  | .m2 dist len count => Sys2Proof.Machine.execM2 dist len count s
  | .m3 dist len count => Sys2Proof.Machine.execM3 dist len count s
  | .m3x dist len count => Sys2Proof.Machine.execM3x dist len count s
  | .m4 dist len count => Sys2Proof.Machine.execM4 dist len count s
  | .m4x dist len count => Sys2Proof.Machine.execM4x dist len count s
  | .eos l3 ext count => Sys2Proof.Machine.execEos l3 ext count s
  | .compress => Sys2Proof.Machine.execCompress s
  | .decompress => Sys2Proof.Machine.execDecompress s
  | .compressFramed => Sys2Proof.Machine.execCompressFramed s
  | .decompressFramed => Sys2Proof.Machine.execDecompressFramed s

end Sys2Proof.Machine
end

