-- ==== Sys2Proof/Machine/HostPort.lean ====
section
/-! DEFINITION. The host's side of the block: register and memory reads and writes (10_state.md R22 to R31,
20_memory.md R60) and the platform's reset (70_reset_and_hazards.md R330). -/

namespace Sys2Proof.Machine

/-- What is to be done in a step: run an instruction at a state, or give an answer. -/
inductive Work where
  | run (i : Instr) (s : State)
  | answer (a : Answer)

/-- What the host reads from a register: CTRL and the reserved registers read 0 (10_state.md R23, R24, R31). -/
def State.hostReadReg (s : State) (number : Nat) : Word :=
  match number with
  | 1 => s.regs.status.word
  | 2 => s.regs.inLen
  | 3 => s.regs.dstCap
  | 4 => s.regs.outLen
  | 5 => s.regs.inPos
  | 6 => s.regs.outPos
  | _ => 0

/-- What the host reads from OUT: not final while `BUSY = 1` (70_reset_and_hazards.md R335). DESIGN CHOICE: two reads of
one address during one running command give the same free byte, also where the engine writes it between them (log
entry 5). -/
def State.hostReadOut (s : State) (a : Nat) : Byte :=
  if s.regs.status.busy then Config.busyOut s.outGen a else s.outByte a

/-- Reset: the block is as after power-on, with the parameters it was built with; the memories are unspecified
(70_reset_and_hazards.md R330, 10_state.md R41; log entry 24). The turns still to come are kept. -/
def State.resetBlock (s : State) : State :=
  { State.reset with cfg := s.cfg, inGen := s.inGen + 1, outGen := s.outGen + 1, turns := s.turns }

/-- A write to a length register, which the host may make only while `BUSY = 0` (70_reset_and_hazards.md R334; log
entry 9). -/
def whileIdle (s : State) (written : State) : Work :=
  if s.regs.status.busy then .answer (.fault .hostWriteWhileBusy) else .answer (.next written)

/-- A register write: CTRL starts a command where START is 1, IN_LEN and DST_CAP store the word, and every other
write is ignored (10_state.md R24 to R31). -/
def hostWriteReg (number : Nat) (value : Word) (s : State) : Work :=
  match number with
  | 0 =>
    match decode .ctrl (leBytes 4 value.toNat) with
    | .ok i _ => .run i s
    | .reject _ => .answer (.next s)
  | 2 => whileIdle s { s with regs := { s.regs with inLen := value } }
  | 3 => whileIdle s { s with regs := { s.regs with dstCap := value } }
  | _ => .answer (.next s)

/-- The host's turn. A read changes nothing, and its value is a function of the state (log entries 10 and 25). -/
def hostTurn (a : HostAction) (s : State) : Work :=
  match a with
  | .writeReg number value => hostWriteReg number value s
  | .writeIn address value =>
    if s.cfg.inSize ≤ address then .answer (.fault .addressOutsideIn)
    else whileIdle s { s with inMem := Sparse.set s.inMem address value }
  | .writeOut address value =>
    if s.cfg.outSize ≤ address then .answer (.fault .addressOutsideOut)
    else whileIdle s { s with outMem := Sparse.set s.outMem address value }
  | .read (.reg _) => .answer (.next s)
  | .read (.inByte address) =>
    if s.cfg.inSize ≤ address then .answer (.fault .addressOutsideIn) else .answer (.next s)
  | .read (.outByte address) =>
    if s.cfg.outSize ≤ address then .answer (.fault .addressOutsideOut) else .answer (.next s)
  | .reset => .answer (.next s.resetBlock)

end Sys2Proof.Machine
end

