-- ==== Sys2Proof/Machine/Fetch.lean ====
section
/-! DEFINITION. What a step has to do: whose turn it is, and, for a running decode, the fetch of an instruction's
header (42_decoder_fsm.md R187 to R190). -/

namespace Sys2Proof.Machine

/-- The stream bytes not yet fetched, `IN[d.ip .. d.N)` behind the input base. -/
def State.streamRest (s : State) : List Byte := s.readIn (s.inBase + s.d.ip) (s.d.N - s.d.ip)

/-- Fetch one instruction's header and run it. `held` is the opcode byte already in `d.t`, if any. A header that the
input ends in raises InputOverrun with every byte of it fetched (42_decoder_fsm.md R183, R184; log entry 11). A first
byte of 0 to 17 only changes the state (42_decoder_fsm.md R187). -/
def fetchInstr (c : DecodeTable) (held : List Byte) (s : State) : Work :=
  match decode c (held ++ s.streamRest) with
  | .ok i rest => .run i (s.setIp (s.d.N - rest.length))
  | .reject .notFirstByteRun => .answer (.next (s.setDState .expectLiteralOrMatch))
  | .reject _ => .answer (.next ((s.setIp (max s.d.ip s.d.N)).raiseError .inputOverrun))

/-- One decoder step up to the instruction it runs (42_decoder_fsm.md R187 to R190). -/
def decoderStep (s : State) : Work :=
  if s.decodeBounds then
    match s.d.state with
    | .start =>
      if s.d.N = 0 then .answer (.next (s.raiseError .eofMarkerNotFound)) else fetchInstr .start [] (s.setIp 0)
    | .expectLiteralOrMatch =>
      if s.d.N ≤ s.d.ip then .answer (.next (s.raiseError .eofMarkerNotFound))
      else fetchInstr .literalOrMatch [] s
    | .expectMatch .afterLiteral => fetchInstr .afterLiteral [] s
    | .expectMatch .afterTrailing =>
      if s.d.N ≤ s.d.ip then .answer (.next (s.raiseError .eofMarkerNotFound))
      else fetchInstr .afterTrailing [s.d.t] s
    | .copyingMatch => .answer (.fault .copyingMatchAtBoundary)
    | .ended => .answer (.next s)
    | .error _ => .answer (.next s)
  else .answer (.fault .boundsOutsideMemory)

/-- The engine's turn. An idle engine holds everything (60_exceptions.md R317; log entry 8). -/
def engineTurn (s : State) : Work :=
  match s.mode with
  | .idle => .answer (.next s)
  | .compressing _ => .answer (encoderStep s)
  | .decompressing _ => decoderStep s

/-- Whose turn it is: the head of the queue, and the engine where the queue is empty (log entry 7). -/
def nextWork (s : State) : Work :=
  match s.turns with
  | [] => engineTurn s
  | .engine :: rest => engineTurn (s.setTurns rest)
  | .host a :: rest => hostTurn a (s.setTurns rest)

/-- Place a table word where the next step runs it: a CTRL word as the host's next turn, any other as the stream of a
running DECOMPRESS in the decoder state of its table (log entry 16). -/
def placeWord (s : State) (nbits w : Nat) : State :=
  match stateOfTable (tableOf w) with
  | none => { s with turns := .host (.writeReg 0 (BitVec.ofNat 32 w)) :: s.turns }
  | some x =>
    { s with
      regs := { s.regs with status := Status.running, outLen := 0, inPos := 0, outPos := 0 }
      mode := .decompressing .decompress
      d :=
        { N := tableSpan, C := s.cfg.outSize, ip := if tableOf w = .afterTrailing then 1 else 0, op := s.d.op
          state := x, t := if tableOf w = .afterTrailing then byte w else s.d.t }
      inMem := Memory.ofBytes 0 (tableBytes nbits w) ++ s.inMem.filter fun cell => decide (tableSpan ≤ cell.1)
      turns := .engine :: s.turns }

end Sys2Proof.Machine
end

