-- ==== Sys2Proof/Machine/Step.lean ====
section
/-! DEFINITION. One step of the block: the next turn, and the instruction it runs. -/

namespace Sys2Proof.Machine

/-- One architectural step (42_decoder_fsm.md R198, 70_reset_and_hazards.md R342; log entries 13 and 23). -/
def step (s : State) : Host.Outcome State Fault Refusal :=
  match nextWork s with
  | .run i s' => exec i s'
  | .answer a => a

/-- `s` with a table word placed where the next step fetches and runs it (log entry 16). -/
def State.withFetchWord (s : State) (nbits w : Nat) : State := placeWord s nbits w

end Sys2Proof.Machine
end

