-- ==== Sys2Proof/Safety.lean ====
section
/-! DEFINITION. The terms claims are made in: whose turn it is, what a step leaves alone, how an operation stops, and
the invariant of a block that a host drives by its duties. -/

namespace Sys2Proof.Machine

/-- The engine moves next, and `u` is the state with its turn taken from the queue (log entry 7). -/
def EngineNext (s u : State) : Prop :=
  (s.turns = [] ∧ u = s) ∨ ∃ rest, s.turns = .engine :: rest ∧ u = s.setTurns rest

/-- The host takes action `a` next, and `u` is the state with its turn taken from the queue. -/
def HostNext (s u : State) (a : HostAction) : Prop :=
  ∃ rest, s.turns = .host a :: rest ∧ u = s.setTurns rest

/-- What no stream instruction writes (43_literal_instructions.md R210, 44_match_instructions.md R230), whether it goes
on or stops: the parameters, IN, TABLE, the encoder registers, IN_LEN, DST_CAP, `d.N`, `d.C`, and the turns. That TABLE
and the encoder registers hold their values during and after a decode, and `d.N` and `d.C` after it, is the model's
choice (log entry 27). -/
structure StreamFrame (s t : State) : Prop where
  cfg : t.cfg = s.cfg
  inMem : t.inMem = s.inMem
  inGen : t.inGen = s.inGen
  table : t.table = s.table
  e : t.e = s.e
  inLen : t.regs.inLen = s.regs.inLen
  dstCap : t.regs.dstCap = s.regs.dstCap
  N : t.d.N = s.d.N
  C : t.d.C = s.d.C
  turns : t.turns = s.turns

/-- The decode goes on: beside the frame, no host register and no mode bit changes. -/
structure StillDecoding (s t : State) : Prop where
  frame : StreamFrame s t
  regs : t.regs = s.regs
  mode : t.mode = s.mode

/-- `OUT[a .. a + n)` of `t` holds the bytes `f 0, f 1, ..`, and every other byte of OUT is as in `s`. -/
def OutHolds (s t : State) (a n : Nat) (f : Nat → Byte) : Prop :=
  (∀ k, k < n → t.outByte (a + k) = f k) ∧ ∀ x, x < a ∨ a + n ≤ x → t.outByte x = s.outByte x

/-- The decode stopped in `Error(kind)` with its cursors at `ip` and `op` (60_exceptions.md R303,
45_host_commands.md R278). Of OUT it says nothing: it is unspecified (60_exceptions.md R319). That `d.*` holds the
stopping values afterwards is the model's choice (log entry 27). -/
structure StoppedBy (s t : State) (kind : ErrKind) (ip op : Nat) : Prop where
  frame : StreamFrame s t
  state : t.d.state = .error kind
  ipAt : t.d.ip = ip
  opAt : t.d.op = op
  status : t.regs.status = { busy := false, done := false, error := true, errKind := kind.code }
  outLen : t.regs.outLen = 0
  inPos : t.regs.inPos = reg32 (s.inBase + ip)
  outPos : t.regs.outPos = reg32 op
  mode : t.mode = .idle

/-- What no host command writes: the parameters, IN, IN_LEN, DST_CAP and the turns (10_state.md R26, R27, R39). -/
structure CommandFrame (s t : State) : Prop where
  cfg : t.cfg = s.cfg
  inMem : t.inMem = s.inMem
  inGen : t.inGen = s.inGen
  inLen : t.regs.inLen = s.regs.inLen
  dstCap : t.regs.dstCap = s.regs.dstCap
  turns : t.turns = s.turns

/-- A command was refused with `ArgRefused` and touched nothing else (45_host_commands.md R276). That `e` and `d` keep
their values is the model's choice (log entry 27). -/
structure Refused (s t : State) : Prop where
  frame : CommandFrame s t
  status : t.regs.status = { busy := false, done := false, error := true, errKind := 6 }
  outLen : t.regs.outLen = 0
  inPos : t.regs.inPos = 0
  outPos : t.regs.outPos = 0
  mode : t.mode = .idle
  outMem : t.outMem = s.outMem
  outGen : t.outGen = s.outGen
  table : t.table = s.table
  e : t.e = s.e
  d : t.d = s.d

/-- A command was accepted: STATUS is busy and the result registers are 0 (45_host_commands.md R270). -/
structure Accepted (s t : State) (mode : Mode) : Prop where
  frame : CommandFrame s t
  status : t.regs.status = { busy := true, done := false, error := false, errKind := 0 }
  outLen : t.regs.outLen = 0
  inPos : t.regs.inPos = 0
  outPos : t.regs.outPos = 0
  mode : t.mode = mode

/-- The host keeps its duties with this action: it names a byte that exists, and it writes IN, OUT, IN_LEN and
DST_CAP only while `BUSY = 0` (20_memory.md R60, R71; 70_reset_and_hazards.md R334). -/
def HostDuty (s : State) : HostAction → Prop
  | .writeReg number _ => number = 2 ∨ number = 3 → s.regs.status.busy = false
  | .writeIn a _ => s.regs.status.busy = false ∧ a < s.cfg.inSize
  | .writeOut a _ => s.regs.status.busy = false ∧ a < s.cfg.outSize
  | .read (.reg _) => True
  | .read (.inByte a) => a < s.cfg.inSize
  | .read (.outByte a) => a < s.cfg.outSize
  | .reset => True

/-! How a literal run of `n` bytes is written, by the conditions of 41_encoder.md R144 to R149. -/

/-- The run opens the stream as `17 + n`: the output is empty, `n` is 1 to 238, and the run is the tail, or has 4
bytes or more under `short_opcode` (41_encoder.md R148, R149). -/
def State.opensStream (s : State) (tail : Bool) (n : Nat) : Bool :=
  decide (s.e.op = 0) && decide (1 ≤ n) && decide (n ≤ 238) &&
    (tail || (decide (s.cfg.firstRunForm = .shortOpcode) && decide (4 ≤ n)))

/-- The bytes that carry the length of the run; none for a run that is empty or patched into the match before it
(41_encoder.md R144 to R149). -/
def State.lengthBytes (s : State) (tail : Bool) (n : Nat) : List Byte :=
  if s.opensStream tail n then [byte (17 + n)]
  else if n ≤ 3 then []
  else if n ≤ 18 then [byte (n - 3)]
  else byte 0 :: continuation (n - 18)

/-- What is OR-ed into `OUT[e.op - 2]`: the length of a run of 1 to 3 bytes that opens nothing, else 0
(41_encoder.md R145). -/
def State.patchCount (s : State) (tail : Bool) (n : Nat) : Nat :=
  if s.opensStream tail n then 0 else if n ≤ 3 then n else 0

/-- `t` has emitted `out` behind the output cursor of `s` and OR-ed `count` into the byte two below it; every other byte
of OUT below the new cursor is as in `s`. -/
structure Emitted (s t : State) (count : Nat) (out : List Byte) : Prop where
  op : t.e.op = s.e.op + out.length
  bytes : ∀ k b, out[k]? = some b → t.outByte (s.outBase + s.e.op + k) = b
  patched : count ≠ 0 → t.outByte (s.outBase + s.e.op - 2) = s.outByte (s.outBase + s.e.op - 2) ||| byte count
  below : ∀ x, x < s.outBase + s.e.op → count = 0 ∨ x ≠ s.outBase + s.e.op - 2 → t.outByte x = s.outByte x

/-! The invariant. -/

/-- STATUS and the result registers: at most one of BUSY, DONE and ERROR, no ERR_KIND without ERROR and never 7,
BUSY while an operation runs (10_state.md R25), and the result registers of R28 and R30. -/
structure StatusInv (s : State) : Prop where
  oneBit : s.regs.status.busy.toNat + s.regs.status.done.toNat + s.regs.status.error.toNat ≤ 1
  noKind : s.regs.status.error = false → s.regs.status.errKind = 0
  kind : s.regs.status.error = true → s.regs.status.errKind ≠ 0 ∧ s.regs.status.errKind ≠ 7
  busy : s.regs.status.busy = true ↔ s.mode ≠ .idle
  busyRegs : s.regs.status.busy = true → s.regs.outLen = 0 ∧ s.regs.inPos = 0 ∧ s.regs.outPos = 0
  errorLen : s.regs.status.error = true → s.regs.outLen = 0
  doneLen : s.regs.status.done = true → s.regs.outPos = s.regs.outLen

/-- Memories and TABLE keep their canonical form and their sizes (20_memory.md R60, 10_state.md R38). -/
structure MemoryInv (s : State) : Prop where
  inWf : Memory.wf s.inMem
  outWf : Memory.wf s.outMem
  tableWf : Sparse.wf s.table
  inSize : ∀ cell ∈ s.inMem, cell.1 < s.cfg.inSize
  outSize : ∀ cell ∈ s.outMem, cell.1 < s.cfg.outSize
  table : ∀ entry ∈ s.table, entry.1 < Config.tableSlots ∧ entry.2 < 2 ^ s.cfg.posBits

/-- The decoder states that a step boundary of a running decode can show (10_state.md R36, 42_decoder_fsm.md R196). -/
def DState.running : DState → Bool
  | .start => true
  | .expectLiteralOrMatch => true
  | .expectMatch _ => true
  | .copyingMatch => false
  | .ended => false
  | .error _ => false

/-- The cursors of a running decode (42_decoder_fsm.md R197). -/
structure DecodeInv (s : State) : Prop where
  inBounds : s.inBase + s.d.N ≤ s.cfg.inSize
  outBounds : s.d.C ≤ s.cfg.outSize
  ip : s.d.ip ≤ s.d.N
  op : s.d.op ≤ s.d.C
  running : s.d.state.running = true
  start : s.d.state = .start → s.d.ip = 0 ∧ s.d.op = 0
  afterLiteral : s.d.state = .expectMatch .afterLiteral → s.d.ip < s.d.N

/-- The cursors of a running compression: the source lies in IN, the worst-case output in OUT, and what is written so
far is at most 17/16 of what is covered, so that the bound of 41_encoder.md R161 is kept. -/
structure EncodeInv (s : State) : Prop where
  source : s.e.L ≤ s.cfg.inSize
  room : s.outBase + outBound s.e.L ≤ s.cfg.outSize
  written : 16 * s.e.op ≤ 17 * s.e.ii
  opened : (s.e.op = 0 ∧ s.e.ii = 0) ∨ 2 ≤ s.e.op
  short : s.e.L ≤ Config.shortInputMax → s.e.op = 0
  scan : Config.shortInputMax < s.e.L → 4 ≤ s.e.ip ∧ s.e.ii ≤ s.e.ip ∧ s.e.ip ≤ s.e.L
  positions : Config.shortInputMax < s.e.L → ∀ entry ∈ s.table, entry.2 < s.e.ip

/-- The invariant of a block: what every step keeps, whoever takes it. -/
structure State.Inv (s : State) : Prop where
  cfg : s.cfg.ok = true
  status : StatusInv s
  memory : MemoryInv s
  decode : ∀ op, s.mode = .decompressing op →
    (op = .decompress ∨ op = .decompressFramed) ∧ DecodeInv s
  encode : ∀ op, s.mode = .compressing op →
    (op = .compress ∨ op = .compressFramed) ∧ EncodeInv s

end Sys2Proof.Machine
end

