-- ==== Sys2Proof/Certificates/Slice0/Obligations.lean ====
section
/-! DEFINITION. The statements for the provers. Each formalises a rule of spec/, or several, and says which; none rests on
a value the model chose unless its docstring, or that of a term of Safety.lean it is made in, says so. -/

open Sys2Proof Sys2Proof.Machine

/-! Encoding. -/

/-- 30_encoding.md R82 to R88: words written out from the encoding tables decode to the instructions they stand for. -/
def Obligations.WrittenOutWordsDecode : Prop :=
  decode .start [0x16, 0x61] = .ok (.litf 5) [0x61] ∧
  decode .start [0x12] = .ok (.litfs 1) [] ∧
  decode .literalOrMatch [0x02] = .ok (.lit 5) [] ∧
  decode .literalOrMatch [0x00, 0x00, 0x01] = .ok (.litx 274) [] ∧
  decode .afterLiteral [0x0F, 0xFF] = .ok (.m1l 3072 3) [] ∧
  decode .afterTrailing [0x0C, 0xFF] = .ok (.m1 1024 0) [] ∧
  decode .afterLiteral [0xFC, 0xFF] = .ok (.m2 2048 8 0) [] ∧
  decode .literalOrMatch [0x2D, 0x5F, 0x00] = .ok (.m3 24 15 3) [] ∧
  decode .afterTrailing [0x20, 0x00, 0x01, 0xFC, 0xFF] = .ok (.m3x 16384 289 0) [] ∧
  decode .literalOrMatch [0x19, 0xFC, 0xFF] = .ok (.m4 49151 3 0) [] ∧
  decode .literalOrMatch [0x18, 0x01, 0x00, 0x00] = .ok (.m4x 32768 10 0) [] ∧
  decode .literalOrMatch [0x11, 0x00, 0x00] = .ok (.eos 1 0 0) [] ∧
  decode .ctrl [0x06, 0x00, 0x00, 0x00] = .ok .compressFramed []

/-- 30_encoding.md R81 to R91: in every table an instruction is read in, decoding what the encoder writes gives the
instruction back, with every operand at every value its encoding admits, and leaves the bytes that follow. -/
def Obligations.DecodingAnEncodedInstructionGivesItBack : Prop :=
  ∀ (i : Instr) (c : DecodeTable) (rest : List Byte),
    i.wf = true → i.inTable c = true → decode c (encode i ++ rest) = .ok i rest

/-- 30_encoding.md R81 to R94: what the decoder reads from a stream is a well-formed instruction of the table it reads
in, and its header bytes are the only encoding of it. -/
def Obligations.EveryStreamInstructionHasOneEncoding : Prop :=
  ∀ (c : DecodeTable) (bytes : List Byte) (i : Instr) (rest : List Byte),
    c ≠ .ctrl → decode c bytes = .ok i rest →
      i.wf = true ∧ i.inTable c = true ∧ bytes = encode i ++ rest

/-- 30_encoding.md R93: no byte value is illegal in any decoder state. Outside `Start`, a byte with what follows it
gives an instruction or lacks operand bytes, and for every byte some following bytes give an instruction; in `Start`,
a byte of 18 or more gives one and a byte of 0 to 17 is passed on. -/
def Obligations.NoByteValueIsIllegal : Prop :=
  (∀ (c : DecodeTable) (t : Byte) (bytes : List Byte),
    (c = .literalOrMatch ∨ c = .afterLiteral ∨ c = .afterTrailing) →
      (∃ i rest, decode c (t :: bytes) = .ok i rest) ∨ decode c (t :: bytes) = .reject .truncated) ∧
  (∀ (c : DecodeTable) (t : Byte), (c = .literalOrMatch ∨ c = .afterLiteral ∨ c = .afterTrailing) →
    ∃ bytes i, decode c (t :: bytes) = .ok i []) ∧
  ∀ (t : Byte) (bytes : List Byte),
    (18 ≤ t.toNat → ∃ i, decode .start (t :: bytes) = .ok i bytes) ∧
    (t.toNat ≤ 17 → decode .start (t :: bytes) = .reject .notFirstByteRun)

/-- 30_encoding.md R89, R94: reading a continuation written for a value of 1 or more gives the value and leaves the
bytes that follow, and no other bytes of the same grammar give it. -/
def Obligations.AContinuationHasOneValueAndOneForm : Prop :=
  (∀ (v : Nat) (rest : List Byte), 1 ≤ v → readExt (continuation v ++ rest) = some (v, rest)) ∧
  ∀ (bytes rest : List Byte) (v : Nat), readExt bytes = some (v, rest) → 1 ≤ v ∧ bytes = continuation v ++ rest

/-! What a step runs. -/

/-- 42_decoder_fsm.md R187 to R191: where the bytes at `d.ip`, behind the opcode held in `d.t` after trailing
literals, decode in the table of the decoder state, the engine's step is that instruction's meaning with `d.ip` behind
its header. -/
def Obligations.AStepRunsTheDecodedInstruction : Prop :=
  ∀ (s u : State) (op : OpKind) (c : DecodeTable) (held rest : List Byte) (i : Instr),
    EngineNext s u → u.mode = .decompressing op → u.decodeBounds = true → u.d.state.table = some c →
    (c = .start → u.d.ip = 0) → (c = .afterTrailing → held = [u.d.t] ∧ u.d.ip < u.d.N) →
    (c ≠ .afterTrailing → held = []) → decode c (held ++ u.streamRest) = .ok i rest →
      step s = exec i (u.setIp (u.d.ip + i.headerLength - held.length))

/-- 10_state.md R24, 45_host_commands.md R270: a write to CTRL with START = 1 runs the command that OP selects, whatever
the reserved bits hold; with START = 0 it changes nothing. -/
def Obligations.ACtrlWriteRunsTheSelectedCommand : Prop :=
  ∀ (s u : State) (w : Word), HostNext s u (.writeReg 0 w) →
    (w.toNat % 8 = 4 → step s = exec .compress u) ∧
    (w.toNat % 8 = 5 → step s = exec .decompress u) ∧
    (w.toNat % 8 = 6 → step s = exec .compressFramed u) ∧
    (w.toNat % 8 = 7 → step s = exec .decompressFramed u) ∧
    (w.toNat % 8 < 4 → step s = .next u)

/-- 42_decoder_fsm.md R187, 30_encoding.md R81: a first byte of 0 to 17 is not consumed; only the decoder state
changes. -/
def Obligations.ASmallFirstByteIsPassedOn : Prop :=
  ∀ (s u : State) (op : OpKind), EngineNext s u → u.mode = .decompressing op → u.decodeBounds = true →
    u.d.state = .start → u.d.ip = 0 → 1 ≤ u.d.N → (u.inByte u.inBase).toNat ≤ 17 →
      step s = .next (u.setDState .expectLiteralOrMatch)

/-- 42_decoder_fsm.md R183, 60_exceptions.md R302: a header that the input ends in raises InputOverrun, with every
byte of the input fetched. -/
def Obligations.AHeaderCutShortRaisesInputOverrun : Prop :=
  ∀ (s u : State) (op : OpKind) (c : DecodeTable) (held : List Byte),
    EngineNext s u → u.mode = .decompressing op → u.decodeBounds = true → u.d.state.table = some c →
    c ≠ .start → u.d.ip < u.d.N → (c = .afterTrailing → held = [u.d.t]) → (c ≠ .afterTrailing → held = []) →
    decode c (held ++ u.streamRest) = .reject .truncated →
      ∃ t, step s = .next t ∧ StoppedBy u t .inputOverrun u.d.N u.d.op

/-- 60_exceptions.md R305: EofMarkerNotFound is raised where a new instruction is needed and no input is left. -/
def Obligations.NoInputForAnInstructionRaisesEofMarkerNotFound : Prop :=
  ∀ (s u : State) (op : OpKind), EngineNext s u → u.mode = .decompressing op → u.decodeBounds = true →
    (u.d.state = .start ∧ u.d.N = 0 ∨ u.d.state = .expectLiteralOrMatch ∧ u.d.N ≤ u.d.ip ∨
      u.d.state = .expectMatch .afterTrailing ∧ u.d.N ≤ u.d.ip) →
      ∃ t, step s = .next t ∧ StoppedBy u t .eofMarkerNotFound u.d.ip u.d.op

/-! Literal runs. -/

/-- 43_literal_instructions.md R211, R213, R214: LITF, LIT and LITX copy their run to `OUT[d.op ..)`, move both cursors
by it and expect a match next; nothing else changes. -/
def Obligations.LitfLitAndLitxCopyTheirRun : Prop :=
  ∀ (s : State) (i : Instr) (n : Nat), (i = .litf n ∨ i = .lit n ∨ i = .litx n) → s.decodeBounds = true →
    s.d.op + n ≤ s.d.C → n + 1 ≤ s.d.N - s.d.ip →
      ∃ t, exec i s = .next t ∧ StillDecoding s t ∧
        OutHolds s t s.d.op n (fun k => s.inByte (s.inBase + s.d.ip + k)) ∧
        t.d.ip = s.d.ip + n ∧ t.d.op = s.d.op + n ∧ t.d.state = .expectMatch .afterLiteral ∧ t.d.t = s.d.t

/-- 43_literal_instructions.md R212: LITFS copies its run, fetches the next opcode into `d.t` and expects a match next;
nothing else changes. -/
def Obligations.LitfsCopiesItsRunAndHoldsTheNextOpcode : Prop :=
  ∀ (s : State) (n : Nat), s.decodeBounds = true → s.d.op + n ≤ s.d.C → n + 1 ≤ s.d.N - s.d.ip →
    ∃ t, exec (.litfs n) s = .next t ∧ StillDecoding s t ∧
      OutHolds s t s.d.op n (fun k => s.inByte (s.inBase + s.d.ip + k)) ∧
      t.d.ip = s.d.ip + n + 1 ∧ t.d.op = s.d.op + n ∧ t.d.state = .expectMatch .afterTrailing ∧
      t.d.t = s.inByte (s.inBase + s.d.ip + n)

/-- 43_literal_instructions.md R217, 42_decoder_fsm.md R185: a literal instruction first checks the output and then the
input, and stops at the failing check with both cursors where they were. -/
def Obligations.ALiteralRunChecksOutputThenInput : Prop :=
  ∀ (s : State) (i : Instr) (n : Nat), (i = .litfs n ∨ i = .litf n ∨ i = .lit n ∨ i = .litx n) →
    s.decodeBounds = true →
      (s.d.C < s.d.op + n → ∃ t, exec i s = .next t ∧ StoppedBy s t .outputOverrun s.d.ip s.d.op) ∧
      (s.d.op + n ≤ s.d.C → s.d.N - s.d.ip < n + 1 →
        ∃ t, exec i s = .next t ∧ StoppedBy s t .inputOverrun s.d.ip s.d.op)

/-! Matches. -/

/-- 44_match_instructions.md R231 to R237: a match without trailing literals copies `len` bytes from `dist` behind the
write cursor, the copy repeating with period `dist` where it overlaps itself (R239), and goes on to general dispatch;
nothing else changes. -/
def Obligations.AMatchWithoutTrailingLiteralsCopies : Prop :=
  ∀ (s : State) (i : Instr) (dist len : Nat),
    (i = .m1l dist 0 ∧ len = 3 ∨ i = .m1 dist 0 ∧ len = 2 ∨ i = .m2 dist len 0 ∨ i = .m3 dist len 0 ∨
      i = .m3x dist len 0 ∨ i = .m4 dist len 0 ∨ i = .m4x dist len 0) →
    s.decodeBounds = true → 1 ≤ dist → dist ≤ s.d.op → s.d.op + len ≤ s.d.C →
      ∃ t, exec i s = .next t ∧ StillDecoding s t ∧
        OutHolds s t s.d.op len (fun k => s.outByte (s.d.op - dist + k % dist)) ∧
        t.d.ip = s.d.ip ∧ t.d.op = s.d.op + len ∧ t.d.state = .expectLiteralOrMatch ∧ t.d.t = s.d.t

/-- 44_match_instructions.md R231 to R237, 42_decoder_fsm.md R192: a match with 1 to 3 trailing literals copies the
match, then the literals, fetches the next opcode into `d.t` and expects a match next; nothing else changes. -/
def Obligations.AMatchWithTrailingLiteralsCopiesBoth : Prop :=
  ∀ (s : State) (i : Instr) (dist len count : Nat),
    (i = .m1l dist count ∧ len = 3 ∨ i = .m1 dist count ∧ len = 2 ∨ i = .m2 dist len count ∨
      i = .m3 dist len count ∨ i = .m3x dist len count ∨ i = .m4 dist len count ∨ i = .m4x dist len count) →
    s.decodeBounds = true → 1 ≤ dist → dist ≤ s.d.op → 1 ≤ count → s.d.op + len + count ≤ s.d.C →
    count + 1 ≤ s.d.N - s.d.ip →
      ∃ t, exec i s = .next t ∧ StillDecoding s t ∧
        OutHolds s t s.d.op (len + count) (fun k =>
          if k < len then s.outByte (s.d.op - dist + k % dist)
          else s.inByte (s.inBase + s.d.ip + (k - len))) ∧
        t.d.ip = s.d.ip + count + 1 ∧ t.d.op = s.d.op + len + count ∧
        t.d.state = .expectMatch .afterTrailing ∧ t.d.t = s.inByte (s.inBase + s.d.ip + count)

/-- 42_decoder_fsm.md R186, 44_match_instructions.md R241: a match first checks the distance and then the output, and
stops at the failing check with both cursors where they were. -/
def Obligations.AMatchChecksLookbehindThenOutput : Prop :=
  ∀ (s : State) (i : Instr) (dist len count : Nat),
    (i = .m1l dist count ∧ len = 3 ∨ i = .m1 dist count ∧ len = 2 ∨ i = .m2 dist len count ∨
      i = .m3 dist len count ∨ i = .m3x dist len count ∨ i = .m4 dist len count ∨ i = .m4x dist len count) →
    s.decodeBounds = true →
      (s.d.op < dist → ∃ t, exec i s = .next t ∧ StoppedBy s t .lookbehindOverrun s.d.ip s.d.op) ∧
      (dist ≤ s.d.op → s.d.C < s.d.op + len →
        ∃ t, exec i s = .next t ∧ StoppedBy s t .outputOverrun s.d.ip s.d.op)

/-- 44_match_instructions.md R241, R242: trailing literals that do not fit stop a match after its own copy: first the
output check, then the input check, with `d.op` behind the match. -/
def Obligations.TrailingLiteralsThatDoNotFitStopTheMatch : Prop :=
  ∀ (s : State) (i : Instr) (dist len count : Nat),
    (i = .m1l dist count ∧ len = 3 ∨ i = .m1 dist count ∧ len = 2 ∨ i = .m2 dist len count ∨
      i = .m3 dist len count ∨ i = .m3x dist len count ∨ i = .m4 dist len count ∨ i = .m4x dist len count) →
    s.decodeBounds = true → dist ≤ s.d.op → s.d.op + len ≤ s.d.C → 1 ≤ count →
      (s.d.C < s.d.op + len + count →
        ∃ t, exec i s = .next t ∧ StoppedBy s t .outputOverrun s.d.ip (s.d.op + len)) ∧
      (s.d.op + len + count ≤ s.d.C → s.d.N - s.d.ip < count + 1 →
        ∃ t, exec i s = .next t ∧ StoppedBy s t .inputOverrun s.d.ip (s.d.op + len))

/-- 44_match_instructions.md R239: after `copy_match` every byte copied is the one at the same place of the period in
front of the copy, and every other byte of OUT is as before. -/
def Obligations.AnOverlappingCopyRepeatsItsPeriod : Prop :=
  ∀ (s : State) (dist len : Nat), 1 ≤ dist → dist ≤ s.d.op →
    OutHolds s (copyBack dist len s) s.d.op len (fun k => s.outByte (s.d.op - dist + k % dist))

/-! End of stream. -/

/-- 44_match_instructions.md R238, 42_decoder_fsm.md R193, R194, 45_host_commands.md R278: an end marker at the end of
the input ends the decode in `End`, whatever its three fields hold: DONE, the write cursor as the length of the
result, whose bytes stay, and the cursors in IN_POS and OUT_POS. That the decoder registers, the encoder registers and
TABLE hold their values after it is the model's choice (log entry 27). -/
def Obligations.EosAtTheEndOfTheInputEndsTheDecode : Prop :=
  ∀ (s : State) (l3 ext count : Nat), s.decodeBounds = true → s.d.ip = s.d.N →
    ∃ t, exec (.eos l3 ext count) s = .next t ∧ StreamFrame s t ∧ t.d = { s.d with state := .ended } ∧
      t.mode = .idle ∧
      t.regs.status = { busy := false, done := true, error := false, errKind := 0 } ∧
      t.regs.outLen = reg32 s.d.op ∧ t.regs.inPos = reg32 (s.inBase + s.d.ip) ∧ t.regs.outPos = reg32 s.d.op ∧
      ∀ a, a < s.d.op → t.outByte a = s.outByte a

/-- 60_exceptions.md R306, 44_match_instructions.md R238: an end marker before the end of the input raises
InputNotConsumed. What it says of engine registers and TABLE after the error is the model's choice (log entry 27). -/
def Obligations.EosBeforeTheEndOfTheInputRaisesInputNotConsumed : Prop :=
  ∀ (s : State) (l3 ext count : Nat), s.decodeBounds = true → s.d.ip < s.d.N →
    ∃ t, exec (.eos l3 ext count) s = .next t ∧ StoppedBy s t .inputNotConsumed s.d.ip s.d.op

/-! The frame of the stream instructions. -/

/-- 43_literal_instructions.md R210, 44_match_instructions.md R230: a stream instruction writes no register, memory or
table outside `d.ip`, `d.op`, `d.state`, `d.t` and `OUT[d.op ..)`, and where the decode goes on it writes OUT only
between the old write cursor and the new one. Where it stops, the result registers, STATUS and `mode` change, and OUT
below `d.op` stays only on success (R279). That TABLE and the encoder registers hold their values is the model's
choice (log entry 27). -/
def Obligations.StreamInstructionsKeepEverythingElse : Prop :=
  ∀ (s t : State) (i : Instr) (n dist len count l3 ext : Nat),
    (i = .litfs n ∨ i = .litf n ∨ i = .lit n ∨ i = .litx n ∨ i = .m1l dist count ∨ i = .m1 dist count ∨
      i = .m2 dist len count ∨ i = .m3 dist len count ∨ i = .m3x dist len count ∨ i = .m4 dist len count ∨
      i = .m4x dist len count ∨ i = .eos l3 ext count) →
    exec i s = .next t →
      StreamFrame s t ∧
      (t.mode ≠ .idle → t.regs = s.regs ∧ t.mode = s.mode ∧ t.outGen = s.outGen ∧ s.d.op ≤ t.d.op ∧
        ∀ a, a < s.d.op ∨ t.d.op ≤ a → t.outByte a = s.outByte a)

/-! Host commands. -/

/-- 45_host_commands.md R270, R271, R275, 41_encoder.md R141, 40_match_finder.md R114: an accepted COMPRESS sets up
the encoder, clears TABLE where the source is longer than 13 bytes, and writes no byte of OUT. That the decoder
registers hold their values is the model's choice (log entry 27). -/
def Obligations.CompressStartsTheEncoder : Prop :=
  ∀ (s : State), s.regs.status.busy = false → s.regs.inLen.toNat ≤ s.cfg.inSize →
    s.regs.inLen.toNat ≤ s.cfg.maxLen → outBound s.regs.inLen.toNat ≤ s.cfg.outSize →
      ∃ t, exec .compress s = .next t ∧ Accepted s t (.compressing .compress) ∧ t.d = s.d ∧
        t.e.L = s.regs.inLen.toNat ∧ t.e.op = 0 ∧ t.e.ii = 0 ∧ (∀ a, t.outByte a = s.outByte a) ∧
        (13 < s.regs.inLen.toNat → t.e.ip = 4 ∧ ∀ k, t.slot k = none)

/-- 45_host_commands.md R270, R273, R275, 20_memory.md R61: an accepted COMPRESS_FRAMED writes the source length to
`OUT[0 .. 4)`, lowest byte first, and sets up the encoder as COMPRESS does. That the decoder registers hold their
values is the model's choice (log entry 27). -/
def Obligations.CompressFramedWritesItsHeader : Prop :=
  ∀ (s : State), s.regs.status.busy = false → s.regs.inLen.toNat ≤ s.cfg.inSize →
    s.regs.inLen.toNat ≤ s.cfg.maxLen → 4 + outBound s.regs.inLen.toNat ≤ s.cfg.outSize →
      ∃ t, exec .compressFramed s = .next t ∧ Accepted s t (.compressing .compressFramed) ∧ t.d = s.d ∧
        t.e.L = s.regs.inLen.toNat ∧ t.e.op = 0 ∧ t.e.ii = 0 ∧
        (t.outByte 0).toNat = s.regs.inLen.toNat % 256 ∧
        (t.outByte 1).toNat = s.regs.inLen.toNat / 256 % 256 ∧
        (t.outByte 2).toNat = s.regs.inLen.toNat / 65536 % 256 ∧
        (t.outByte 3).toNat = s.regs.inLen.toNat / 16777216 % 256 ∧
        (∀ a, 4 ≤ a → t.outByte a = s.outByte a) ∧
        (13 < s.regs.inLen.toNat → t.e.ip = 4 ∧ ∀ k, t.slot k = none)

/-- 45_host_commands.md R270, R272, R275, 42_decoder_fsm.md R182: an accepted DECOMPRESS sets up the decoder at the
start of IN with the capacity of DST_CAP, and writes no byte of OUT. That the encoder registers and TABLE hold their
values is the model's choice (log entry 27). -/
def Obligations.DecompressStartsTheDecoder : Prop :=
  ∀ (s : State), s.regs.status.busy = false → s.regs.inLen.toNat ≤ s.cfg.inSize →
    s.regs.inLen.toNat ≤ s.cfg.maxLen → s.regs.dstCap.toNat ≤ s.cfg.outSize → s.regs.dstCap.toNat ≤ s.cfg.maxLen →
      ∃ t, exec .decompress s = .next t ∧ Accepted s t (.decompressing .decompress) ∧ t.inBase = 0 ∧
        t.d.N = s.regs.inLen.toNat ∧ t.d.C = s.regs.dstCap.toNat ∧ t.d.ip = 0 ∧ t.d.op = 0 ∧ t.d.state = .start ∧
        t.e = s.e ∧ t.table = s.table ∧ ∀ a, t.outByte a = s.outByte a

/-- 45_host_commands.md R270, R274, R275: an accepted DECOMPRESS_FRAMED takes its capacity from the four header bytes,
lowest first, and sets up the decoder on the rest of IN; it writes no byte of OUT. That the encoder registers and
TABLE hold their values is the model's choice (log entry 27). -/
def Obligations.DecompressFramedTakesItsCapacityFromTheHeader : Prop :=
  ∀ (s : State), s.regs.status.busy = false → s.regs.inLen.toNat ≤ s.cfg.inSize →
    s.regs.inLen.toNat ≤ s.cfg.maxLen → 4 ≤ s.regs.inLen.toNat →
    le32 (s.inByte 0) (s.inByte 1) (s.inByte 2) (s.inByte 3) ≤ s.cfg.outSize →
    le32 (s.inByte 0) (s.inByte 1) (s.inByte 2) (s.inByte 3) ≤ s.cfg.maxLen →
      ∃ t, exec .decompressFramed s = .next t ∧ Accepted s t (.decompressing .decompressFramed) ∧ t.inBase = 4 ∧
        t.d.N = s.regs.inLen.toNat - 4 ∧
        t.d.C = le32 (s.inByte 0) (s.inByte 1) (s.inByte 2) (s.inByte 3) ∧
        t.d.ip = 0 ∧ t.d.op = 0 ∧ t.d.state = .start ∧
        t.e = s.e ∧ t.table = s.table ∧ ∀ a, t.outByte a = s.outByte a

/-- 45_host_commands.md R274, D29: a framed container shorter than its header stops in Error(InputOverrun) with IN_POS
and OUT_POS 0. That the encoder registers and TABLE hold their values is the model's choice (log entry 27). -/
def Obligations.AContainerShorterThanItsHeaderIsAnInputOverrun : Prop :=
  ∀ (s : State), s.regs.status.busy = false → s.regs.inLen.toNat ≤ s.cfg.inSize →
    s.regs.inLen.toNat ≤ s.cfg.maxLen → s.regs.inLen.toNat < 4 →
      ∃ t, exec .decompressFramed s = .next t ∧ CommandFrame s t ∧ t.mode = .idle ∧
        t.d.state = .error .inputOverrun ∧
        t.regs.status = { busy := false, done := false, error := true, errKind := 2 } ∧
        t.regs.outLen = 0 ∧ t.regs.inPos = 0 ∧ t.regs.outPos = 0 ∧ t.e = s.e ∧ t.table = s.table

/-- 45_host_commands.md R275, R276 and R274 step 2: a command whose lengths do not fit is refused with ArgRefused and
touches nothing else. That the engine registers hold their values is the model's choice (log entry 27). -/
def Obligations.ACommandThatDoesNotFitIsRefused : Prop :=
  ∀ (s : State), s.regs.status.busy = false →
    ((s.cfg.inSize < s.regs.inLen.toNat ∨ s.cfg.maxLen < s.regs.inLen.toNat) →
      ∀ i, (i = .compress ∨ i = .decompress ∨ i = .compressFramed ∨ i = .decompressFramed) →
        ∃ t, exec i s = .next t ∧ Refused s t) ∧
    (s.cfg.outSize < outBound s.regs.inLen.toNat → ∃ t, exec .compress s = .next t ∧ Refused s t) ∧
    (s.cfg.outSize < 4 + outBound s.regs.inLen.toNat → ∃ t, exec .compressFramed s = .next t ∧ Refused s t) ∧
    ((s.cfg.outSize < s.regs.dstCap.toNat ∨ s.cfg.maxLen < s.regs.dstCap.toNat) →
      ∃ t, exec .decompress s = .next t ∧ Refused s t) ∧
    (4 ≤ s.regs.inLen.toNat →
      (s.cfg.outSize < le32 (s.inByte 0) (s.inByte 1) (s.inByte 2) (s.inByte 3) ∨
        s.cfg.maxLen < le32 (s.inByte 0) (s.inByte 1) (s.inByte 2) (s.inByte 3)) →
      ∃ t, exec .decompressFramed s = .next t ∧ Refused s t)

/-- 45_host_commands.md R277: while `BUSY = 1` a command, and every write to CTRL whatever its bits hold, is ignored,
and the running operation goes on unchanged. -/
def Obligations.ACommandIsIgnoredWhileBusy : Prop :=
  (∀ (s : State) (i : Instr), (i = .compress ∨ i = .decompress ∨ i = .compressFramed ∨ i = .decompressFramed) →
    s.regs.status.busy = true → exec i s = .next s) ∧
  ∀ (s u : State) (w : Word), HostNext s u (.writeReg 0 w) → u.regs.status.busy = true → step s = .next u

/-! The host's port. -/

/-- 10_state.md R23 to R25 and R31: CTRL, register 7 and every higher number read 0; STATUS reads its bits at their
places; the other registers read what they hold. -/
def Obligations.TheHostReadsEachRegister : Prop :=
  ∀ (s : State),
    s.hostReadReg 0 = 0 ∧ (∀ n, 7 ≤ n → s.hostReadReg n = 0) ∧
    ((s.hostReadReg 1).getLsbD 0 = s.regs.status.busy ∧ (s.hostReadReg 1).getLsbD 1 = s.regs.status.done ∧
      (s.hostReadReg 1).getLsbD 2 = s.regs.status.error ∧ (s.hostReadReg 1).getLsbD 3 = false ∧
      (s.hostReadReg 1).extractLsb' 4 3 = s.regs.status.errKind ∧ (s.hostReadReg 1).toNat < 128) ∧
    s.hostReadReg 2 = s.regs.inLen ∧ s.hostReadReg 3 = s.regs.dstCap ∧ s.hostReadReg 4 = s.regs.outLen ∧
    s.hostReadReg 5 = s.regs.inPos ∧ s.hostReadReg 6 = s.regs.outPos

/-- 10_state.md R26, R27: a host write to IN_LEN or DST_CAP while the block is not busy stores the word and changes
nothing else. -/
def Obligations.ALengthRegisterStoresEveryWord : Prop :=
  ∀ (s u : State) (w : Word), u.regs.status.busy = false →
    (HostNext s u (.writeReg 2 w) → step s = .next { u with regs := { u.regs with inLen := w } }) ∧
    (HostNext s u (.writeReg 3 w) → step s = .next { u with regs := { u.regs with dstCap := w } })

/-- 10_state.md R25, R28 to R31: a host write to STATUS, OUT_LEN, IN_POS, OUT_POS, register 7 or any higher number is
ignored, busy or not. -/
def Obligations.WritesToTheOtherRegistersAreIgnored : Prop :=
  ∀ (s u : State) (n : Nat) (w : Word), HostNext s u (.writeReg n w) → (n = 1 ∨ 4 ≤ n) → step s = .next u

/-- 20_memory.md R60, R70: a host write to a byte of IN or OUT while the block is not busy stores it: it reads back,
and every other byte of both memories and every register stays. -/
def Obligations.AHostByteWriteStoresThatByte : Prop :=
  ∀ (s u : State) (a : Nat) (b : Byte), u.regs.status.busy = false →
    (HostNext s u (.writeIn a b) → a < u.cfg.inSize →
      ∃ t, step s = .next t ∧ t.inByte a = b ∧ (∀ x, x ≠ a → t.inByte x = u.inByte x) ∧
        t = { u with inMem := t.inMem }) ∧
    (HostNext s u (.writeOut a b) → a < u.cfg.outSize →
      ∃ t, step s = .next t ∧ t.outByte a = b ∧ (∀ x, x ≠ a → t.outByte x = u.outByte x) ∧
        t = { u with outMem := t.outMem })

/-- 70_reset_and_hazards.md R334, 20_memory.md R71: a host write to IN, OUT, IN_LEN or DST_CAP while `BUSY = 1` has no
next state. -/
def Obligations.AHostWriteWhileBusyHasNoStep : Prop :=
  ∀ (s u : State) (a : Nat) (b : Byte) (w : Word), u.regs.status.busy = true →
    (HostNext s u (.writeReg 2 w) ∨ HostNext s u (.writeReg 3 w) ∨
      (HostNext s u (.writeIn a b) ∧ a < u.cfg.inSize) ∨ (HostNext s u (.writeOut a b) ∧ a < u.cfg.outSize)) →
      step s = .fault .hostWriteWhileBusy

/-- 20_memory.md R67: no read in any space has a side effect. -/
def Obligations.AHostReadHasNoSideEffect : Prop :=
  ∀ (s u : State) (r : HostRead), HostNext s u (.read r) → HostDuty u (.read r) → step s = .next u

/-- 45_host_commands.md R280: while an operation runs, STATUS reads `BUSY = 1` and nothing else, and OUT_LEN, IN_POS and
OUT_POS read 0. -/
def Obligations.WhileBusyTheHostReadsBusyAndNoResult : Prop :=
  ∀ (s : State), s.Inv → s.regs.status.busy = true →
    s.hostReadReg 1 = 1 ∧ s.hostReadReg 4 = 0 ∧ s.hostReadReg 5 = 0 ∧ s.hostReadReg 6 = 0

/-! Reset and idling. -/

/-- 10_state.md R41: what the spec gives for reset: every host register reads 0 and the mode is `Idle`. -/
def Obligations.ResetClearsTheHostRegisters : Prop :=
  (∀ n, State.reset.hostReadReg n = 0) ∧ State.reset.mode = .idle

/-- 70_reset_and_hazards.md R330: reset can come at any time, also while an operation runs: the host registers read 0,
the mode is `Idle`, and the parameters are those of the block. That the turns queued behind the reset are kept is the
model's choice (log entry 24). -/
def Obligations.ResetAbandonsARunningOperation : Prop :=
  ∀ (s u : State), HostNext s u .reset →
    ∃ t, step s = .next t ∧ (∀ n, t.hostReadReg n = 0) ∧ t.mode = .idle ∧ t.cfg = u.cfg ∧ t.turns = u.turns

/-- 60_exceptions.md R317: an idle engine holds every register and memory. R317 gives it no step: that its turn
answers the same state is the model's choice (log entry 8). -/
def Obligations.AnIdleEngineHoldsEverything : Prop :=
  ∀ (s u : State), EngineNext s u → u.mode = .idle → step s = .next u

/-- 42_decoder_fsm.md R181: `End` and `Error(kind)` are terminal: whatever the engine does next, the decoder registers
and with them the decoder state stay. That they hold their values between operations, and that an idle engine's turn
answers the same state, is the model's choice (log entries 27 and 8). -/
def Obligations.NoEngineStepLeavesATerminalState : Prop :=
  ∀ (s u t : State), u.Inv → (u.d.state = .ended ∨ ∃ k, u.d.state = .error k) → EngineNext s u → step s = .next t →
    t.d = u.d

/-! Match finder. -/

/-- 40_match_finder.md R110, R111: the 32-bit arithmetic of the hash never wraps. `h1` is the four bytes shifted and
combined, at most 0xFFFFFF, a bound that is reached; `h1 * 33` is at most 0x20FFFFDF; and both, and the slot, are the
same in exact numbers as in 32 bits. The slot exists. -/
def Obligations.TheHashNeverWraps : Prop :=
  (∀ (p0 p1 p2 p3 : Byte),
    let h1 : BitVec 32 :=
      ((((p3.setWidth 32 <<< 6) ^^^ p2.setWidth 32) <<< 5 ^^^ p1.setWidth 32) <<< 5) ^^^ p0.setWidth 32
    hashMix p0 p1 p2 p3 = (p3.toNat <<< 16) ^^^ (p2.toNat <<< 10) ^^^ (p1.toNat <<< 5) ^^^ p0.toNat ∧
    hashMix p0 p1 p2 p3 ≤ 0xFFFFFF ∧ hashMix p0 p1 p2 p3 * 33 ≤ 0x20FFFFDF ∧
    h1.toNat = hashMix p0 p1 p2 p3 ∧ (h1 * 33#32).toNat = hashMix p0 p1 p2 p3 * 33 ∧
    (((h1 * 33#32) >>> 5) &&& 0x3FFF#32).toNat = hashIndex p0 p1 p2 p3 ∧ hashIndex p0 p1 p2 p3 < 16384) ∧
  hashMix 0x1F 0x1F 0x3F 0xFF = 0xFFFFFF

/-- 40_match_finder.md R112: the fallback slot, by its formula, always lies in 0x2000 .. 0x27FF. -/
def Obligations.TheFallbackSlotLiesInItsRange : Prop :=
  ∀ (idx : Nat), rehash idx = (idx &&& 0x7FF) ^^^ 0x201F ∧ 0x2000 ≤ rehash idx ∧ rehash idx ≤ 0x27FF

/-- 40_match_finder.md R124: every match the finder reports is at least 3 bytes, ends in the source, has a distance in
the format's range, is at least 4 bytes where it is far, and agrees with the source byte for byte. -/
def Obligations.EveryMatchFoundAgreesWithTheSource : Prop :=
  ∀ (s : State) (p slot dist len : Nat), p + 9 ≤ s.e.L → s.probe p = (slot, .hit dist len) →
    3 ≤ len ∧ p + len ≤ s.e.L ∧ 1 ≤ dist ∧ dist ≤ 49151 ∧ dist ≤ p ∧ (2048 < dist → 4 ≤ len) ∧
    (9 ≤ len → ∀ k, k < 9 → s.inByte (p + k) = s.inByte (p - dist + k)) ∧
    ∀ k, k < len → s.inByte (p + k) = s.inByte (p - dist + k)

/-- 40_match_finder.md R119: a probe's position goes into the slot of its hash, or, under `last_probed` and after a
second lookup, into the fallback slot. -/
def Obligations.AProbeWritesItsSlot : Prop :=
  ∀ (s : State) (p slot : Nat) (r : Found), s.probe p = (slot, r) →
    (s.cfg.updateSlot = .primary → slot = s.indexAt p) ∧
    (s.cfg.updateSlot = .lastProbed →
      (slot = s.indexAt p ∨ slot = rehash (s.indexAt p)) ∧
      ((∃ c, s.candidate (s.indexAt p) p = some c ∧ 2048 < p - c ∧ s.inByte (c + 3) ≠ s.inByte (p + 3)) →
        slot = rehash (s.indexAt p)) ∧
      ((∀ c, s.candidate (s.indexAt p) p = some c → p - c ≤ 2048 ∨ s.inByte (c + 3) = s.inByte (p + 3)) →
        slot = s.indexAt p))

/-! Encoder. -/

/-- 40_match_finder.md R119, R122: a probe that finds no match writes its table slot and moves the scan by one byte;
nothing else changes. -/
def Obligations.AProbeWithoutAMatchMovesTheScanByOne : Prop :=
  ∀ (s u : State) (op : OpKind) (slot : Nat), EngineNext s u → u.mode = .compressing op → u.Inv →
    u.scanDone = false → u.probe u.e.ip = (slot, .noMatch) →
      ∃ t, step s = .next t ∧ t = { u with table := t.table, e := { u.e with ip := u.e.ip + 1 } } ∧
        t.slot slot = some u.e.ip ∧ ∀ k, k ≠ slot → t.slot k = u.slot k

/-- 40_match_finder.md R119, R123, 41_encoder.md R143, R158: a probe that finds a match writes its table slot, emits the
pending run and then the match, and moves the scan and the run start behind the match; nothing else changes. -/
def Obligations.AProbeWithAMatchEmitsIt : Prop :=
  ∀ (s u : State) (op : OpKind) (slot dist len : Nat), EngineNext s u → u.mode = .compressing op → u.Inv →
    u.scanDone = false → u.probe u.e.ip = (slot, .hit dist len) →
      ∃ t, step s = .next t ∧
        Emitted u t (u.patchCount false (u.e.ip - u.e.ii))
          (u.lengthBytes false (u.e.ip - u.e.ii) ++ u.readIn u.e.ii (u.e.ip - u.e.ii) ++
            encode (matchForm dist len)) ∧
        (∀ x, u.outBase + t.e.op ≤ x → t.outByte x = u.outByte x) ∧
        t.slot slot = some u.e.ip ∧ (∀ k, k ≠ slot → t.slot k = u.slot k) ∧
        t = { u with
              table := t.table, outMem := t.outMem,
              e := { L := u.e.L, ip := u.e.ip + len, ii := u.e.ip + len, op := t.e.op } }

/-- 41_encoder.md R144 to R150: a literal run before a match or at the tail is written as its length bytes and its raw
bytes; a run of 1 to 3 bytes that opens nothing is OR-ed into `OUT[e.op - 2]`. Nothing else changes. -/
def Obligations.ALiteralRunIsWrittenInItsForm : Prop :=
  ∀ (s : State) (start n : Nat) (tail : Bool), (s.patchCount tail n ≠ 0 → 2 ≤ s.e.op) →
    ∃ t, s.emitLiterals start (start + n) tail = some t ∧
      Emitted s t (s.patchCount tail n) (s.lengthBytes tail n ++ s.readIn start n) ∧
      (∀ x, s.outBase + t.e.op ≤ x → t.outByte x = s.outByte x) ∧
      t = { s with outMem := t.outMem, e := { s.e with op := t.e.op } }

/-- 41_encoder.md R151 to R156: the bytes of a match, by the source's shift formulas. -/
def Obligations.AMatchIsWrittenByTheShiftFormulas : Prop :=
  ∀ (dist len : Nat), 1 ≤ dist → dist ≤ 49151 → 3 ≤ len →
    (dist ≤ 2048 → len ≤ 8 →
      encode (matchForm dist len) =
        [byte (((len - 1) <<< 5) ||| (((dist - 1) &&& 7) <<< 2)), byte ((dist - 1) >>> 3)]) ∧
    (dist ≤ 16384 → ¬(dist ≤ 2048 ∧ len ≤ 8) →
      encode (matchForm dist len) =
        (if len ≤ 33 then [byte (0x20 ||| (len - 2))] else byte 0x20 :: continuation (len - 33)) ++
          [byte (((dist - 1) &&& 0x3F) <<< 2), byte (((dist - 1) >>> 6) &&& 0xFF)]) ∧
    (16384 < dist →
      encode (matchForm dist len) =
        (if len ≤ 9 then [byte (0x10 ||| (((dist - 16384) &&& 0x4000) >>> 11) ||| (len - 2))]
          else byte (0x10 ||| (((dist - 16384) &&& 0x4000) >>> 11)) :: continuation (len - 9)) ++
          [byte (((dist - 16384) &&& 0x3F) <<< 2), byte (((dist - 16384) >>> 6) &&& 0xFF)])

/-- 41_encoder.md R149, R157, R159, R161, 45_host_commands.md R278: the final step writes the tail run and the
terminator `11 00 00`, and the command completes: DONE, `L` in IN_POS, and the written length, with the header of a
framed command, in OUT_LEN and OUT_POS. The stream is no longer than the bound. That the encoder registers and TABLE
hold their last values, and the decoder registers theirs, is the model's choice (log entry 27). -/
def Obligations.TheFinalStepCompletesTheCommand : Prop :=
  ∀ (s u : State) (op : OpKind), EngineNext s u → u.mode = .compressing op → u.Inv → u.scanDone = true →
    ∃ t, step s = .next t ∧
      Emitted u t (u.patchCount true (u.e.L - u.e.ii))
        (u.lengthBytes true (u.e.L - u.e.ii) ++ u.readIn u.e.ii (u.e.L - u.e.ii) ++ [0x11, 0x00, 0x00]) ∧
      t.e.op ≤ outBound u.e.L ∧ t.e = { u.e with op := t.e.op } ∧
      CommandFrame u t ∧ t.d = u.d ∧ t.table = u.table ∧ t.mode = .idle ∧
      t.regs.status = { busy := false, done := true, error := false, errKind := 0 } ∧
      t.regs.outLen = reg32 (u.outBase + t.e.op) ∧ t.regs.inPos = reg32 u.e.L ∧
      t.regs.outPos = reg32 (u.outBase + t.e.op)

/-- 41_encoder.md R142: the output for a short source: the terminator alone for the empty source, else `17 + L`, the
source and the terminator. -/
def Obligations.AShortSourceBecomesOneLiteralRun : Prop :=
  ∀ (s : State), s.Inv → s.mode = .idle → s.turns = [] → s.regs.inLen.toNat ≤ 13 →
    s.regs.inLen.toNat ≤ s.cfg.inSize → outBound s.regs.inLen.toNat ≤ s.cfg.outSize →
      ∃ t u, exec .compress s = .next t ∧ step t = .next u ∧ u.mode = .idle ∧ u.regs.status.done = true ∧
        (s.regs.inLen.toNat = 0 →
          u.regs.outLen = 3 ∧ u.readOut 0 3 = [0x11, 0x00, 0x00]) ∧
        (1 ≤ s.regs.inLen.toNat →
          u.regs.outLen.toNat = s.regs.inLen.toNat + 4 ∧
          u.readOut 0 (s.regs.inLen.toNat + 4) =
            byte (17 + s.regs.inLen.toNat) :: s.readIn 0 s.regs.inLen.toNat ++ [0x11, 0x00, 0x00])

/-- 10_state.md R26, R27, R39: the engine never writes IN, IN_LEN or DST_CAP, and never a parameter. -/
def Obligations.TheEngineNeverWritesItsInputs : Prop :=
  ∀ (s u t : State), EngineNext s u → step s = .next t →
    t.cfg = u.cfg ∧ t.inMem = u.inMem ∧ t.inGen = u.inGen ∧ t.regs.inLen = u.regs.inLen ∧
    t.regs.dstCap = u.regs.dstCap ∧ t.turns = u.turns

/-- 41_encoder.md R164: a step of a compression depends on nothing but the source below `L`, the two encoder
parameters, the encoder's registers and table, the output base and the bytes of OUT: two blocks that agree on these
find the same matches, move the same way and write the same bytes, whatever else they hold. That two blocks show a
length of more than 32 bits in OUT_LEN alike, and keep `e.*` and TABLE alike at the end, is the model's choice (log
entries 4, 15 and 27). -/
def Obligations.TheStreamDependsOnTheSourceAlone : Prop :=
  ∀ (s u s' u' t t' : State) (op : OpKind), EngineNext s u → EngineNext s' u' → u.Inv → u'.Inv →
    u.mode = .compressing op → u'.mode = .compressing op → u.e = u'.e → u.table = u'.table →
    u.cfg.updateSlot = u'.cfg.updateSlot → u.cfg.firstRunForm = u'.cfg.firstRunForm →
    (∀ a, a < u.e.L → u.inByte a = u'.inByte a) →
    (∀ a, a < u.outBase + u.e.op → u.outByte a = u'.outByte a) →
    step s = .next t → step s' = .next t' →
      t.e = t'.e ∧ t.table = t'.table ∧ t.mode = t'.mode ∧ t.regs.outLen = t'.regs.outLen ∧
      ∀ a, a < u.outBase + t.e.op → t.outByte a = t'.outByte a

/-! The invariant and progress. -/

/-- The block right after reset meets the invariant. The parameters of reset and the values of the engine registers
are the model's choice (log entries 1 and 2); the statement holds for them. -/
def Obligations.ResetMeetsTheInvariant : Prop := State.reset.Inv

/-- Every step, whoever takes it, keeps the invariant: at most one status bit (10_state.md R25), the cursors of a decode
(42_decoder_fsm.md R197), the legal decoder states (R196), the cursors and the worst-case length of a compression
(41_encoder.md R161), and the canonical form and sizes of the memories and TABLE. -/
def Obligations.EveryStepKeepsTheInvariant : Prop :=
  ∀ (s t : State), s.Inv → step s = .next t → t.Inv

/-- 41_encoder.md R163, 60_exceptions.md R318, 20_memory.md R66: with the invariant, the engine's turn always has a next
state: no access has no byte, and compression has no error path. -/
def Obligations.TheEngineAlwaysHasANextState : Prop :=
  ∀ (s u : State), s.Inv → EngineNext s u → ∃ t, step s = .next t

/-- 70_reset_and_hazards.md R334: a host that keeps its duties never stops the block either. -/
def Obligations.ADutifulHostNeverStopsTheBlock : Prop :=
  ∀ (s u : State) (a : HostAction), s.Inv → HostNext s u a → HostDuty u a → ∃ t, step s = .next t

/-- 42_decoder_fsm.md R199: every decode that runs on its own stops within `N + 2` steps, in DONE or in ERROR. -/
def Obligations.EveryDecodeStopsWithinItsInput : Prop :=
  ∀ (s : State) (op : OpKind), s.Inv → s.mode = .decompressing op → s.turns = [] →
    ∃ k t, k ≤ s.d.N + 2 ∧ Sys2Proof.core.run k s = .next t ∧ t.mode = .idle ∧
      (t.regs.status.done = true ∨ t.regs.status.error = true)

/-- 41_encoder.md R161, R163, 70_reset_and_hazards.md R342: an accepted COMPRESS or COMPRESS_FRAMED that runs on its own
makes at most `max(1, L - 17)` probe steps and one final step, ends in DONE, and its stream is no longer than
`L + floor(L/16) + 67`. -/
def Obligations.EveryCompressionEndsWithinItsBounds : Prop :=
  ∀ (s t : State) (i : Instr) (op : OpKind), (i = .compress ∧ op = .compress ∨ i = .compressFramed ∧ op = .compressFramed) →
    s.Inv → s.regs.status.busy = false → s.turns = [] → exec i s = .next t → t.mode = .compressing op →
      ∃ k u n, k ≤ max 1 (s.regs.inLen.toNat - 17) + 1 ∧ (s.regs.inLen.toNat ≤ 13 → k = 1) ∧
        Sys2Proof.core.run k t = .next u ∧ u.mode = .idle ∧ u.regs.status.done = true ∧
        u.regs.outLen = reg32 (t.outBase + n) ∧
        n ≤ s.regs.inLen.toNat + s.regs.inLen.toNat / 16 + 67

/-- 41_encoder.md R164, 45_host_commands.md R281: COMPRESS and then DECOMPRESS of its output with the source's length
as the capacity gives the source back, for every setting of the two encoder parameters. -/
def Obligations.DecompressUndoesCompress : Prop :=
  ∀ (s s1 s2 r r1 : State) (k : Nat),
    s.Inv → s.regs.status.busy = false → s.turns = [] → exec .compress s = .next s1 →
    s1.mode = .compressing .compress → outBound s.regs.inLen.toNat < 2 ^ 32 →
    Sys2Proof.core.run k s1 = .next s2 → s2.mode = .idle →
    r.Inv → r.regs.status.busy = false → r.turns = [] → r.regs.inLen = s2.regs.outLen →
    r.regs.dstCap = s.regs.inLen → (∀ a, a < s2.regs.outLen.toNat → r.inByte a = s2.outByte a) →
    exec .decompress r = .next r1 → r1.mode = .decompressing .decompress →
      ∃ j r2, Sys2Proof.core.run j r1 = .next r2 ∧ r2.mode = .idle ∧ r2.regs.status.done = true ∧
        r2.regs.outLen = s.regs.inLen ∧ ∀ a, a < s.regs.inLen.toNat → r2.outByte a = s.inByte a

/-- 41_encoder.md R164, 45_host_commands.md R281: COMPRESS_FRAMED and then DECOMPRESS_FRAMED of the container gives the
source back, for every setting of the two encoder parameters. -/
def Obligations.DecompressFramedUndoesCompressFramed : Prop :=
  ∀ (s s1 s2 r r1 : State) (k : Nat),
    s.Inv → s.regs.status.busy = false → s.turns = [] → exec .compressFramed s = .next s1 →
    s1.mode = .compressing .compressFramed → 4 + outBound s.regs.inLen.toNat < 2 ^ 32 →
    Sys2Proof.core.run k s1 = .next s2 → s2.mode = .idle →
    r.Inv → r.regs.status.busy = false → r.turns = [] → r.regs.inLen = s2.regs.outLen →
    (∀ a, a < s2.regs.outLen.toNat → r.inByte a = s2.outByte a) →
    exec .decompressFramed r = .next r1 → r1.mode = .decompressing .decompressFramed →
      ∃ j r2, Sys2Proof.core.run j r1 = .next r2 ∧ r2.mode = .idle ∧ r2.regs.status.done = true ∧
        r2.regs.outLen = s.regs.inLen ∧ ∀ a, a < s.regs.inLen.toNat → r2.outByte a = s.inByte a
end

