-- ==== Sys2Proof/Laws/Decode.lean ====
section
/-! SUPPORT. Laws of the decoder and the encoder: how many bytes each header has. -/

namespace Sys2Proof

@[simp] theorem length_continuation (v : Nat) : (continuation v).length = zeroCount v + 1 := by
  simp [continuation, zeroCount]

@[simp] theorem length_distanceBytes (o s : Nat) : (distanceBytes o s).length = 2 := rfl

/-- A continuation has its zero bytes and its last byte, and its value is at least 1 (30_encoding.md R89). -/
theorem length_of_readExt (bytes : List Byte) (v : Nat) (rest : List Byte) (h : readExt bytes = some (v, rest)) :
    1 ≤ v ∧ bytes.length = zeroCount v + 1 + rest.length := by
  induction bytes generalizing v with
  | nil => simp [readExt] at h
  | cons b bs ih =>
    simp only [readExt] at h
    split at h
    · split at h
      · rename_i w after hw
        simp only [Option.some.injEq, Prod.mk.injEq] at h
        obtain ⟨rfl, rfl⟩ := h
        obtain ⟨h1, h2⟩ := ih w hw
        refine ⟨by omega, ?_⟩
        simp only [List.length_cons, h2, zeroCount]
        omega
      · cases h
    · rename_i hb
      simp only [Option.some.injEq, Prod.mk.injEq] at h
      obtain ⟨rfl, rfl⟩ := h
      have := b.isLt
      refine ⟨by omega, ?_⟩
      simp only [List.length_cons, zeroCount]
      omega

theorem length_of_decodeNear (form : Nat → Nat → Instr) (bytes : List Byte) (i : Instr) (rest : List Byte)
    (h : decodeNear form bytes = .ok i rest) :
    bytes.length = 2 + rest.length ∧ ∃ dist s, i = form dist s := by
  unfold decodeNear at h
  split at h
  · cases h; exact ⟨by simp; omega, _, _, rfl⟩
  · cases h

theorem length_of_decodeFar (hb : Nat) (form : Nat → Nat → Instr) (eos : Nat → Instr) (bytes : List Byte) (i : Instr)
    (rest : List Byte) (h : decodeFar hb form eos bytes = .ok i rest) :
    bytes.length = 2 + rest.length ∧ ((∃ dist s, i = form dist s) ∨ ∃ s, i = eos s) := by
  unfold decodeFar at h
  split at h
  · dsimp only at h
    split at h
    · cases h; exact ⟨by simp; omega, .inr ⟨_, rfl⟩⟩
    · cases h; exact ⟨by simp; omega, .inl ⟨_, _, rfl⟩⟩
  · cases h

theorem length_of_decodeMatch (t : Byte) (bytes : List Byte) (i : Instr) (rest : List Byte)
    (h : decodeMatch t bytes = .ok i rest) : bytes.length + 1 = i.headerLength + rest.length := by
  unfold decodeMatch at h
  split at h
  · split at h
    · cases h; simp [Instr.headerLength]; omega
    · cases h
  · split at h
    · split at h
      · split at h
        · rename_i ext after he
          obtain ⟨h1, dist, s, rfl⟩ := length_of_decodeNear _ _ _ _ h
          have := length_of_readExt _ _ _ he
          simp [Instr.headerLength]; omega
        · cases h
      · obtain ⟨h1, dist, s, rfl⟩ := length_of_decodeNear _ _ _ _ h
        simp [Instr.headerLength]; omega
    · split at h
      · split at h
        · rename_i ext after he
          have := length_of_readExt _ _ _ he
          obtain ⟨h1, ⟨dist, s, rfl⟩ | ⟨s, rfl⟩⟩ := length_of_decodeFar _ _ _ _ _ _ h
          · simp [Instr.headerLength]; omega
          · simp [Instr.headerLength]; omega
        · cases h
      · rename_i hl
        obtain ⟨h1, ⟨dist, s, rfl⟩ | ⟨s, rfl⟩⟩ := length_of_decodeFar _ _ _ _ _ _ h
        · simp [Instr.headerLength]; omega
        · simp only [Instr.headerLength, if_neg hl]; omega

/-- The decoder takes the header's bytes and no more (30_encoding.md R92). -/
theorem length_of_decode (c : DecodeTable) (bytes : List Byte) (i : Instr) (rest : List Byte)
    (h : decode c bytes = .ok i rest) : bytes.length = i.headerLength + rest.length := by
  cases c with
  | start =>
    simp only [decode, decodeStart] at h
    split at h
    · cases h
    · split at h
      · cases h; simp [Instr.headerLength]; omega
      · split at h
        · cases h; simp [Instr.headerLength]; omega
        · cases h
  | literalOrMatch =>
    simp only [decode, decodeLiteralOrMatch] at h
    split at h
    · cases h
    · split at h
      · split at h
        · rename_i ext after he
          cases h
          have := length_of_readExt _ _ _ he
          simp [Instr.headerLength]; omega
        · cases h
      · split at h
        · cases h; simp [Instr.headerLength]; omega
        · exact length_of_decodeMatch _ _ _ _ h
  | afterLiteral =>
    simp only [decode, decodeAfterLiteral] at h
    split at h
    · cases h
    · split at h
      · split at h
        · cases h; simp [Instr.headerLength]; omega
        · cases h
      · exact length_of_decodeMatch _ _ _ _ h
  | afterTrailing =>
    simp only [decode, decodeAfterTrailing] at h
    split at h
    · cases h
    · split at h
      · split at h
        · cases h; simp [Instr.headerLength]; omega
        · cases h
      · exact length_of_decodeMatch _ _ _ _ h
  | ctrl =>
    simp only [decode, decodeCtrl] at h
    split at h
    · split at h
      · cases h
      · split at h <;> cases h <;> simp [Instr.headerLength] <;> omega
    · cases h

end Sys2Proof
end

