-- ==== Sys2Proof/Laws/State.lean ====
section
/-! SUPPORT. One lemma per field per update of State, true by rfl, so that no later proof unfolds a record update, and
the derived reads that an update leaves alone. -/

namespace Sys2Proof.Machine

variable (s : State)

/-! `State.writeOut`. -/

@[simp] theorem State.writeOut_cfg (a : Nat) (bytes : List Byte) : (s.writeOut a bytes).cfg = s.cfg := rfl

@[simp] theorem State.writeOut_regs (a : Nat) (bytes : List Byte) : (s.writeOut a bytes).regs = s.regs := rfl

@[simp] theorem State.writeOut_mode (a : Nat) (bytes : List Byte) : (s.writeOut a bytes).mode = s.mode := rfl

@[simp] theorem State.writeOut_e (a : Nat) (bytes : List Byte) : (s.writeOut a bytes).e = s.e := rfl

@[simp] theorem State.writeOut_d (a : Nat) (bytes : List Byte) : (s.writeOut a bytes).d = s.d := rfl

@[simp] theorem State.writeOut_table (a : Nat) (bytes : List Byte) : (s.writeOut a bytes).table = s.table := rfl

@[simp] theorem State.writeOut_inMem (a : Nat) (bytes : List Byte) : (s.writeOut a bytes).inMem = s.inMem := rfl

@[simp] theorem State.writeOut_outMem (a : Nat) (bytes : List Byte) : (s.writeOut a bytes).outMem = Memory.writeBytes s.outMem a bytes := rfl

@[simp] theorem State.writeOut_inGen (a : Nat) (bytes : List Byte) : (s.writeOut a bytes).inGen = s.inGen := rfl

@[simp] theorem State.writeOut_outGen (a : Nat) (bytes : List Byte) : (s.writeOut a bytes).outGen = s.outGen := rfl

@[simp] theorem State.writeOut_turns (a : Nat) (bytes : List Byte) : (s.writeOut a bytes).turns = s.turns := rfl

@[simp] theorem State.writeOut_inByte (a : Nat) (bytes : List Byte) (q : Nat) : (s.writeOut a bytes).inByte q = s.inByte q := rfl

@[simp] theorem State.writeOut_inBase (a : Nat) (bytes : List Byte) : (s.writeOut a bytes).inBase = s.inBase := rfl

@[simp] theorem State.writeOut_outBase (a : Nat) (bytes : List Byte) : (s.writeOut a bytes).outBase = s.outBase := rfl

/-! `State.setIp`. -/

@[simp] theorem State.setIp_cfg (ip : Nat) : (s.setIp ip).cfg = s.cfg := rfl

@[simp] theorem State.setIp_regs (ip : Nat) : (s.setIp ip).regs = s.regs := rfl

@[simp] theorem State.setIp_mode (ip : Nat) : (s.setIp ip).mode = s.mode := rfl

@[simp] theorem State.setIp_e (ip : Nat) : (s.setIp ip).e = s.e := rfl

@[simp] theorem State.setIp_d (ip : Nat) : (s.setIp ip).d = { s.d with ip := ip } := rfl

@[simp] theorem State.setIp_table (ip : Nat) : (s.setIp ip).table = s.table := rfl

@[simp] theorem State.setIp_inMem (ip : Nat) : (s.setIp ip).inMem = s.inMem := rfl

@[simp] theorem State.setIp_outMem (ip : Nat) : (s.setIp ip).outMem = s.outMem := rfl

@[simp] theorem State.setIp_inGen (ip : Nat) : (s.setIp ip).inGen = s.inGen := rfl

@[simp] theorem State.setIp_outGen (ip : Nat) : (s.setIp ip).outGen = s.outGen := rfl

@[simp] theorem State.setIp_turns (ip : Nat) : (s.setIp ip).turns = s.turns := rfl

@[simp] theorem State.setIp_inByte (ip : Nat) (q : Nat) : (s.setIp ip).inByte q = s.inByte q := rfl

@[simp] theorem State.setIp_outByte (ip : Nat) (q : Nat) : (s.setIp ip).outByte q = s.outByte q := rfl

@[simp] theorem State.setIp_inBase (ip : Nat) : (s.setIp ip).inBase = s.inBase := rfl

@[simp] theorem State.setIp_outBase (ip : Nat) : (s.setIp ip).outBase = s.outBase := rfl

/-! `State.setOp`. -/

@[simp] theorem State.setOp_cfg (op : Nat) : (s.setOp op).cfg = s.cfg := rfl

@[simp] theorem State.setOp_regs (op : Nat) : (s.setOp op).regs = s.regs := rfl

@[simp] theorem State.setOp_mode (op : Nat) : (s.setOp op).mode = s.mode := rfl

@[simp] theorem State.setOp_e (op : Nat) : (s.setOp op).e = s.e := rfl

@[simp] theorem State.setOp_d (op : Nat) : (s.setOp op).d = { s.d with op := op } := rfl

@[simp] theorem State.setOp_table (op : Nat) : (s.setOp op).table = s.table := rfl

@[simp] theorem State.setOp_inMem (op : Nat) : (s.setOp op).inMem = s.inMem := rfl

@[simp] theorem State.setOp_outMem (op : Nat) : (s.setOp op).outMem = s.outMem := rfl

@[simp] theorem State.setOp_inGen (op : Nat) : (s.setOp op).inGen = s.inGen := rfl

@[simp] theorem State.setOp_outGen (op : Nat) : (s.setOp op).outGen = s.outGen := rfl

@[simp] theorem State.setOp_turns (op : Nat) : (s.setOp op).turns = s.turns := rfl

@[simp] theorem State.setOp_inByte (op : Nat) (q : Nat) : (s.setOp op).inByte q = s.inByte q := rfl

@[simp] theorem State.setOp_outByte (op : Nat) (q : Nat) : (s.setOp op).outByte q = s.outByte q := rfl

@[simp] theorem State.setOp_inBase (op : Nat) : (s.setOp op).inBase = s.inBase := rfl

@[simp] theorem State.setOp_outBase (op : Nat) : (s.setOp op).outBase = s.outBase := rfl

/-! `State.setDState`. -/

@[simp] theorem State.setDState_cfg (x : DState) : (s.setDState x).cfg = s.cfg := rfl

@[simp] theorem State.setDState_regs (x : DState) : (s.setDState x).regs = s.regs := rfl

@[simp] theorem State.setDState_mode (x : DState) : (s.setDState x).mode = s.mode := rfl

@[simp] theorem State.setDState_e (x : DState) : (s.setDState x).e = s.e := rfl

@[simp] theorem State.setDState_d (x : DState) : (s.setDState x).d = { s.d with state := x } := rfl

@[simp] theorem State.setDState_table (x : DState) : (s.setDState x).table = s.table := rfl

@[simp] theorem State.setDState_inMem (x : DState) : (s.setDState x).inMem = s.inMem := rfl

@[simp] theorem State.setDState_outMem (x : DState) : (s.setDState x).outMem = s.outMem := rfl

@[simp] theorem State.setDState_inGen (x : DState) : (s.setDState x).inGen = s.inGen := rfl

@[simp] theorem State.setDState_outGen (x : DState) : (s.setDState x).outGen = s.outGen := rfl

@[simp] theorem State.setDState_turns (x : DState) : (s.setDState x).turns = s.turns := rfl

@[simp] theorem State.setDState_inByte (x : DState) (q : Nat) : (s.setDState x).inByte q = s.inByte q := rfl

@[simp] theorem State.setDState_outByte (x : DState) (q : Nat) : (s.setDState x).outByte q = s.outByte q := rfl

@[simp] theorem State.setDState_inBase (x : DState) : (s.setDState x).inBase = s.inBase := rfl

@[simp] theorem State.setDState_outBase (x : DState) : (s.setDState x).outBase = s.outBase := rfl

/-! `State.setT`. -/

@[simp] theorem State.setT_cfg (t : Byte) : (s.setT t).cfg = s.cfg := rfl

@[simp] theorem State.setT_regs (t : Byte) : (s.setT t).regs = s.regs := rfl

@[simp] theorem State.setT_mode (t : Byte) : (s.setT t).mode = s.mode := rfl

@[simp] theorem State.setT_e (t : Byte) : (s.setT t).e = s.e := rfl

@[simp] theorem State.setT_d (t : Byte) : (s.setT t).d = { s.d with t := t } := rfl

@[simp] theorem State.setT_table (t : Byte) : (s.setT t).table = s.table := rfl

@[simp] theorem State.setT_inMem (t : Byte) : (s.setT t).inMem = s.inMem := rfl

@[simp] theorem State.setT_outMem (t : Byte) : (s.setT t).outMem = s.outMem := rfl

@[simp] theorem State.setT_inGen (t : Byte) : (s.setT t).inGen = s.inGen := rfl

@[simp] theorem State.setT_outGen (t : Byte) : (s.setT t).outGen = s.outGen := rfl

@[simp] theorem State.setT_turns (t : Byte) : (s.setT t).turns = s.turns := rfl

@[simp] theorem State.setT_inByte (t : Byte) (q : Nat) : (s.setT t).inByte q = s.inByte q := rfl

@[simp] theorem State.setT_outByte (t : Byte) (q : Nat) : (s.setT t).outByte q = s.outByte q := rfl

@[simp] theorem State.setT_inBase (t : Byte) : (s.setT t).inBase = s.inBase := rfl

@[simp] theorem State.setT_outBase (t : Byte) : (s.setT t).outBase = s.outBase := rfl

/-! `State.setTurns`. -/

@[simp] theorem State.setTurns_cfg (turns : List Turn) : (s.setTurns turns).cfg = s.cfg := rfl

@[simp] theorem State.setTurns_regs (turns : List Turn) : (s.setTurns turns).regs = s.regs := rfl

@[simp] theorem State.setTurns_mode (turns : List Turn) : (s.setTurns turns).mode = s.mode := rfl

@[simp] theorem State.setTurns_e (turns : List Turn) : (s.setTurns turns).e = s.e := rfl

@[simp] theorem State.setTurns_d (turns : List Turn) : (s.setTurns turns).d = s.d := rfl

@[simp] theorem State.setTurns_table (turns : List Turn) : (s.setTurns turns).table = s.table := rfl

@[simp] theorem State.setTurns_inMem (turns : List Turn) : (s.setTurns turns).inMem = s.inMem := rfl

@[simp] theorem State.setTurns_outMem (turns : List Turn) : (s.setTurns turns).outMem = s.outMem := rfl

@[simp] theorem State.setTurns_inGen (turns : List Turn) : (s.setTurns turns).inGen = s.inGen := rfl

@[simp] theorem State.setTurns_outGen (turns : List Turn) : (s.setTurns turns).outGen = s.outGen := rfl

@[simp] theorem State.setTurns_turns (turns : List Turn) : (s.setTurns turns).turns = turns := rfl

@[simp] theorem State.setTurns_inByte (turns : List Turn) (q : Nat) : (s.setTurns turns).inByte q = s.inByte q := rfl

@[simp] theorem State.setTurns_outByte (turns : List Turn) (q : Nat) : (s.setTurns turns).outByte q = s.outByte q := rfl

@[simp] theorem State.setTurns_inBase (turns : List Turn) : (s.setTurns turns).inBase = s.inBase := rfl

@[simp] theorem State.setTurns_outBase (turns : List Turn) : (s.setTurns turns).outBase = s.outBase := rfl

/-! `State.forgetOut`. -/

@[simp] theorem State.forgetOut_cfg : (s.forgetOut).cfg = s.cfg := rfl

@[simp] theorem State.forgetOut_regs : (s.forgetOut).regs = s.regs := rfl

@[simp] theorem State.forgetOut_mode : (s.forgetOut).mode = s.mode := rfl

@[simp] theorem State.forgetOut_e : (s.forgetOut).e = s.e := rfl

@[simp] theorem State.forgetOut_d : (s.forgetOut).d = s.d := rfl

@[simp] theorem State.forgetOut_table : (s.forgetOut).table = s.table := rfl

@[simp] theorem State.forgetOut_inMem : (s.forgetOut).inMem = s.inMem := rfl

@[simp] theorem State.forgetOut_outMem : (s.forgetOut).outMem = [] := rfl

@[simp] theorem State.forgetOut_inGen : (s.forgetOut).inGen = s.inGen := rfl

@[simp] theorem State.forgetOut_outGen : (s.forgetOut).outGen = s.outGen + 1 := rfl

@[simp] theorem State.forgetOut_turns : (s.forgetOut).turns = s.turns := rfl

@[simp] theorem State.forgetOut_inByte (q : Nat) : (s.forgetOut).inByte q = s.inByte q := rfl

@[simp] theorem State.forgetOut_inBase : (s.forgetOut).inBase = s.inBase := rfl

@[simp] theorem State.forgetOut_outBase : (s.forgetOut).outBase = s.outBase := rfl

/-! `State.keepOut`. -/

@[simp] theorem State.keepOut_cfg (n : Nat) : (s.keepOut n).cfg = s.cfg := rfl

@[simp] theorem State.keepOut_regs (n : Nat) : (s.keepOut n).regs = s.regs := rfl

@[simp] theorem State.keepOut_mode (n : Nat) : (s.keepOut n).mode = s.mode := rfl

@[simp] theorem State.keepOut_e (n : Nat) : (s.keepOut n).e = s.e := rfl

@[simp] theorem State.keepOut_d (n : Nat) : (s.keepOut n).d = s.d := rfl

@[simp] theorem State.keepOut_table (n : Nat) : (s.keepOut n).table = s.table := rfl

@[simp] theorem State.keepOut_inMem (n : Nat) : (s.keepOut n).inMem = s.inMem := rfl

@[simp] theorem State.keepOut_outMem (n : Nat) : (s.keepOut n).outMem = Memory.ofBytes 0 (s.readOut 0 n) := rfl

@[simp] theorem State.keepOut_inGen (n : Nat) : (s.keepOut n).inGen = s.inGen := rfl

@[simp] theorem State.keepOut_outGen (n : Nat) : (s.keepOut n).outGen = s.outGen + 1 := rfl

@[simp] theorem State.keepOut_turns (n : Nat) : (s.keepOut n).turns = s.turns := rfl

@[simp] theorem State.keepOut_inByte (n : Nat) (q : Nat) : (s.keepOut n).inByte q = s.inByte q := rfl

@[simp] theorem State.keepOut_inBase (n : Nat) : (s.keepOut n).inBase = s.inBase := rfl

@[simp] theorem State.keepOut_outBase (n : Nat) : (s.keepOut n).outBase = s.outBase := rfl

/-! `State.stop`. -/

@[simp] theorem State.stop_cfg (status : Status) (outLen inPos outPos : Word) : (s.stop status outLen inPos outPos).cfg = s.cfg := rfl

@[simp] theorem State.stop_regs (status : Status) (outLen inPos outPos : Word) : (s.stop status outLen inPos outPos).regs = { s.regs with status := status, outLen := outLen, inPos := inPos, outPos := outPos } := rfl

@[simp] theorem State.stop_mode (status : Status) (outLen inPos outPos : Word) : (s.stop status outLen inPos outPos).mode = .idle := rfl

@[simp] theorem State.stop_e (status : Status) (outLen inPos outPos : Word) : (s.stop status outLen inPos outPos).e = s.e := rfl

@[simp] theorem State.stop_d (status : Status) (outLen inPos outPos : Word) : (s.stop status outLen inPos outPos).d = s.d := rfl

@[simp] theorem State.stop_table (status : Status) (outLen inPos outPos : Word) : (s.stop status outLen inPos outPos).table = s.table := rfl

@[simp] theorem State.stop_inMem (status : Status) (outLen inPos outPos : Word) : (s.stop status outLen inPos outPos).inMem = s.inMem := rfl

@[simp] theorem State.stop_outMem (status : Status) (outLen inPos outPos : Word) : (s.stop status outLen inPos outPos).outMem = s.outMem := rfl

@[simp] theorem State.stop_inGen (status : Status) (outLen inPos outPos : Word) : (s.stop status outLen inPos outPos).inGen = s.inGen := rfl

@[simp] theorem State.stop_outGen (status : Status) (outLen inPos outPos : Word) : (s.stop status outLen inPos outPos).outGen = s.outGen := rfl

@[simp] theorem State.stop_turns (status : Status) (outLen inPos outPos : Word) : (s.stop status outLen inPos outPos).turns = s.turns := rfl

@[simp] theorem State.stop_inByte (status : Status) (outLen inPos outPos : Word) (q : Nat) : (s.stop status outLen inPos outPos).inByte q = s.inByte q := rfl

@[simp] theorem State.stop_outByte (status : Status) (outLen inPos outPos : Word) (q : Nat) : (s.stop status outLen inPos outPos).outByte q = s.outByte q := rfl

/-! `State.emit`. -/

@[simp] theorem State.emit_cfg (bytes : List Byte) : (s.emit bytes).cfg = s.cfg := rfl

@[simp] theorem State.emit_regs (bytes : List Byte) : (s.emit bytes).regs = s.regs := rfl

@[simp] theorem State.emit_mode (bytes : List Byte) : (s.emit bytes).mode = s.mode := rfl

@[simp] theorem State.emit_e (bytes : List Byte) : (s.emit bytes).e = { s.e with op := s.e.op + bytes.length } := rfl

@[simp] theorem State.emit_d (bytes : List Byte) : (s.emit bytes).d = s.d := rfl

@[simp] theorem State.emit_table (bytes : List Byte) : (s.emit bytes).table = s.table := rfl

@[simp] theorem State.emit_inMem (bytes : List Byte) : (s.emit bytes).inMem = s.inMem := rfl

@[simp] theorem State.emit_outMem (bytes : List Byte) : (s.emit bytes).outMem = Memory.writeBytes s.outMem (s.outBase + s.e.op) bytes := rfl

@[simp] theorem State.emit_inGen (bytes : List Byte) : (s.emit bytes).inGen = s.inGen := rfl

@[simp] theorem State.emit_outGen (bytes : List Byte) : (s.emit bytes).outGen = s.outGen := rfl

@[simp] theorem State.emit_turns (bytes : List Byte) : (s.emit bytes).turns = s.turns := rfl

@[simp] theorem State.emit_inByte (bytes : List Byte) (q : Nat) : (s.emit bytes).inByte q = s.inByte q := rfl

@[simp] theorem State.emit_inBase (bytes : List Byte) : (s.emit bytes).inBase = s.inBase := rfl

@[simp] theorem State.emit_outBase (bytes : List Byte) : (s.emit bytes).outBase = s.outBase := rfl

/-! `State.storePosition`. -/

@[simp] theorem State.storePosition_cfg (slot : Nat) : (s.storePosition slot).cfg = s.cfg := rfl

@[simp] theorem State.storePosition_regs (slot : Nat) : (s.storePosition slot).regs = s.regs := rfl

@[simp] theorem State.storePosition_mode (slot : Nat) : (s.storePosition slot).mode = s.mode := rfl

@[simp] theorem State.storePosition_e (slot : Nat) : (s.storePosition slot).e = s.e := rfl

@[simp] theorem State.storePosition_d (slot : Nat) : (s.storePosition slot).d = s.d := rfl

@[simp] theorem State.storePosition_table (slot : Nat) : (s.storePosition slot).table = Sparse.set s.table slot (s.slotPosition s.e.ip) := rfl

@[simp] theorem State.storePosition_inMem (slot : Nat) : (s.storePosition slot).inMem = s.inMem := rfl

@[simp] theorem State.storePosition_outMem (slot : Nat) : (s.storePosition slot).outMem = s.outMem := rfl

@[simp] theorem State.storePosition_inGen (slot : Nat) : (s.storePosition slot).inGen = s.inGen := rfl

@[simp] theorem State.storePosition_outGen (slot : Nat) : (s.storePosition slot).outGen = s.outGen := rfl

@[simp] theorem State.storePosition_turns (slot : Nat) : (s.storePosition slot).turns = s.turns := rfl

@[simp] theorem State.storePosition_inByte (slot : Nat) (q : Nat) : (s.storePosition slot).inByte q = s.inByte q := rfl

@[simp] theorem State.storePosition_outByte (slot : Nat) (q : Nat) : (s.storePosition slot).outByte q = s.outByte q := rfl

@[simp] theorem State.storePosition_inBase (slot : Nat) : (s.storePosition slot).inBase = s.inBase := rfl

@[simp] theorem State.storePosition_outBase (slot : Nat) : (s.storePosition slot).outBase = s.outBase := rfl

/-! `State.clearResults`. -/

@[simp] theorem State.clearResults_cfg : (s.clearResults).cfg = s.cfg := rfl

@[simp] theorem State.clearResults_regs : (s.clearResults).regs = { s.regs with outLen := 0, inPos := 0, outPos := 0 } := rfl

@[simp] theorem State.clearResults_mode : (s.clearResults).mode = s.mode := rfl

@[simp] theorem State.clearResults_e : (s.clearResults).e = s.e := rfl

@[simp] theorem State.clearResults_d : (s.clearResults).d = s.d := rfl

@[simp] theorem State.clearResults_table : (s.clearResults).table = s.table := rfl

@[simp] theorem State.clearResults_inMem : (s.clearResults).inMem = s.inMem := rfl

@[simp] theorem State.clearResults_outMem : (s.clearResults).outMem = s.outMem := rfl

@[simp] theorem State.clearResults_inGen : (s.clearResults).inGen = s.inGen := rfl

@[simp] theorem State.clearResults_outGen : (s.clearResults).outGen = s.outGen := rfl

@[simp] theorem State.clearResults_turns : (s.clearResults).turns = s.turns := rfl

@[simp] theorem State.clearResults_inByte (q : Nat) : (s.clearResults).inByte q = s.inByte q := rfl

@[simp] theorem State.clearResults_outByte (q : Nat) : (s.clearResults).outByte q = s.outByte q := rfl

@[simp] theorem State.clearResults_inBase : (s.clearResults).inBase = s.inBase := rfl

@[simp] theorem State.clearResults_outBase : (s.clearResults).outBase = s.outBase := rfl

/-! `State.begin`. -/

@[simp] theorem State.begin_cfg (mode : Mode) : (s.begin mode).cfg = s.cfg := rfl

@[simp] theorem State.begin_regs (mode : Mode) : (s.begin mode).regs = { s.regs with status := Status.running } := rfl

@[simp] theorem State.begin_mode (mode : Mode) : (s.begin mode).mode = mode := rfl

@[simp] theorem State.begin_e (mode : Mode) : (s.begin mode).e = s.e := rfl

@[simp] theorem State.begin_d (mode : Mode) : (s.begin mode).d = s.d := rfl

@[simp] theorem State.begin_table (mode : Mode) : (s.begin mode).table = s.table := rfl

@[simp] theorem State.begin_inMem (mode : Mode) : (s.begin mode).inMem = s.inMem := rfl

@[simp] theorem State.begin_outMem (mode : Mode) : (s.begin mode).outMem = s.outMem := rfl

@[simp] theorem State.begin_inGen (mode : Mode) : (s.begin mode).inGen = s.inGen := rfl

@[simp] theorem State.begin_outGen (mode : Mode) : (s.begin mode).outGen = s.outGen := rfl

@[simp] theorem State.begin_turns (mode : Mode) : (s.begin mode).turns = s.turns := rfl

@[simp] theorem State.begin_inByte (mode : Mode) (q : Nat) : (s.begin mode).inByte q = s.inByte q := rfl

@[simp] theorem State.begin_outByte (mode : Mode) (q : Nat) : (s.begin mode).outByte q = s.outByte q := rfl

/-! `State.startDecode`. -/

@[simp] theorem State.startDecode_cfg (N C : Nat) : (s.startDecode N C).cfg = s.cfg := rfl

@[simp] theorem State.startDecode_regs (N C : Nat) : (s.startDecode N C).regs = s.regs := rfl

@[simp] theorem State.startDecode_mode (N C : Nat) : (s.startDecode N C).mode = s.mode := rfl

@[simp] theorem State.startDecode_e (N C : Nat) : (s.startDecode N C).e = s.e := rfl

@[simp] theorem State.startDecode_d (N C : Nat) : (s.startDecode N C).d = { N := N, C := C, ip := 0, op := 0, state := .start, t := Config.freeOpcode s.outGen } := rfl

@[simp] theorem State.startDecode_table (N C : Nat) : (s.startDecode N C).table = s.table := rfl

@[simp] theorem State.startDecode_inMem (N C : Nat) : (s.startDecode N C).inMem = s.inMem := rfl

@[simp] theorem State.startDecode_outMem (N C : Nat) : (s.startDecode N C).outMem = s.outMem := rfl

@[simp] theorem State.startDecode_inGen (N C : Nat) : (s.startDecode N C).inGen = s.inGen := rfl

@[simp] theorem State.startDecode_outGen (N C : Nat) : (s.startDecode N C).outGen = s.outGen := rfl

@[simp] theorem State.startDecode_turns (N C : Nat) : (s.startDecode N C).turns = s.turns := rfl

@[simp] theorem State.startDecode_inByte (N C : Nat) (q : Nat) : (s.startDecode N C).inByte q = s.inByte q := rfl

@[simp] theorem State.startDecode_outByte (N C : Nat) (q : Nat) : (s.startDecode N C).outByte q = s.outByte q := rfl

@[simp] theorem State.startDecode_inBase (N C : Nat) : (s.startDecode N C).inBase = s.inBase := rfl

@[simp] theorem State.startDecode_outBase (N C : Nat) : (s.startDecode N C).outBase = s.outBase := rfl

end Sys2Proof.Machine
end

