-- ==== Sys2Proof/Laws/Memory.lean ====
section
/-! SUPPORT. Laws of sparse data and of memories: read after write, nothing else changes, and every operation keeps
the canonical form. The read laws hold of every list, canonical or not. -/

namespace Sys2Proof.Machine

variable {α : Type}

@[simp] theorem Sparse.get?_nil (k : Nat) : Sparse.get? ([] : List (Nat × α)) k = none := rfl

theorem Sparse.get?_cons (a : Nat) (v : α) (m : List (Nat × α)) (k : Nat) :
    Sparse.get? ((a, v) :: m) k = if a = k then some v else Sparse.get? m k := rfl

/-- A read after a write to the same key gives the value written. -/
@[simp] theorem Sparse.get?_set_same (m : List (Nat × α)) (k : Nat) (v : α) :
    Sparse.get? (Sparse.set m k v) k = some v := by
  induction m with
  | nil => simp [Sparse.set, Sparse.get?]
  | cons x m ih =>
    obtain ⟨a, w⟩ := x
    simp only [Sparse.set]
    split
    · simp [Sparse.get?]
    · split
      · simp [Sparse.get?]
      · rename_i h
        simp [Sparse.get?, Ne.symm h, ih]

/-- A write leaves every other key alone. -/
theorem Sparse.get?_set_other (m : List (Nat × α)) (k k' : Nat) (v : α) (h : k' ≠ k) :
    Sparse.get? (Sparse.set m k v) k' = Sparse.get? m k' := by
  induction m with
  | nil => simp [Sparse.set, Sparse.get?, Ne.symm h]
  | cons x m ih =>
    obtain ⟨a, w⟩ := x
    simp only [Sparse.set]
    split
    · simp [Sparse.get?, Ne.symm h]
    · split
      · rename_i h1 h2
        subst h2
        simp [Sparse.get?, Ne.symm h]
      · simp [Sparse.get?, ih]

/-- The entries after a write are the new one and old ones. -/
theorem Sparse.mem_set (m : List (Nat × α)) (k : Nat) (v : α) (x : Nat × α) (h : x ∈ Sparse.set m k v) :
    x = (k, v) ∨ x ∈ m := by
  induction m with
  | nil => simp [Sparse.set] at h; exact .inl h
  | cons y m ih =>
    obtain ⟨a, w⟩ := y
    simp only [Sparse.set] at h
    split at h
    · rcases List.mem_cons.mp h with h | h
      · exact .inl h
      · exact .inr h
    · split at h
      · rcases List.mem_cons.mp h with h | h
        · exact .inl h
        · exact .inr (List.mem_cons_of_mem _ h)
      · rcases List.mem_cons.mp h with h | h
        · exact .inr (h ▸ List.mem_cons_self)
        · rcases ih h with h | h
          · exact .inl h
          · exact .inr (List.mem_cons_of_mem _ h)

/-- A listed value is an entry. -/
theorem Sparse.mem_of_get? (m : List (Nat × α)) (k : Nat) (v : α) (h : Sparse.get? m k = some v) : (k, v) ∈ m := by
  induction m with
  | nil => simp at h
  | cons y m ih =>
    obtain ⟨a, w⟩ := y
    rw [Sparse.get?_cons] at h
    split at h
    · rename_i e; subst e; simp only [Option.some.injEq] at h; subst h; exact List.mem_cons_self
    · exact List.mem_cons_of_mem _ (ih h)

/-- A write keeps the canonical form. -/
theorem Sparse.wf_set (m : List (Nat × α)) (k : Nat) (v : α) (h : Sparse.wf m) : Sparse.wf (Sparse.set m k v) := by
  induction m with
  | nil => simp [Sparse.set, Sparse.wf]
  | cons y m ih =>
    obtain ⟨a, w⟩ := y
    simp only [Sparse.wf, List.map_cons, List.pairwise_cons] at h
    simp only [Sparse.set]
    split
    · rename_i hk
      simp only [Sparse.wf, List.map_cons, List.pairwise_cons]
      refine ⟨?_, h.1, h.2⟩
      intro b hb
      rcases List.mem_cons.mp hb with rfl | hb
      · exact hk
      · exact Nat.lt_trans hk (h.1 b hb)
    · split
      · rename_i _ e
        subst e
        exact List.pairwise_cons.mpr ⟨h.1, h.2⟩
      · rename_i h1 h2
        simp only [Sparse.wf, List.map_cons, List.pairwise_cons]
        refine ⟨?_, ih h.2⟩
        intro b hb
        obtain ⟨x, hx, rfl⟩ := List.mem_map.mp hb
        rcases Sparse.mem_set m k v x hx with rfl | hx
        · show a < k; omega
        · exact h.1 _ (List.mem_map_of_mem hx)

theorem Sparse.get?_append (m m' : List (Nat × α)) (k : Nat) :
    Sparse.get? (m ++ m') k = (Sparse.get? m k).or (Sparse.get? m' k) := by
  induction m with
  | nil => simp
  | cons y m ih =>
    obtain ⟨a, w⟩ := y
    simp only [List.cons_append, Sparse.get?_cons]
    split <;> simp [ih]

/-- Filtering by key keeps the values of the keys it keeps and drops the others. -/
theorem Sparse.get?_filter (m : List (Nat × α)) (p : Nat → Bool) (k : Nat) :
    Sparse.get? (m.filter fun x => p x.1) k = if p k then Sparse.get? m k else none := by
  induction m with
  | nil => simp
  | cons y m ih =>
    obtain ⟨a, w⟩ := y
    by_cases ha : p a
    · rw [List.filter_cons_of_pos (by simpa using ha), Sparse.get?_cons, Sparse.get?_cons, ih]
      by_cases e : a = k
      · subst e; simp [ha]
      · simp [e]
    · rw [List.filter_cons_of_neg (by simpa using ha), ih, Sparse.get?_cons]
      by_cases e : a = k
      · subst e; simp [ha]
      · simp [e]

@[simp] theorem Memory.length_ofBytes (a : Nat) (bytes : List Byte) :
    (Memory.ofBytes a bytes).length = bytes.length := by
  induction bytes generalizing a with
  | nil => rfl
  | cons b rest ih => simp [Memory.ofBytes, ih]

/-- The bytes of a memory made of bytes. -/
theorem Memory.get?_ofBytes (a : Nat) (bytes : List Byte) (k : Nat) :
    Sparse.get? (Memory.ofBytes a bytes) k = if a ≤ k then bytes[k - a]? else none := by
  induction bytes generalizing a with
  | nil => simp [Memory.ofBytes]
  | cons b rest ih =>
    simp only [Memory.ofBytes, Sparse.get?_cons, ih]
    by_cases e : a = k
    · subst e; simp
    · by_cases h : a ≤ k
      · have h1 : a + 1 ≤ k := by omega
        have h2 : k - a = (k - (a + 1)) + 1 := by omega
        simp [e, h, h1, h2]
      · have h1 : ¬ a + 1 ≤ k := by omega
        simp [e, h, h1]

/-- The entries of a memory made of bytes lie in its range. -/
theorem Memory.mem_ofBytes (a : Nat) (bytes : List Byte) (x : Host.Cell) (h : x ∈ Memory.ofBytes a bytes) :
    a ≤ x.1 ∧ x.1 < a + bytes.length := by
  induction bytes generalizing a with
  | nil => simp [Memory.ofBytes] at h
  | cons b rest ih =>
    rcases List.mem_cons.mp h with rfl | h
    · simp
    · have := ih (a + 1) h
      simp only [List.length_cons]
      omega

theorem Memory.wf_ofBytes (a : Nat) (bytes : List Byte) : Memory.wf (Memory.ofBytes a bytes) := by
  induction bytes generalizing a with
  | nil => simp [Memory.ofBytes, Memory.wf, Sparse.wf]
  | cons b rest ih =>
    simp only [Memory.wf, Sparse.wf, Memory.ofBytes, List.map_cons, List.pairwise_cons]
    refine ⟨?_, ih (a + 1)⟩
    intro k hk
    obtain ⟨x, hx, rfl⟩ := List.mem_map.mp hk
    have := Memory.mem_ofBytes _ _ _ hx
    omega

/-- What a memory reads after consecutive bytes were written. -/
theorem Memory.get?_writeBytes (m : Memory) (a : Nat) (bytes : List Byte) (k : Nat) :
    Sparse.get? (Memory.writeBytes m a bytes) k =
      if a ≤ k ∧ k < a + bytes.length then bytes[k - a]? else Sparse.get? m k := by
  unfold Memory.writeBytes
  rw [Sparse.get?_append, Sparse.get?_append, Memory.get?_ofBytes,
    Sparse.get?_filter m (fun x => decide (x < a)), Sparse.get?_filter m (fun x => decide (a + bytes.length ≤ x))]
  by_cases h1 : k < a
  · have h2 : ¬ a ≤ k := by omega
    have h3 : ¬ a + bytes.length ≤ k := by omega
    simp [h1, h2, h3]
  · have h2 : a ≤ k := by omega
    by_cases h3 : k < a + bytes.length
    · have h4 : ¬ a + bytes.length ≤ k := by omega
      simp [h1, h2, h3, h4]
    · have h4 : a + bytes.length ≤ k := by omega
      have h5 : bytes[k - a]? = none := List.getElem?_eq_none (by omega)
      simp [h1, h2, h3, h4, h5]

/-- The entries after consecutive bytes were written lie in the range written or were there. -/
theorem Memory.mem_writeBytes (m : Memory) (a : Nat) (bytes : List Byte) (x : Host.Cell)
    (h : x ∈ Memory.writeBytes m a bytes) : (a ≤ x.1 ∧ x.1 < a + bytes.length) ∨ x ∈ m := by
  simp only [Memory.writeBytes, List.mem_append, List.mem_filter] at h
  rcases h with (h | h) | h
  · exact .inr h.1
  · exact .inl (Memory.mem_ofBytes _ _ _ h)
  · exact .inr h.1

/-- Writing consecutive bytes keeps the canonical form. -/
theorem Memory.wf_writeBytes (m : Memory) (a : Nat) (bytes : List Byte) (h : Memory.wf m) :
    Memory.wf (Memory.writeBytes m a bytes) := by
  have hsub (p : Host.Cell → Bool) : Memory.wf (m.filter p) :=
    List.Pairwise.sublist (List.Sublist.map _ List.filter_sublist) h
  simp only [Memory.wf, Sparse.wf, Memory.writeBytes, List.map_append, List.pairwise_append]
  refine ⟨⟨hsub _, Memory.wf_ofBytes a bytes, ?_⟩, hsub _, ?_⟩
  · intro x hx y hy
    obtain ⟨c, hc, rfl⟩ := List.mem_map.mp hx
    obtain ⟨c', hc', rfl⟩ := List.mem_map.mp hy
    have h1 := (List.mem_filter.mp hc).2
    have h2 := Memory.mem_ofBytes _ _ _ hc'
    simp only [decide_eq_true_eq] at h1
    omega
  · intro x hx y hy
    obtain ⟨c', hc', rfl⟩ := List.mem_map.mp hy
    have h2 := (List.mem_filter.mp hc').2
    simp only [decide_eq_true_eq] at h2
    rcases List.mem_append.mp hx with hx | hx
    · obtain ⟨c, hc, rfl⟩ := List.mem_map.mp hx
      have h1 := (List.mem_filter.mp hc).2
      simp only [decide_eq_true_eq] at h1
      omega
    · obtain ⟨c, hc, rfl⟩ := List.mem_map.mp hx
      have h1 := Memory.mem_ofBytes _ _ _ hc
      omega

/-- The memories right after reset are in canonical form. -/
theorem State.reset_memories_wf : Memory.wf State.reset.inMem ∧ Memory.wf State.reset.outMem := ⟨.nil, .nil⟩

/-- The result of an operation is in canonical form. -/
theorem State.keepOut_wf (s : State) (n : Nat) : Memory.wf (s.keepOut n).outMem := Memory.wf_ofBytes 0 _

theorem State.forgetOut_wf (s : State) : Memory.wf s.forgetOut.outMem := .nil

/-! Byte reads of a state. -/

@[simp] theorem State.length_readIn (s : State) (a n : Nat) : (s.readIn a n).length = n := by
  induction n generalizing a with
  | zero => rfl
  | succ n ih => simp [State.readIn, ih]

@[simp] theorem State.length_readOut (s : State) (a n : Nat) : (s.readOut a n).length = n := by
  induction n generalizing a with
  | zero => rfl
  | succ n ih => simp [State.readOut, ih]

theorem State.getElem?_readIn (s : State) (a n k : Nat) (h : k < n) :
    (s.readIn a n)[k]? = some (s.inByte (a + k)) := by
  induction n generalizing a k with
  | zero => omega
  | succ n ih =>
    cases k with
    | zero => simp [State.readIn]
    | succ k =>
      rw [State.readIn, List.getElem?_cons_succ, ih (a + 1) k (by omega)]
      congr 2; omega

theorem State.getElem?_readOut (s : State) (a n k : Nat) (h : k < n) :
    (s.readOut a n)[k]? = some (s.outByte (a + k)) := by
  induction n generalizing a k with
  | zero => omega
  | succ n ih =>
    cases k with
    | zero => simp [State.readOut]
    | succ k =>
      rw [State.readOut, List.getElem?_cons_succ, ih (a + 1) k (by omega)]
      congr 2; omega

/-- Two states that agree on bytes of IN read the same block of it. -/
theorem State.readIn_congr (s t : State) (a n : Nat) (h : ∀ k, k < n → t.inByte (a + k) = s.inByte (a + k)) :
    t.readIn a n = s.readIn a n := by
  induction n generalizing a with
  | zero => rfl
  | succ n ih =>
    rw [State.readIn, State.readIn, ih (a + 1), show t.inByte a = s.inByte a from h 0 (by omega)]
    intro k hk
    have := h (k + 1) (by omega)
    rwa [show a + (k + 1) = a + 1 + k by omega] at this

/-- What OUT reads after bytes were written to it. -/
theorem State.outByte_writeOut (s : State) (a : Nat) (bytes : List Byte) (x : Nat) :
    (s.writeOut a bytes).outByte x =
      if a ≤ x ∧ x < a + bytes.length then (bytes[x - a]?).getD 0 else s.outByte x := by
  simp only [State.outByte, State.writeOut_outMem, State.writeOut_outGen, Memory.get?_writeBytes]
  split
  · rename_i h
    have : x - a < bytes.length := by omega
    simp [List.getElem?_eq_getElem this]
  · rfl

/-- A byte that was written reads as written. -/
theorem State.outByte_writeOut_in (s : State) (a : Nat) (bytes : List Byte) (k : Nat) (b : Byte)
    (h : bytes[k]? = some b) : (s.writeOut a bytes).outByte (a + k) = b := by
  have hk : k < bytes.length := (List.getElem?_eq_some_iff.mp h).1
  rw [State.outByte_writeOut, if_pos (by omega)]
  simp [h]

/-- A byte outside the written range reads as before. -/
theorem State.outByte_writeOut_out (s : State) (a : Nat) (bytes : List Byte) (x : Nat)
    (h : x < a ∨ a + bytes.length ≤ x) : (s.writeOut a bytes).outByte x = s.outByte x := by
  rw [State.outByte_writeOut, if_neg (by omega)]

/-- The bytes of a result stay as they were. -/
theorem State.outByte_keepOut (s : State) (n x : Nat) (h : x < n) : (s.keepOut n).outByte x = s.outByte x := by
  have : (s.readOut 0 n)[x]? = some (s.outByte (0 + x)) := State.getElem?_readOut s 0 n x h
  simp only [State.outByte, State.keepOut_outMem, Memory.get?_ofBytes, Nat.zero_le, if_true, Nat.sub_zero, this]
  simp

end Sys2Proof.Machine
end

