-- ==== Sys2Proof/Laws/Encoder.lean ====
section
/-! SUPPORT. What the encoder's emissions change and how many bytes they write. -/

namespace Sys2Proof.Machine

variable (s : State)

/-- A position within the width of a slot is stored whole (00_scope.md R8, 10_state.md R38). -/
theorem State.slotPosition_of_lt {p : Nat} (h : p < 2 ^ s.cfg.posBits) : s.slotPosition p = p := Nat.mod_eq_of_lt h

/-- What a slot holds has its width and is no later position. -/
theorem State.slotPosition_range (p : Nat) : s.slotPosition p < 2 ^ s.cfg.posBits ∧ s.slotPosition p ≤ p :=
  ⟨Nat.mod_lt p (Nat.two_pow_pos s.cfg.posBits), Nat.mod_le p _⟩

/-- An emission changes OUT and the output cursor only. -/
theorem State.emit_frame (bytes : List Byte) :
    s.emit bytes = { s with outMem := (s.emit bytes).outMem, e := { s.e with op := s.e.op + bytes.length } } := rfl

/-- The bytes of OUT after an emission. -/
theorem State.outByte_emit (bytes : List Byte) (x : Nat) :
    (s.emit bytes).outByte x =
      if s.outBase + s.e.op ≤ x ∧ x < s.outBase + s.e.op + bytes.length then
        (bytes[x - (s.outBase + s.e.op)]?).getD 0
      else s.outByte x :=
  State.outByte_writeOut s (s.outBase + s.e.op) bytes x

/-- The patch changes one byte of OUT, two below the output cursor (41_encoder.md R145). -/
theorem State.patch_cases (n : Nat) :
    (s.e.op < 2 ∧ s.patch n = none) ∨
    (2 ≤ s.e.op ∧ s.patch n = some (s.writeOut (s.outBase + s.e.op - 2)
      [s.outByte (s.outBase + s.e.op - 2) ||| byte n])) := by
  unfold State.patch
  split
  · exact .inl ⟨‹_›, rfl⟩
  · exact .inr ⟨by omega, rfl⟩

/-- The form of a run, case by case (41_encoder.md R144 to R149). -/
theorem runForm_cases (form : FirstRunForm) (tail : Bool) (op n : Nat) :
    (n = 0 ∧ runForm form tail op n = .nothing) ∨
    (op = 0 ∧ 1 ≤ n ∧ n ≤ 238 ∧ (tail = true ∨ form = .shortOpcode ∧ 4 ≤ n) ∧
      runForm form tail op n = .instr (firstRun n)) ∨
    (1 ≤ n ∧ ¬(op = 0 ∧ n ≤ 238 ∧ (tail = true ∨ form = .shortOpcode ∧ 4 ≤ n)) ∧
      runForm form tail op n = generalForm n) := by
  unfold runForm
  simp only [Config.firstRunMax]
  by_cases h0 : n = 0
  · exact .inl ⟨h0, by simp [h0]⟩
  · rw [if_neg h0]
    cases tail with
    | true =>
      by_cases h : op = 0 ∧ n ≤ 238
      · exact .inr (.inl ⟨h.1, by omega, h.2, .inl rfl, by simp [h]⟩)
      · exact .inr (.inr ⟨by omega, by tauto, by simp [h]⟩)
    | false =>
      by_cases h : op = 0 ∧ form = .shortOpcode ∧ 4 ≤ n ∧ n ≤ 238
      · exact .inr (.inl ⟨h.1, by omega, h.2.2.2, .inr ⟨h.2.1, h.2.2.1⟩, by simp [h]⟩)
      · refine .inr (.inr ⟨by omega, ?_, by simp [h]⟩)
        rintro ⟨a, b, c | ⟨c, d⟩⟩
        · cases c
        · exact h ⟨a, c, d, b⟩

/-- A first run is one byte, `17 + n` (30_encoding.md R82). -/
theorem encode_firstRun (n : Nat) : encode (firstRun n) = [byte (n + 17)] := by
  unfold firstRun
  split <;> rfl

/-- A general run is patched, LIT or LITX, by its length (41_encoder.md R145 to R147). -/
theorem generalForm_cases (n : Nat) :
    (n ≤ 3 ∧ generalForm n = .patch) ∨ (4 ≤ n ∧ n ≤ 18 ∧ generalForm n = .instr (.lit n)) ∨
    (19 ≤ n ∧ generalForm n = .instr (.litx n)) := by
  unfold generalForm
  split
  · exact .inl ⟨‹_›, rfl⟩
  · split
    · exact .inr (.inl ⟨by omega, ‹_›, rfl⟩)
    · exact .inr (.inr ⟨by omega, rfl⟩)

/-- What `emit_literals` can do: nothing, a patch and the raw bytes, or an instruction and the raw bytes
(41_encoder.md R144 to R150). -/
theorem State.emitLiterals_cases (start stop : Nat) (tail : Bool) :
    (runForm s.cfg.firstRunForm tail s.e.op (stop - start) = .nothing ∧
      s.emitLiterals start stop tail = some s) ∨
    (runForm s.cfg.firstRunForm tail s.e.op (stop - start) = .patch ∧
      s.emitLiterals start stop tail =
        (s.patch (stop - start)).map fun t => t.emit (s.readIn start (stop - start))) ∨
    (∃ i, runForm s.cfg.firstRunForm tail s.e.op (stop - start) = .instr i ∧
      s.emitLiterals start stop tail =
        some ((s.emit (encode i)).emit (s.readIn start (stop - start)))) := by
  unfold State.emitLiterals
  dsimp only
  cases h : runForm s.cfg.firstRunForm tail s.e.op (stop - start) with
  | nothing => exact .inl ⟨rfl, rfl⟩
  | patch =>
    refine .inr (.inl ⟨rfl, ?_⟩)
    cases s.patch (stop - start) <;> rfl
  | instr i => exact .inr (.inr ⟨i, rfl, rfl⟩)

/-- A match costs at least 2 bytes and saves at least one (41_encoder.md R161). -/
theorem length_encode_matchForm (dist len : Nat) (h1 : 3 ≤ len) (h2 : 2048 < dist → 4 ≤ len) :
    2 ≤ (encode (matchForm dist len)).length ∧ (encode (matchForm dist len)).length + 1 ≤ len := by
  unfold matchForm
  simp only [Config.m2MaxOffset, Config.m3MaxOffset]
  split
  · simp [encode]; omega
  · split
    · split
      · simp [encode]; omega
      · simp [encode, zeroCount]; omega
    · split
      · simp [encode]; omega
      · simp [encode, zeroCount]; omega

end Sys2Proof.Machine
end

