-- ==== Sys2Proof/Laws/MatchFinder.lean ====
section
/-! SUPPORT. What the match finder can answer: the slot it writes, the candidate that goes on, the length it counts. -/

namespace Sys2Proof.Machine

/-- The mixed bytes fill 24 bits at most (40_match_finder.md R111). -/
theorem hashMix_lt (p0 p1 p2 p3 : Byte) : hashMix p0 p1 p2 p3 < 2 ^ 24 := by
  have h (b : Byte) (n : Nat) (hn : 8 ≤ n) : b.toNat < 2 ^ n :=
    Nat.lt_of_lt_of_le b.isLt (Nat.pow_le_pow_right (by omega) hn)
  have up {x n : Nat} (k : Nat) (hx : x < 2 ^ n) : x <<< k < 2 ^ (n + k) := by
    rw [Nat.shiftLeft_eq, Nat.pow_add]
    exact Nat.mul_lt_mul_of_pos_right hx (Nat.two_pow_pos k)
  exact Nat.xor_lt_two_pow
    (up 5 (Nat.xor_lt_two_pow
      (up 5 (Nat.xor_lt_two_pow (up 6 (h p3 8 (by omega))) (h p2 14 (by omega))))
      (h p1 19 (by omega))))
    (h p0 24 (by omega))

/-- The slot of a hash exists (40_match_finder.md R110). -/
theorem hashIndex_lt (p0 p1 p2 p3 : Byte) : hashIndex p0 p1 p2 p3 < Config.tableSlots :=
  Nat.lt_succ_of_le Nat.and_le_right

/-- A candidate that is not rejected lies below the position, at a distance the format can hold
(40_match_finder.md R116). -/
theorem candidate_range {s : State} {k p c : Nat} (h : s.candidate k p = some c) : c < p ∧ p - c ≤ 49151 := by
  unfold State.candidate at h
  split at h
  · cases h
  · split at h
    · cases h
    · cases h
      simp only [Config.m4MaxOffset] at *
      omega

/-- What a lookup gives, case by case (40_match_finder.md R117 to R119). -/
theorem lookup_cases (s : State) (p : Nat) :
    (s.candidate (s.indexAt p) p = none ∧ s.lookup p = (s.indexAt p, none)) ∨
    (∃ c, s.candidate (s.indexAt p) p = some c ∧ s.goesOn c p = true ∧ s.lookup p = (s.indexAt p, some c)) ∨
    (∃ c, s.candidate (s.indexAt p) p = some c ∧ s.goesOn c p = false ∧
      ∃ r, (r = none ∨ ∃ c2, s.candidate (rehash (s.indexAt p)) p = some c2 ∧ s.goesOn c2 p = true ∧ r = some c2) ∧
        s.lookup p =
          (if s.cfg.updateSlot = .lastProbed then rehash (s.indexAt p) else s.indexAt p, r)) := by
  unfold State.lookup
  dsimp only
  cases hc : s.candidate (s.indexAt p) p with
  | none => exact .inl ⟨rfl, rfl⟩
  | some c =>
    cases hg : s.goesOn c p with
    | true => exact .inr (.inl ⟨c, rfl, hg, by simp [hg]⟩)
    | false =>
      refine .inr (.inr ⟨c, rfl, hg, ?_⟩)
      dsimp only
      rw [hg, if_neg (by simp)]
      cases hc2 : s.candidate (rehash (s.indexAt p)) p with
      | none => exact ⟨none, .inl rfl, rfl⟩
      | some c2 =>
        cases hg2 : s.goesOn c2 p with
        | true => exact ⟨some c2, .inr ⟨c2, rfl, hg2, rfl⟩, by simp [hg2]⟩
        | false => exact ⟨none, .inl rfl, by simp [hg2]⟩

/-- A candidate that a lookup hands on has passed the tests of 40_match_finder.md R116 and R117. -/
theorem lookup_candidate {s : State} {p m : Nat} (h : (s.lookup p).2 = some m) :
    m < p ∧ p - m ≤ 49151 ∧ s.goesOn m p = true := by
  rcases lookup_cases s p with ⟨_, e⟩ | ⟨c, hc, hg, e⟩ | ⟨c, _, _, r, hr, e⟩ <;> rw [e] at h
  · cases h
  · cases h
    exact ⟨(candidate_range hc).1, (candidate_range hc).2, hg⟩
  · rcases hr with rfl | ⟨c2, hc2, hg2, rfl⟩
    · cases h
    · cases h
      exact ⟨(candidate_range hc2).1, (candidate_range hc2).2, hg2⟩

/-- The slot a lookup writes is the hash's or the fallback slot (40_match_finder.md R119). -/
theorem lookup_slot (s : State) (p : Nat) : (s.lookup p).1 = s.indexAt p ∨ (s.lookup p).1 = rehash (s.indexAt p) := by
  rcases lookup_cases s p with ⟨_, e⟩ | ⟨c, _, _, e⟩ | ⟨c, _, _, r, _, e⟩ <;> rw [e]
  · exact .inl rfl
  · exact .inl rfl
  · dsimp only
    split
    · exact .inr rfl
    · exact .inl rfl

theorem agreeFrom_range (s : State) (m p k fuel : Nat) :
    k ≤ s.agreeFrom m p k fuel ∧ s.agreeFrom m p k fuel ≤ k + fuel := by
  induction fuel generalizing k with
  | zero => simp [State.agreeFrom]
  | succ fuel ih =>
    unfold State.agreeFrom
    split
    · have := ih (k + 1); omega
    · omega

/-- Below the offset it answers, the two positions agree. -/
theorem agreeFrom_agrees {s : State} {m p k fuel j : Nat} (h1 : k ≤ j) (h2 : j < s.agreeFrom m p k fuel) :
    s.inByte (m + j) = s.inByte (p + j) := by
  induction fuel generalizing k with
  | zero => simp only [State.agreeFrom] at h2; omega
  | succ fuel ih =>
    unfold State.agreeFrom at h2
    split at h2
    · rename_i he
      rcases Nat.eq_or_lt_of_le h1 with rfl | h
      · exact he
      · exact ih h h2
    · omega

/-- What a probe can answer: no match, or a confirmed candidate with its counted length (40_match_finder.md R125). -/
theorem probe_cases (s : State) (p : Nat) :
    s.probe p = ((s.lookup p).1, .noMatch) ∨
    ∃ m, (s.lookup p).2 = some m ∧ s.confirmed m p = true ∧
      s.probe p = ((s.lookup p).1, .hit (p - m) (s.matchLength m p)) := by
  unfold State.probe
  split
  · rename_i h; rw [h]; exact .inl rfl
  · rename_i m h
    rw [h]
    cases hc : s.confirmed m p with
    | true => exact .inr ⟨m, rfl, hc, by simp⟩
    | false => exact .inl (by simp)

end Sys2Proof.Machine
end

