-- ==== Sys2Proof/Laws/Ops.lean ====
section
/-! SUPPORT. What the shared operations of the decoder can do, said once each: an advance of the decode, with the case
analysis of each phase. -/

namespace Sys2Proof.Machine

/-- What every phase of a stream instruction does to the state it ends in, whether it goes on or fails. -/
structure Advance (s t : State) : Prop where
  still : StillDecoding s t
  outGen : t.outGen = s.outGen
  ipUp : s.d.ip ≤ t.d.ip
  ipEnd : s.d.ip ≤ s.d.N → t.d.ip ≤ s.d.N
  opUp : s.d.op ≤ t.d.op
  opEnd : s.d.op ≤ s.d.C → t.d.op ≤ s.d.C
  wf : Memory.wf s.outMem → Memory.wf t.outMem
  mem : ∀ x ∈ t.outMem, x.1 < t.d.op ∨ x ∈ s.outMem
  old : ∀ x, x < s.d.op ∨ t.d.op ≤ x → t.outByte x = s.outByte x

theorem StreamFrame.refl (s : State) : StreamFrame s s := ⟨rfl, rfl, rfl, rfl, rfl, rfl, rfl, rfl, rfl, rfl⟩

theorem StreamFrame.trans {s t u : State} (h : StreamFrame s t) (h' : StreamFrame t u) : StreamFrame s u :=
  ⟨h'.cfg.trans h.cfg, h'.inMem.trans h.inMem, h'.inGen.trans h.inGen, h'.table.trans h.table, h'.e.trans h.e,
    h'.inLen.trans h.inLen, h'.dstCap.trans h.dstCap, h'.N.trans h.N, h'.C.trans h.C, h'.turns.trans h.turns⟩

/-- The frame keeps every byte of IN. -/
theorem StreamFrame.inByte {s t : State} (h : StreamFrame s t) (a : Nat) : t.inByte a = s.inByte a := by
  simp only [State.inByte, h.inMem, h.inGen]

theorem StillDecoding.refl (s : State) : StillDecoding s s := ⟨StreamFrame.refl s, rfl, rfl⟩

theorem StillDecoding.trans {s t u : State} (h : StillDecoding s t) (h' : StillDecoding t u) : StillDecoding s u :=
  ⟨h.frame.trans h'.frame, h'.regs.trans h.regs, h'.mode.trans h.mode⟩

/-- A running decode keeps its input base. -/
theorem StillDecoding.inBase {s t : State} (h : StillDecoding s t) : t.inBase = s.inBase := by
  simp only [State.inBase, h.mode]

theorem Advance.refl (s : State) : Advance s s where
  still := StillDecoding.refl s
  outGen := rfl
  ipUp := Nat.le_refl _
  ipEnd := id
  opUp := Nat.le_refl _
  opEnd := id
  wf := id
  mem := fun _ h => .inr h
  old := fun _ _ => rfl

theorem Advance.trans {s t u : State} (h : Advance s t) (h' : Advance t u) : Advance s u where
  still := h.still.trans h'.still
  outGen := h'.outGen.trans h.outGen
  ipUp := Nat.le_trans h.ipUp h'.ipUp
  ipEnd := fun e => h.still.frame.N ▸ h'.ipEnd (h.still.frame.N ▸ h.ipEnd e)
  opUp := Nat.le_trans h.opUp h'.opUp
  opEnd := fun e => h.still.frame.C ▸ h'.opEnd (h.still.frame.C ▸ h.opEnd e)
  wf := fun e => h'.wf (h.wf e)
  mem := fun x hx => by
    rcases h'.mem x hx with h1 | h1
    · exact .inl h1
    · rcases h.mem x h1 with h2 | h2
      · exact .inl (Nat.lt_of_lt_of_le h2 h'.opUp)
      · exact .inr h2
  old := fun x hx => by
    have h1 := h.opUp
    have h2 := h'.opUp
    rw [h'.old x (by omega), h.old x (by omega)]

/-- Where a phase ends: the state it hands on, or the state at its failing check. -/
def Phase.last : Phase → State
  | .ok s => s
  | .err _ s => s

/-- Phases advance one after the other. -/
theorem Phase.advance_andThen {s : State} {p : Phase} {f : State → Phase} (h : Advance s p.last)
    (hf : ∀ t, p = .ok t → Advance t (f t).last) : Advance s (p.andThen f).last := by
  cases p with
  | ok t => exact h.trans (hf t rfl)
  | err k t => exact h

/-! `copy_literals`. -/

/-- The state after a literal copy. -/
def literalsCopied (n : Nat) (s : State) : State :=
  ((s.writeOut s.d.op (s.readIn (s.inBase + s.d.ip) n)).setOp (s.d.op + n)).setIp (s.d.ip + n)

/-- `copy_literals(n)` fails its output check, fails its input check, or copies (42_decoder_fsm.md R185). -/
theorem copyLiterals_cases (n : Nat) (s : State) :
    (s.d.C < s.d.op + n ∧ copyLiterals n s = .err .outputOverrun s) ∨
    (s.d.op + n ≤ s.d.C ∧ s.d.N - s.d.ip < n + 1 ∧ copyLiterals n s = .err .inputOverrun s) ∨
    (s.d.op + n ≤ s.d.C ∧ n + 1 ≤ s.d.N - s.d.ip ∧ copyLiterals n s = .ok (literalsCopied n s)) := by
  unfold copyLiterals
  split
  · exact .inl ⟨‹_›, rfl⟩
  · split
    · exact .inr (.inl ⟨by omega, ‹_›, rfl⟩)
    · exact .inr (.inr ⟨by omega, by omega, rfl⟩)

/-- The bytes of OUT after a literal copy. -/
theorem literalsCopied_out (n : Nat) (s : State) :
    OutHolds s (literalsCopied n s) s.d.op n (fun k => s.inByte (s.inBase + s.d.ip + k)) := by
  constructor
  · intro k hk
    exact State.outByte_writeOut_in s _ _ k _ (State.getElem?_readIn s _ n k hk)
  · intro x hx
    exact State.outByte_writeOut_out s _ _ x (by simpa using hx)

theorem literalsCopied_advance (n : Nat) (s : State) (h : s.d.op + n ≤ s.d.C) (h' : n + 1 ≤ s.d.N - s.d.ip) :
    Advance s (literalsCopied n s) where
  still := ⟨⟨rfl, rfl, rfl, rfl, rfl, rfl, rfl, rfl, rfl, rfl⟩, rfl, rfl⟩
  outGen := rfl
  ipUp := by simp [literalsCopied]
  ipEnd := fun _ => by simp [literalsCopied]; omega
  opUp := by simp [literalsCopied]
  opEnd := fun _ => by simpa [literalsCopied] using h
  wf := fun e => Memory.wf_writeBytes _ _ _ e
  mem := fun x hx => by
    rcases Memory.mem_writeBytes _ _ _ _ hx with h | h
    · left; simp only [State.length_readIn] at h; simpa [literalsCopied] using h.2
    · exact .inr h
  old := fun x hx => (literalsCopied_out n s).2 x (by simpa [literalsCopied] using hx)

theorem copyLiterals_advance (n : Nat) (s : State) : Advance s (copyLiterals n s).last := by
  rcases copyLiterals_cases n s with ⟨_, e⟩ | ⟨_, _, e⟩ | ⟨h, h', e⟩ <;> rw [e]
  · exact Advance.refl s
  · exact Advance.refl s
  · exact literalsCopied_advance n s h h'

/-! `copy_match`. -/

/-- The byte-by-byte copy changes OUT in the range it writes and moves `d.op`, nothing else. -/
theorem copyBack_frame (dist len : Nat) (s : State) :
    ∃ m, copyBack dist len s = { s with outMem := m, d := { s.d with op := s.d.op + len } } ∧
      (Memory.wf s.outMem → Memory.wf m) ∧
      (∀ x ∈ m, (s.d.op ≤ x.1 ∧ x.1 < s.d.op + len) ∨ x ∈ s.outMem) ∧
      ∀ x, x < s.d.op ∨ s.d.op + len ≤ x → Sparse.get? m x = Sparse.get? s.outMem x := by
  induction len generalizing s with
  | zero => exact ⟨s.outMem, rfl, id, fun _ h => .inr h, fun _ _ => rfl⟩
  | succ len ih =>
    obtain ⟨m, hm, hwf, hmem, hold⟩ := ih ((s.writeOut s.d.op [s.outByte (s.d.op - dist)]).setOp (s.d.op + 1))
    refine ⟨m, ?_, ?_, ?_, ?_⟩
    · rw [copyBack, hm]
      simp [State.setOp, State.writeOut, Nat.add_assoc, Nat.add_comm 1 len]
    · exact fun e => hwf (Memory.wf_writeBytes _ _ _ e)
    · intro x hx
      rcases hmem x hx with h | h
      · simp only [State.setOp_d] at h; left; omega
      · rcases Memory.mem_writeBytes _ _ _ _ h with h | h
        · simp only [List.length_singleton] at h; left; omega
        · exact .inr h
    · intro x hx
      have h1 := hold x (by simp only [State.setOp_d]; omega)
      rw [h1]
      simp only [State.setOp_outMem, State.writeOut_outMem, Memory.get?_writeBytes, List.length_singleton]
      rw [if_neg (by omega)]

@[simp] theorem copyBack_op (dist len : Nat) (s : State) : (copyBack dist len s).d.op = s.d.op + len := by
  obtain ⟨m, hm, -⟩ := copyBack_frame dist len s
  rw [hm]

/-- The bytes below the write cursor and above the copy stay. -/
theorem copyBack_old (dist len : Nat) (s : State) (x : Nat) (h : x < s.d.op ∨ s.d.op + len ≤ x) :
    (copyBack dist len s).outByte x = s.outByte x := by
  obtain ⟨m, hm, -, -, hold⟩ := copyBack_frame dist len s
  rw [hm]
  simp only [State.outByte, hold x h]

/-- Each byte copied is the byte `dist` behind it, read in the result (42_decoder_fsm.md R186). -/
theorem copyBack_byte (dist len : Nat) (s : State) (h1 : 1 ≤ dist) (h2 : dist ≤ s.d.op) (k : Nat) (hk : k < len) :
    (copyBack dist len s).outByte (s.d.op + k) = (copyBack dist len s).outByte (s.d.op + k - dist) := by
  induction len generalizing s k with
  | zero => omega
  | succ len ih =>
    rw [copyBack]
    cases k with
    | zero =>
      rw [copyBack_old _ _ _ _ (by left; simp only [State.setOp_d]; omega),
        copyBack_old _ _ _ _ (by left; simp only [State.setOp_d]; omega)]
      simp only [State.setOp_outByte, State.outByte_writeOut, List.length_singleton]
      rw [if_pos (by omega), if_neg (by omega)]
      simp
    | succ k =>
      have := ih ((s.writeOut s.d.op [s.outByte (s.d.op - dist)]).setOp (s.d.op + 1))
        (by simp only [State.setOp_d]; omega) k (by omega)
      simp only [State.setOp_d] at this
      rwa [show s.d.op + (k + 1) = s.d.op + 1 + k by omega]

theorem copyBack_advance (dist len : Nat) (s : State) (h : s.d.op + len ≤ s.d.C) :
    Advance s (copyBack dist len s) := by
  have hold := copyBack_old dist len s
  obtain ⟨m, hm, hwf, hmem, -⟩ := copyBack_frame dist len s
  rw [hm] at hold ⊢
  exact {
    still := ⟨⟨rfl, rfl, rfl, rfl, rfl, rfl, rfl, rfl, rfl, rfl⟩, rfl, rfl⟩
    outGen := rfl
    ipUp := Nat.le_refl _
    ipEnd := id
    opUp := Nat.le_add_right _ _
    opEnd := fun _ => h
    wf := hwf
    mem := fun x hx => (hmem x hx).imp (fun e => e.2) id
    old := hold }

/-- `copy_match(dist, len)` fails its lookbehind check, fails its output check, or copies (42_decoder_fsm.md R186). -/
theorem copyMatch_cases (dist len : Nat) (s : State) :
    (s.d.op < dist ∧ copyMatch dist len s = .err .lookbehindOverrun s) ∨
    (dist ≤ s.d.op ∧ s.d.C < s.d.op + len ∧ copyMatch dist len s = .err .outputOverrun s) ∨
    (dist ≤ s.d.op ∧ s.d.op + len ≤ s.d.C ∧ copyMatch dist len s = .ok (copyBack dist len s)) := by
  unfold copyMatch
  split
  · exact .inl ⟨‹_›, rfl⟩
  · split
    · exact .inr (.inl ⟨by omega, ‹_›, rfl⟩)
    · exact .inr (.inr ⟨by omega, by omega, rfl⟩)

theorem copyMatch_advance (dist len : Nat) (s : State) : Advance s (copyMatch dist len s).last := by
  rcases copyMatch_cases dist len s with ⟨_, e⟩ | ⟨_, _, e⟩ | ⟨_, h, e⟩ <;> rw [e]
  · exact Advance.refl s
  · exact Advance.refl s
  · exact copyBack_advance dist len s h

/-! The ends of an instruction. -/

theorem setDState_advance (s : State) (x : DState) : Advance s (s.setDState x) where
  still := ⟨⟨rfl, rfl, rfl, rfl, rfl, rfl, rfl, rfl, rfl, rfl⟩, rfl, rfl⟩
  outGen := rfl
  ipUp := Nat.le_refl _
  ipEnd := id
  opUp := Nat.le_refl _
  opEnd := id
  wf := id
  mem := fun _ h => .inr h
  old := fun _ _ => rfl

/-- `fetchHeld` fails at the end of the input or fetches the next opcode (42_decoder_fsm.md R183, R192). -/
theorem fetchHeld_cases (s : State) :
    (s.d.N ≤ s.d.ip ∧ fetchHeld s = .err .inputOverrun s) ∨
    (s.d.ip < s.d.N ∧ fetchHeld s = .ok
      (((s.setT (s.inByte (s.inBase + s.d.ip))).setIp (s.d.ip + 1)).setDState (.expectMatch .afterTrailing))) := by
  unfold fetchHeld
  split
  · exact .inl ⟨‹_›, rfl⟩
  · exact .inr ⟨by omega, rfl⟩

theorem fetchHeld_advance (s : State) : Advance s (fetchHeld s).last := by
  rcases fetchHeld_cases s with ⟨_, e⟩ | ⟨h, e⟩ <;> rw [e]
  · exact Advance.refl s
  · exact {
      still := ⟨⟨rfl, rfl, rfl, rfl, rfl, rfl, rfl, rfl, rfl, rfl⟩, rfl, rfl⟩
      outGen := rfl
      ipUp := Nat.le_succ _
      ipEnd := fun _ => h
      opUp := Nat.le_refl _
      opEnd := id
      wf := id
      mem := fun _ h => .inr h
      old := fun _ _ => rfl }

theorem finishMatch_advance (count : Nat) (s : State) : Advance s (finishMatch count s).last := by
  unfold finishMatch
  split
  · exact setDState_advance s _
  · exact Phase.advance_andThen (copyLiterals_advance count s) fun t _ => fetchHeld_advance t

/-- A literal run advances the decode. -/
theorem literalRun_advance (n : Nat) (s : State) : Advance s (literalRun n s).last :=
  Phase.advance_andThen (copyLiterals_advance n s) fun t _ => setDState_advance t _

/-- A first-byte run of 1 to 3 bytes advances the decode. -/
theorem shortRun_advance (n : Nat) (s : State) : Advance s ((copyLiterals n s).andThen fetchHeld).last :=
  Phase.advance_andThen (copyLiterals_advance n s) fun t _ => fetchHeld_advance t

/-- A match advances the decode. -/
theorem matchRun_advance (dist len count : Nat) (s : State) : Advance s (matchRun dist len count s).last :=
  Phase.advance_andThen (copyMatch_advance dist len s) fun t _ => finishMatch_advance count t

/-- A stream instruction's answer is the state of its last phase, or the fault of bounds outside the memories. -/
theorem decodeAnswer_cases (s : State) (p : Phase) :
    (s.decodeBounds = true ∧ decodeAnswer s p = .next p.state) ∨
    (s.decodeBounds = false ∧ decodeAnswer s p = .fault .boundsOutsideMemory) := by
  unfold decodeAnswer
  cases h : s.decodeBounds
  · exact .inr ⟨rfl, rfl⟩
  · exact .inl ⟨rfl, rfl⟩

/-- Stopping with an error from a state the decode advanced to (60_exceptions.md R303). -/
theorem raiseError_stopped {s t : State} (h : StillDecoding s t) (kind : ErrKind) :
    StoppedBy s (t.raiseError kind) kind t.d.ip t.d.op where
  frame := h.frame.trans ⟨rfl, rfl, rfl, rfl, rfl, rfl, rfl, rfl, rfl, rfl⟩
  state := rfl
  ipAt := rfl
  opAt := rfl
  status := rfl
  outLen := rfl
  inPos := by
    show reg32 (t.inBase + t.d.ip) = _
    rw [h.inBase]
  outPos := rfl
  mode := rfl

end Sys2Proof.Machine
end

