-- ==== Sys2Proof/Laws/PerInstr.lean ====
section
/-! SUPPORT. Statements for all instructions, one lemma per constructor. -/

namespace Sys2Proof.Laws.HeaderLength

/-- The encoder writes as many header bytes as the "length" column of spec/opcode_table.json gives
(30_encoding.md R82 to R88). -/
def Statement (i : Instr) : Prop := (encode i).length = i.headerLength

theorem litfs (n : Nat) : Statement (.litfs n) := rfl
theorem litf (n : Nat) : Statement (.litf n) := rfl
theorem lit (n : Nat) : Statement (.lit n) := rfl
theorem litx (n : Nat) : Statement (.litx n) := by simp [Statement, encode, Instr.headerLength]; omega
theorem m1l (dist s : Nat) : Statement (.m1l dist s) := rfl
theorem m1 (dist s : Nat) : Statement (.m1 dist s) := rfl
theorem m2 (dist len s : Nat) : Statement (.m2 dist len s) := rfl
theorem m3 (dist len s : Nat) : Statement (.m3 dist len s) := rfl
theorem m3x (dist len s : Nat) : Statement (.m3x dist len s) := by
  simp [Statement, encode, Instr.headerLength]; omega
theorem m4 (dist len s : Nat) : Statement (.m4 dist len s) := rfl
theorem m4x (dist len s : Nat) : Statement (.m4x dist len s) := by
  simp [Statement, encode, Instr.headerLength]; omega
theorem eos (l3 ext s : Nat) : Statement (.eos l3 ext s) := by
  by_cases h : l3 = 0 <;> simp [Statement, encode, Instr.headerLength, h]
  omega
theorem compress : Statement .compress := rfl
theorem decompress : Statement .decompress := rfl
theorem compressFramed : Statement .compressFramed := rfl
theorem decompressFramed : Statement .decompressFramed := rfl

end Sys2Proof.Laws.HeaderLength
end

