-- ==== Sys2Proof/Laws/Step.lean ====
section
/-! SUPPORT. What a step is, by whose turn it is, and what the fetch of an instruction hands on. -/

namespace Sys2Proof.Machine

/-- The answer of what is to be done in a step. -/
def Work.outcome : Work → Answer
  | .run i s => exec i s
  | .answer a => a

@[simp] theorem Work.outcome_run (i : Instr) (s : State) : (Work.run i s).outcome = exec i s := rfl
@[simp] theorem Work.outcome_answer (a : Answer) : (Work.answer a).outcome = a := rfl

theorem step_outcome (s : State) : step s = (nextWork s).outcome := by
  unfold step Work.outcome
  split <;> simp_all

/-- Where the engine moves next, the step is the engine's turn. -/
theorem step_of_engine {s u : State} (h : EngineNext s u) : step s = (engineTurn u).outcome := by
  rw [step_outcome]
  rcases h with ⟨h, rfl⟩ | ⟨rest, h, rfl⟩ <;> simp [nextWork, h]

/-- Where the host moves next, the step is the host's turn. -/
theorem step_of_host {s u : State} {a : HostAction} (h : HostNext s u a) : step s = (hostTurn a u).outcome := by
  obtain ⟨rest, h, rfl⟩ := h
  rw [step_outcome]
  simp [nextWork, h]

/-- Every state has a next turn: the engine's or a host action. -/
theorem turn_cases (s : State) : (∃ u, EngineNext s u) ∨ ∃ u a, HostNext s u a := by
  cases h : s.turns with
  | nil => exact .inl ⟨s, .inl ⟨h, rfl⟩⟩
  | cons t rest =>
    cases t with
    | engine => exact .inl ⟨_, .inr ⟨rest, h, rfl⟩⟩
    | host a => exact .inr ⟨_, a, rest, h, rfl⟩

/-- The stream does not depend on the cursors' other registers. -/
@[simp] theorem State.setIp_readIn (s : State) (ip a n : Nat) : (s.setIp ip).readIn a n = s.readIn a n :=
  State.readIn_congr s _ a n fun _ _ => rfl

@[simp] theorem State.setTurns_readIn (s : State) (turns : List Turn) (a n : Nat) :
    (s.setTurns turns).readIn a n = s.readIn a n := State.readIn_congr s _ a n fun _ _ => rfl

/-- The fetch of an instruction, case by case. -/
theorem fetchInstr_cases (c : DecodeTable) (held : List Byte) (s : State) :
    (∃ i rest, decode c (held ++ s.streamRest) = .ok i rest ∧
      fetchInstr c held s = .run i (s.setIp (s.d.N - rest.length))) ∨
    (decode c (held ++ s.streamRest) = .reject .notFirstByteRun ∧
      fetchInstr c held s = .answer (.next (s.setDState .expectLiteralOrMatch))) ∨
    (∃ r, decode c (held ++ s.streamRest) = .reject r ∧ r ≠ .notFirstByteRun ∧
      fetchInstr c held s = .answer (.next ((s.setIp (max s.d.ip s.d.N)).raiseError .inputOverrun))) := by
  unfold fetchInstr
  cases h : decode c (held ++ s.streamRest) with
  | ok i rest => exact .inl ⟨i, rest, rfl, rfl⟩
  | reject r =>
    cases r with
    | noInput => exact .inr (.inr ⟨_, rfl, by simp, rfl⟩)
    | truncated => exact .inr (.inr ⟨_, rfl, by simp, rfl⟩)
    | notFirstByteRun => exact .inr (.inl ⟨rfl, rfl⟩)
    | noStart => exact .inr (.inr ⟨_, rfl, by simp, rfl⟩)

end Sys2Proof.Machine
end

