-- ==== Sys2Proof/Tests/Slice0.lean ====
section
/-! SUPPORT. The model's own tests. Expected results are the spec's worked examples and tables (30_encoding.md,
43_literal_instructions.md, 44_match_instructions.md, 41_encoder.md, 45_host_commands.md, 95_test_vectors.md) or hand
calculation from them. After the tests, one witness for each statement with hypotheses (test_wit_...): a state and
operands that meet all of its hypotheses together. -/

namespace Sys2Proof.Tests

open Sys2Proof Sys2Proof.Machine

-- The small theorems below are elaborated one after the other: side by side they take a thread each.
set_option Elab.async false

/-! Helpers: small states. -/

/-- The next state, if there is one. -/
def nextOf : Answer → Option State
  | .next s => some s
  | .fault _ => none
  | .refused _ => none

/-- A running DECOMPRESS with the given stream in IN and the given bytes already in OUT. -/
def decoding (x : DState) (ip op C : Nat) (t : Byte) (stream out : List Byte) : State :=
  { State.reset with
    regs := { State.reset.regs with status := Status.running }
    mode := .decompressing .decompress
    d := { N := stream.length, C := C, ip := ip, op := op, state := x, t := t }
    inMem := Memory.ofBytes 0 stream
    outMem := Memory.ofBytes 0 out }

/-- What a decoder step shows: both cursors, the state, and some bytes of OUT. -/
def decodeView (a n : Nat) (s : State) : Nat × Nat × DState × List Byte := (s.d.ip, s.d.op, s.d.state, s.readOut a n)

/-- What the host sees when an operation has stopped: STATUS, OUT_LEN, IN_POS and OUT_POS. -/
def hostView (s : State) : Word × Word × Word × Word :=
  (s.hostReadReg 1, s.hostReadReg 4, s.hostReadReg 5, s.hostReadReg 6)

/-- An idle block with the given bytes in IN, the host about to act. -/
def idleWith (inLen dstCap : Word) (bytes : List Byte) (turns : List Turn) : State :=
  { State.reset with
    regs := { State.reset.regs with inLen := inLen, dstCap := dstCap }
    inMem := Memory.ofBytes 0 bytes
    turns := turns }

/-- A running COMPRESS of the given source. -/
def encoding (L ip ii op : Nat) (table : List (Nat × Nat)) (source out : List Byte) : State :=
  { State.reset with
    regs := { State.reset.regs with status := Status.running, inLen := BitVec.ofNat 32 L }
    mode := .compressing .compress
    e := { L := L, ip := ip, ii := ii, op := op }
    table := table
    inMem := Memory.ofBytes 0 source
    outMem := Memory.ofBytes 0 out }

/-! Ill-formed instructions are refused, one for each bound (30_encoding.md R82 to R88, 44_match_instructions.md R240). -/

theorem test_wf_litfs : Instr.wf (.litfs 0) = false ∧ Instr.wf (.litfs 4) = false := by decide
theorem test_wf_litf : Instr.wf (.litf 3) = false ∧ Instr.wf (.litf 239) = false := by decide
theorem test_wf_lit : Instr.wf (.lit 3) = false ∧ Instr.wf (.lit 19) = false := by decide
theorem test_wf_litx : Instr.wf (.litx 18) = false := by decide
theorem test_wf_m1l :
    Instr.wf (.m1l 2048 0) = false ∧ Instr.wf (.m1l 3073 0) = false ∧ Instr.wf (.m1l 2049 4) = false := by decide
theorem test_wf_m1 : Instr.wf (.m1 0 0) = false ∧ Instr.wf (.m1 1025 0) = false ∧ Instr.wf (.m1 1 4) = false := by decide
theorem test_wf_m2 :
    Instr.wf (.m2 0 3 0) = false ∧ Instr.wf (.m2 2049 3 0) = false ∧ Instr.wf (.m2 1 2 0) = false ∧
      Instr.wf (.m2 1 9 0) = false ∧ Instr.wf (.m2 1 3 4) = false := by decide
theorem test_wf_m3 :
    Instr.wf (.m3 0 3 0) = false ∧ Instr.wf (.m3 16385 3 0) = false ∧ Instr.wf (.m3 1 2 0) = false ∧
      Instr.wf (.m3 1 34 0) = false ∧ Instr.wf (.m3 1 3 4) = false := by decide
theorem test_wf_m3x :
    Instr.wf (.m3x 0 34 0) = false ∧ Instr.wf (.m3x 16385 34 0) = false ∧ Instr.wf (.m3x 1 33 0) = false ∧
      Instr.wf (.m3x 1 34 4) = false := by decide
theorem test_wf_m4 :
    Instr.wf (.m4 16384 3 0) = false ∧ Instr.wf (.m4 49152 3 0) = false ∧ Instr.wf (.m4 16385 2 0) = false ∧
      Instr.wf (.m4 16385 10 0) = false ∧ Instr.wf (.m4 16385 3 4) = false := by decide
theorem test_wf_m4x :
    Instr.wf (.m4x 16384 10 0) = false ∧ Instr.wf (.m4x 49152 10 0) = false ∧ Instr.wf (.m4x 16385 9 0) = false ∧
      Instr.wf (.m4x 16385 10 4) = false := by decide
theorem test_wf_eos :
    Instr.wf (.eos 8 0 0) = false ∧ Instr.wf (.eos 0 0 0) = false ∧ Instr.wf (.eos 1 1 0) = false ∧
      Instr.wf (.eos 1 0 4) = false := by decide

/-! Each constructor's decoding, by a word written out from its encoding table; each also encodes back to it. -/

/-- R82: 0001 0100 is n + 17 with n = 3. -/
theorem test_decode_litfs : decode .start [0x14, 0x61] = .ok (.litfs 3) [0x61] ∧ encode (.litfs 3) = [0x14] := by decide
/-- R82: 0xFF is n + 17 with n = 238; 0x15 has n = 4. -/
theorem test_decode_litf : decode .start [0xFF] = .ok (.litf 238) [] ∧ decode .start [0x15] = .ok (.litf 4) [] := by
  decide
/-- R83: 0000 1111 is NNNN = 15, n = 18. -/
theorem test_decode_lit : decode .literalOrMatch [0x0F] = .ok (.lit 18) [] ∧ encode (.lit 18) = [0x0F] := by decide
/-- R83, R89, and 43_literal_instructions.md R214: 00 F0 after the opcode is 255 + 240 = 495. -/
theorem test_decode_litx :
    decode .literalOrMatch [0x00, 0x00, 0xF0] = .ok (.litx 513) [] ∧ encode (.litx 513) = [0x00, 0x00, 0xF0] := by
  decide
/-- R87: 0000 01 10 with DH = 2: 2049 + 1 + 4 * 2 = 2058, s = 2. -/
theorem test_decode_m1l :
    decode .afterLiteral [0x06, 0x02] = .ok (.m1l 2058 2) [] ∧ encode (.m1l 2058 2) = [0x06, 0x02] := by decide
/-- R87: 0000 01 10 with DH = 2: 1 + 1 + 4 * 2 = 10, s = 2. -/
theorem test_decode_m1 :
    decode .afterTrailing [0x06, 0x02] = .ok (.m1 10 2) [] ∧ encode (.m1 10 2) = [0x06, 0x02] := by decide
/-- R84: 010 110 01 with DH = 3: len 3, dist 1 + 6 + 8 * 3 = 31, s = 1. -/
theorem test_decode_m2 :
    decode .literalOrMatch [0x59, 0x03] = .ok (.m2 31 3 1) [] ∧ encode (.m2 31 3 1) = [0x59, 0x03] := by decide
/-- R85: 001 11111, then 000011 10 and DH = 1: len 33, dist 1 + 3 + 64 = 68, s = 2. -/
theorem test_decode_m3 :
    decode .afterLiteral [0x3F, 0x0E, 0x01] = .ok (.m3 68 33 2) [] ∧ encode (.m3 68 33 2) = [0x3F, 0x0E, 0x01] := by
  decide
/-- R85 and 44_match_instructions.md R235: 20 00 00 00 C5 00 00 is len 33 + 255 * 3 + 197 = 995, dist 1. -/
theorem test_decode_m3x :
    decode .afterLiteral [0x20, 0x00, 0x00, 0x00, 0xC5, 0x00, 0x00] = .ok (.m3x 1 995 0) [] ∧
      encode (.m3x 1 995 0) = [0x20, 0x00, 0x00, 0x00, 0xC5, 0x00, 0x00] := by decide
/-- R86 and R236: 12 04 00 is len 4, dist 16385; 19 00 00 is len 3, dist 32768. -/
theorem test_decode_m4 :
    decode .afterLiteral [0x12, 0x04, 0x00] = .ok (.m4 16385 4 0) [] ∧
      decode .afterLiteral [0x19, 0x00, 0x00] = .ok (.m4 32768 3 0) [] ∧
      encode (.m4 16385 4 0) = [0x12, 0x04, 0x00] := by decide
/-- R86 and R237: 10 01 04 00 is len 10, dist 16385. -/
theorem test_decode_m4x :
    decode .afterLiteral [0x10, 0x01, 0x04, 0x00] = .ok (.m4x 16385 10 0) [] ∧
      encode (.m4x 16385 10 0) = [0x10, 0x01, 0x04, 0x00] := by decide
/-- R88 and R238: 11 00 00 is the canonical marker; 10 05 00 00 and 17 03 00 are markers too. -/
theorem test_decode_eos :
    decode .afterTrailing [0x11, 0x00, 0x00] = .ok (.eos 1 0 0) [] ∧
      decode .literalOrMatch [0x10, 0x05, 0x00, 0x00] = .ok (.eos 0 5 0) [] ∧
      decode .literalOrMatch [0x17, 0x03, 0x00] = .ok (.eos 7 0 3) [] ∧
      encode (.eos 1 0 0) = [0x11, 0x00, 0x00] := by decide
/-- 10_state.md R24: START is bit 2, OP bits 1:0, the rest is ignored. -/
theorem test_decode_commands :
    decode .ctrl [0x04, 0, 0, 0] = .ok .compress [] ∧ decode .ctrl [0xFD, 0xFF, 0, 1] = .ok .decompress [] ∧
      decode .ctrl [0x06, 0, 0, 0] = .ok .compressFramed [] ∧
      decode .ctrl [0x07, 0, 0, 0] = .ok .decompressFramed [] ∧ decode .ctrl [0x03, 0, 0, 0] = .reject .noStart := by
  decide
/-- R81: a first byte of 17 is not consumed; 30_encoding.md R92: operand bytes can be missing. -/
theorem test_decode_rejects :
    decode .start [0x11, 0x00] = .reject .notFirstByteRun ∧ decode .start [] = .reject .noInput ∧
      decode .literalOrMatch [0x00, 0x00] = .reject .truncated ∧ decode .afterLiteral [0x12, 0x04] = .reject .truncated :=
  by decide
/-- The table words of rows that a bare word selects (log entry 16). -/
theorem test_table_words :
    decodeTableWord 8 0x12 = some (.litfs 1) ∧ decodeTableWord 8 0x15 = some (.litf 4) ∧
      decodeTableWord 8 0x01 = some (.lit 4) ∧ decodeTableWord 8 0x08 = some (.m1l 2051 0) ∧
      decodeTableWord 8 0x00 = some (.m1 1 0) ∧ decodeTableWord 8 0x40 = some (.m2 1 3 0) ∧
      decodeTableWord 8 0x21 = some (.m3 1 3 0) ∧ decodeTableWord 8 0x11 = some (.eos 1 0 0) ∧
      decodeTableWord 8 0x04 = some .compress ∧ decodeTableWord 8 0x07 = some .decompressFramed := by decide +kernel

/-! One step of each instruction. -/

/-- R212: 12 78 11 00 00 with C = 1. -/
theorem test_litfs :
    (nextOf (step (decoding .start 0 0 1 0 [0x12, 0x78, 0x11, 0x00, 0x00] []))).map
        (fun s => (decodeView 0 1 s, s.d.t)) =
      some ((3, 1, .expectMatch .afterTrailing, [0x78]), 0x11) := by decide +kernel
/-- R211: 16 61 62 63 64 65 11 00 00 with C = 5. -/
theorem test_litf :
    (nextOf (step (decoding .start 0 0 5 0 [0x16, 0x61, 0x62, 0x63, 0x64, 0x65, 0x11, 0x00, 0x00] []))).map
        (decodeView 0 5) = some (6, 5, .expectMatch .afterLiteral, [0x61, 0x62, 0x63, 0x64, 0x65]) := by decide +kernel
/-- R217: the same with C = 4 is OutputOverrun at d.ip = 1, d.op = 0. -/
theorem test_litf_output_overrun :
    (nextOf (step (decoding .start 0 0 4 0 [0x16, 0x61, 0x62, 0x63, 0x64, 0x65, 0x11, 0x00, 0x00] []))).map
        (fun s => (s.d.state, hostView s)) = some (.error .outputOverrun, 0x14, 0, 1, 0) := by decide +kernel
/-- R213: 01 61 62 63 64 11 00 00 with C = 4. -/
theorem test_lit :
    (nextOf (step (decoding .expectLiteralOrMatch 0 0 4 0 [0x01, 0x61, 0x62, 0x63, 0x64, 0x11, 0x00, 0x00] []))).map
        (decodeView 0 4) = some (5, 4, .expectMatch .afterLiteral, [0x61, 0x62, 0x63, 0x64]) := by decide +kernel
/-- R216: 01 61 62 63 64 with C = 4 lacks the byte after the run: InputOverrun at d.ip = 1. -/
theorem test_lit_input_overrun :
    (nextOf (step (decoding .expectLiteralOrMatch 0 0 4 0 [0x01, 0x61, 0x62, 0x63, 0x64] []))).map
        (fun s => (s.d.state, hostView s)) = some (.error .inputOverrun, 0x24, 0, 1, 0) := by decide +kernel
/-- R214: 00 01 + 19 bytes + 11 00 00 with C = 19. -/
theorem test_litx :
    (nextOf (step (decoding .expectLiteralOrMatch 0 0 19 0
        ([0x00, 0x01] ++ List.replicate 19 0x7A ++ [0x11, 0x00, 0x00]) []))).map (decodeView 17 2) =
      some (21, 19, .expectMatch .afterLiteral, [0x7A, 0x7A]) := by decide +kernel
/-- R214: a continuation of zero bytes that never ends is InputOverrun at the end of the input. -/
theorem test_litx_input_overrun :
    (nextOf (step (decoding .expectLiteralOrMatch 0 0 19 0 [0x00, 0x00, 0x00] []))).map
        (fun s => (s.d.state, hostView s)) = some (.error .inputOverrun, 0x24, 0, 3, 0) := by decide +kernel
/-- R231: 14 61 62 63 00 00 11 00 00 with C = 5: M1 copies the last byte twice. -/
theorem test_m1 :
    (nextOf (step (decoding (.expectMatch .afterTrailing) 5 3 5 0x00
        [0x14, 0x61, 0x62, 0x63, 0x00, 0x00, 0x11, 0x00, 0x00] [0x61, 0x62, 0x63]))).map (decodeView 0 5) =
      some (6, 5, .expectLiteralOrMatch, [0x61, 0x62, 0x63, 0x63, 0x63]) := by decide +kernel
/-- R232: after a run of 2049 bytes, 00 00 copies OUT[0..3) to OUT[2049..2052). -/
theorem test_m1l :
    (nextOf (step (decoding (.expectMatch .afterLiteral) 0 2049 2052 0 [0x00, 0x00, 0x11, 0x00, 0x00]
        [0x61, 0x62, 0x63]))).map (decodeView 2049 3) =
      some (2, 2052, .expectLiteralOrMatch, [0x61, 0x62, 0x63]) := by decide +kernel
/-- R232: 01 61 62 63 64 00 00 11 00 00 with C = 7: LookbehindOverrun at d.ip = 7, d.op = 4. -/
theorem test_m1l_lookbehind :
    (nextOf (step (decoding (.expectMatch .afterLiteral) 5 4 7 0
        [0x01, 0x61, 0x62, 0x63, 0x64, 0x00, 0x00, 0x11, 0x00, 0x00] [0x61, 0x62, 0x63, 0x64]))).map
        (fun s => (s.d.state, hostView s)) = some (.error .lookbehindOverrun, 0x34, 0, 7, 4) := by decide +kernel
/-- R233: 12 61 42 00 62 63 11 00 00 with C = 6 gives "aaaabc": M2 held in d.t, with two trailing literals. -/
theorem test_m2 :
    (nextOf (step (decoding (.expectMatch .afterTrailing) 3 1 6 0x42
        [0x12, 0x61, 0x42, 0x00, 0x62, 0x63, 0x11, 0x00, 0x00] [0x61]))).map
        (fun s => (decodeView 0 6 s, s.d.t)) =
      some ((7, 6, .expectMatch .afterTrailing, [0x61, 0x61, 0x61, 0x61, 0x62, 0x63]), 0x11) := by decide +kernel
/-- R234: 16 61 61 61 61 61 2D 00 00 11 00 00 with C = 20: M3 of length 15 at distance 1. -/
theorem test_m3 :
    (nextOf (step (decoding (.expectMatch .afterLiteral) 6 5 20 0
        [0x16, 0x61, 0x61, 0x61, 0x61, 0x61, 0x2D, 0x00, 0x00, 0x11, 0x00, 0x00]
        [0x61, 0x61, 0x61, 0x61, 0x61]))).map (decodeView 18 2) =
      some (9, 20, .expectLiteralOrMatch, [0x61, 0x61]) := by decide +kernel
/-- R234: the same with C = 19 is OutputOverrun at d.ip = 9, d.op = 5. -/
theorem test_m3_output_overrun :
    (nextOf (step (decoding (.expectMatch .afterLiteral) 6 5 19 0
        [0x16, 0x61, 0x61, 0x61, 0x61, 0x61, 0x2D, 0x00, 0x00, 0x11, 0x00, 0x00]
        [0x61, 0x61, 0x61, 0x61, 0x61]))).map (fun s => (s.d.state, hostView s)) =
      some (.error .outputOverrun, 0x14, 0, 9, 5) := by decide +kernel
/-- R235: 12 61 20 01 00 00 11 00 00 with C = 35: M3X of length 34 at distance 1. -/
theorem test_m3x :
    (nextOf (step (decoding (.expectMatch .afterTrailing) 3 1 35 0x20
        [0x12, 0x61, 0x20, 0x01, 0x00, 0x00, 0x11, 0x00, 0x00] [0x61]))).map (decodeView 33 2) =
      some (6, 35, .expectLiteralOrMatch, [0x61, 0x61]) := by decide +kernel
/-- R236: after a run of 16385 bytes, 12 04 00 copies OUT[0..4) to OUT[16385..16389). -/
theorem test_m4 :
    (nextOf (step (decoding (.expectMatch .afterLiteral) 0 16385 16389 0 [0x12, 0x04, 0x00, 0x11, 0x00, 0x00]
        [0x61, 0x62, 0x63, 0x64]))).map (decodeView 16385 4) =
      some (3, 16389, .expectLiteralOrMatch, [0x61, 0x62, 0x63, 0x64]) := by decide +kernel
/-- R236: 11 04 00 11 00 00 with C = 10: LookbehindOverrun at d.ip = 3, d.op = 0. -/
theorem test_m4_lookbehind :
    (nextOf (step (decoding .expectLiteralOrMatch 0 0 10 0 [0x11, 0x04, 0x00, 0x11, 0x00, 0x00] []))).map
        (fun s => (s.d.state, hostView s)) = some (.error .lookbehindOverrun, 0x34, 0, 3, 0) := by decide +kernel
/-- R237: after a run of 16385 bytes, 10 01 04 00 copies 10 bytes from distance 16385. -/
theorem test_m4x :
    (nextOf (step (decoding (.expectMatch .afterLiteral) 0 16385 16395 0 [0x10, 0x01, 0x04, 0x00, 0x11, 0x00, 0x00]
        [0, 1, 2, 3, 4, 5, 6, 7, 8, 9]))).map (decodeView 16385 10) =
      some (4, 16395, .expectLiteralOrMatch, [0, 1, 2, 3, 4, 5, 6, 7, 8, 9]) := by decide +kernel
/-- R238: 11 00 00 with C = 0 ends in End with OUT_LEN = 0. -/
theorem test_eos :
    (nextOf (step (decoding .expectLiteralOrMatch 0 0 0 0 [0x11, 0x00, 0x00] []))).map
        (fun s => (s.d.state, hostView s)) = some (.ended, 0x02, 0, 3, 0) := by decide +kernel
/-- R238: 16 61 62 63 64 65 11 00 00 00 with C = 5: InputNotConsumed at d.ip = 9. -/
theorem test_eos_input_not_consumed :
    (nextOf (step (decoding (.expectMatch .afterLiteral) 6 5 5 0
        [0x16, 0x61, 0x62, 0x63, 0x64, 0x65, 0x11, 0x00, 0x00, 0x00] [0x61, 0x62, 0x63, 0x64, 0x65]))).map
        (fun s => (s.d.state, hostView s)) = some (.error .inputNotConsumed, 0x54, 0, 9, 5) := by decide +kernel
/-- R187, D11: the empty stream is EofMarkerNotFound. -/
theorem test_empty_stream :
    (nextOf (step (decoding .start 0 0 0 0 [] []))).map (fun s => (s.d.state, hostView s)) =
      some (.error .eofMarkerNotFound, 0x44, 0, 0, 0) := by decide +kernel
/-- R216: 12 78 11 with C = 1 ends in EofMarkerNotFound at d.ip = 3. -/
theorem test_held_opcode_is_last :
    (nextOf (step (decoding (.expectMatch .afterTrailing) 3 1 1 0x11 [0x12, 0x78, 0x11] [0x78]))).map
        (fun s => (s.d.state, hostView s)) = some (.error .eofMarkerNotFound, 0x44, 0, 3, 1) := by decide +kernel

/-- R270, R271: COMPRESS starts. -/
theorem test_compress :
    (nextOf (step (idleWith 20 0 [] [.host (.writeReg 0 4)]))).map
        (fun s => (hostView s, s.mode, s.e.L, s.e.ip, s.e.op)) =
      some ((0x01, 0, 0, 0), .compressing .compress, 20, 4, 0) := by decide +kernel
/-- R275: COMPRESS with OUT_BOUND(61600) = 65517 fits OUT_SIZE = 65536; with 61620 it is 65538 and is refused. -/
theorem test_compress_refused :
    (nextOf (step (idleWith 61600 0 [] [.host (.writeReg 0 4)]))).map hostView = some (0x01, 0, 0, 0) ∧
    (nextOf (step (idleWith 61620 0 [] [.host (.writeReg 0 4)]))).map hostView = some (0x64, 0, 0, 0) := by
  decide +kernel
/-- R272: DECOMPRESS starts at the beginning of IN with the capacity of DST_CAP. -/
theorem test_decompress :
    (nextOf (step (idleWith 3 7 [0x11, 0x00, 0x00] [.host (.writeReg 0 5)]))).map
        (fun s => (s.mode, s.d.N, s.d.C, s.d.ip, s.d.op)) =
      some (.decompressing .decompress, 3, 7, 0, 0) := by decide +kernel
/-- R275: DST_CAP = 65537 exceeds OUT_SIZE. -/
theorem test_decompress_refused :
    (nextOf (step (idleWith 3 65537 [0x11, 0x00, 0x00] [.host (.writeReg 0 5)]))).map hostView =
      some (0x64, 0, 0, 0) := by decide +kernel
/-- R273: the header is the source length, lowest byte first. -/
theorem test_compress_framed :
    (nextOf (step (idleWith 0x0314 0 [] [.host (.writeReg 0 6)]))).map (fun s => (s.mode, s.readOut 0 4)) =
      some (.compressing .compressFramed, [0x14, 0x03, 0x00, 0x00]) := by decide +kernel
/-- R274: the capacity comes from the header, and the stream starts behind it. -/
theorem test_decompress_framed :
    (nextOf (step (idleWith 7 0 [0x05, 0x01, 0x00, 0x00, 0x11, 0x00, 0x00] [.host (.writeReg 0 7)]))).map
        (fun s => (s.mode, s.d.N, s.d.C, s.inBase)) = some (.decompressing .decompressFramed, 3, 0x0105, 4) := by
  decide +kernel
/-- R274, D29: a container of 3 bytes is InputOverrun with both positions 0. -/
theorem test_decompress_framed_short :
    (nextOf (step (idleWith 3 0 [0, 0, 0] [.host (.writeReg 0 7)]))).map (fun s => (s.mode, hostView s)) =
      some (.idle, 0x24, 0, 0, 0) := by decide +kernel

/-! The match finder and the encoder. -/

/-- R8: the default POS_BITS of the default MAX_LEN is 32; a width below 14, or one that MAX_LEN does not fit in, is refused. -/
theorem test_posBits :
    Params.default.posBits = 32 ∧ Params.default.ok = true ∧ { Params.default with posBits := 31 }.ok = false ∧
      { Params.default with maxLen := 8, inSize := 8, outSize := 79, posBits := 13 }.ok = false ∧
      { Params.default with maxLen := 8, inSize := 8, outSize := 79, posBits := 14 }.ok = true := by decide +kernel
/-- R110, R112: index('a','a','a','a') = 0x0C83 and its fallback slot is 0x249C. -/
theorem test_hash : hashIndex 0x61 0x61 0x61 0x61 = 0x0C83 ∧ rehash 0x0C83 = 0x249C := by decide
/-- R125: with 20 bytes of 'a', probe(4) finds an empty slot and writes it. -/
theorem test_probe_4 :
    (nextOf (step (encoding 20 4 0 0 [] (List.replicate 20 0x61) []))).map (fun s => (s.table, s.e.ip, s.e.op)) =
      some ([(0x0C83, 4)], 5, 0) := by decide +kernel
/-- R125, R148, R153: probe(5) finds dist 1, len 15; the run of 5 and the match are written 16 61*5 2D 00 00. -/
theorem test_probe_5 :
    (nextOf (step (encoding 20 5 0 0 [(0x0C83, 4)] (List.replicate 20 0x61) []))).map
        (fun s => (s.table, s.e, s.readOut 0 9)) =
      some ([(0x0C83, 5)], { L := 20, ip := 20, ii := 20, op := 9 },
        [0x16, 0x61, 0x61, 0x61, 0x61, 0x61, 0x2D, 0x00, 0x00]) := by decide +kernel
/-- R157, R278: the final step writes the terminator and completes with OUT_LEN = 12. -/
theorem test_final_step :
    (nextOf (step (encoding 20 20 20 9 [] (List.replicate 20 0x61)
        [0x16, 0x61, 0x61, 0x61, 0x61, 0x61, 0x2D, 0x00, 0x00]))).map
        (fun s => (s.mode, hostView s, s.readOut 9 3)) =
      some (.idle, (0x02, 12, 20, 12), [0x11, 0x00, 0x00]) := by decide +kernel
/-- R145: after the M2 bytes 40 00, a tail run of 2 makes them 42 00. -/
theorem test_patch :
    ((encoding 22 20 20 2 [] [] [0x40, 0x00]).emitLiterals 20 22 true).map (fun s => (s.e.op, s.readOut 0 2)) =
      some (4, [0x42, 0x00]) := by decide +kernel
/-- R152, R154: the examples of the two rules. -/
theorem test_match_bytes :
    encode (matchForm 1 3) = [0x40, 0x00] ∧ encode (matchForm 1 15) = [0x2D, 0x00, 0x00] ∧
      encode (matchForm 16385 4) = [0x12, 0x04, 0x00] ∧ encode (matchForm 49151 3) = [0x19, 0xFC, 0xFF] := by decide
/-- R142: COMPRESS of the empty source writes 11 00 00. -/
theorem test_empty_source :
    (nextOf (step (encoding 0 0 0 0 [] [] []))).map (fun s => (hostView s, s.readOut 0 3)) =
      some ((0x02, 3, 0, 3), [0x11, 0x00, 0x00]) := by decide +kernel

/-! The host's port, reset, and placing an instruction. -/

/-- R24, R31: CTRL with START = 0 and register 7 are ignored; R334: IN_LEN must not be written while busy. -/
theorem test_host_writes :
    (nextOf (step (idleWith 1 2 [] [.host (.writeReg 0 3)]))).map (fun s => (s.mode, s.regs.inLen)) = some (.idle, 1) ∧
      (nextOf (step (idleWith 1 2 [] [.host (.writeReg 2 9)]))).map (fun s => s.hostReadReg 2) = some 9 ∧
      nextOf (step { decoding .start 0 0 1 0 [0x11] [] with turns := [.host (.writeReg 2 9)] }) = none := by
  decide +kernel
/-- R330: reset abandons a running decode. -/
theorem test_reset :
    (nextOf (step { decoding .start 0 0 1 0 [0x11] [] with turns := [.host .reset] })).map
        (fun s => (s.mode, hostView s)) = some (.idle, 0, 0, 0, 0) := by decide +kernel
/-- The step after placing LITF 5 runs it (log entry 16). -/
theorem test_withFetchWord_stream :
    nextOf (step (State.reset.withFetchWord 16 0x6116)) =
      nextOf (exec (.litf 5) ((State.reset.withFetchWord 16 0x6116).setTurns [] |>.setIp 1)) := by decide +kernel
/-- The step after placing COMPRESS runs it (log entry 16). -/
theorem test_withFetchWord_command :
    nextOf (step (State.reset.withFetchWord 8 4)) = nextOf (exec .compress State.reset) := by decide +kernel

/-! Witnesses: for each statement with hypotheses, a state and operands that meet all of them, at a boundary of each
clause.  -/

/-- The engine moves in a state without queued turns. -/
theorem test_wit_engine (s : State) (h : s.turns = []) : EngineNext s s := .inl ⟨h, rfl⟩

/-- The host acts first in a state whose queue starts with its action. -/
theorem test_wit_host (s : State) (a : HostAction) : HostNext { s with turns := [.host a] } (s.setTurns []) a :=
  ⟨[], rfl, rfl⟩

/-- A running decode in the middle of its stream. -/
def midStream : State := decoding (.expectMatch .afterTrailing) 3 1 35 0x20
  [0x12, 0x61, 0x20, 0x01, 0x00, 0x00, 0x11, 0x00, 0x00] [0x61]

/-- A running compression before its second probe. -/
def midScan : State := encoding 20 5 0 0 [(0x0C83, 4)] (List.replicate 20 0x61) []

/-- A running compression before its first probe. -/
def firstProbe : State := encoding 20 4 0 0 [] (List.replicate 20 0x61) []

/-- A running compression before its final step. -/
def lastStep : State := encoding 20 20 20 9 [] (List.replicate 20 0x61)
  [0x16, 0x61, 0x61, 0x61, 0x61, 0x61, 0x2D, 0x00, 0x00]

theorem test_wit_midStream_inv : midStream.Inv where
  cfg := by decide +kernel
  status := ⟨by decide, by decide, by decide, by decide, by decide, by decide, by decide⟩
  memory := ⟨by decide, by decide, by decide, by decide, by decide, by decide⟩
  decode := fun op h => by
    cases h
    exact ⟨.inl rfl, ⟨by decide, by decide, by decide, by decide, by decide, by decide, by decide⟩⟩
  encode := fun op h => by cases h

theorem test_wit_midScan_inv : midScan.Inv where
  cfg := by decide +kernel
  status := ⟨by decide, by decide, by decide, by decide, by decide, by decide, by decide⟩
  memory := ⟨by decide, by decide, by decide, by decide, by decide, by decide +kernel⟩
  decode := fun op h => by cases h
  encode := fun op h => by
    cases h
    exact ⟨.inl rfl, ⟨by decide, by decide, by decide, by decide, by decide, by decide, by decide⟩⟩

theorem test_wit_firstProbe_inv : firstProbe.Inv where
  cfg := by decide +kernel
  status := ⟨by decide, by decide, by decide, by decide, by decide, by decide, by decide⟩
  memory := ⟨by decide, by decide, by decide, by decide, by decide, by decide⟩
  decode := fun op h => by cases h
  encode := fun op h => by
    cases h
    exact ⟨.inl rfl, ⟨by decide, by decide, by decide, by decide, by decide, by decide, by decide⟩⟩

theorem test_wit_lastStep_inv : lastStep.Inv where
  cfg := by decide +kernel
  status := ⟨by decide, by decide, by decide, by decide, by decide, by decide, by decide⟩
  memory := ⟨by decide, by decide, by decide, by decide, by decide, by decide⟩
  decode := fun op h => by cases h
  encode := fun op h => by
    cases h
    exact ⟨.inl rfl, ⟨by decide, by decide, by decide, by decide, by decide, by decide, by decide⟩⟩

/-- An idle block with a source or a stream in IN meets the invariant. -/
theorem test_wit_idle_inv (inLen dstCap : Word) (bytes : List Byte) (turns : List Turn)
    (h : bytes.length ≤ 65536) : (idleWith inLen dstCap bytes turns).Inv where
  cfg := test_wit_midStream_inv.cfg
  status :=
    have k : StatusInv State.reset :=
      ⟨by decide, by decide, by decide, by decide, by decide, by decide, by decide⟩
    ⟨k.oneBit, k.noKind, k.kind, k.busy, k.busyRegs, k.errorLen, k.doneLen⟩
  memory := ⟨Memory.wf_ofBytes 0 bytes, .nil, .nil,
    fun cell hc => by
      have := (Memory.mem_ofBytes 0 bytes cell hc).2
      show cell.1 < 65536
      omega,
    fun _ hc => absurd hc List.not_mem_nil, fun _ hc => absurd hc List.not_mem_nil⟩
  decode := fun op h => by cases h
  encode := fun op h => by cases h

theorem test_wit_DecodingAnEncodedInstructionGivesItBack :
    (Instr.m2 2048 8 3).wf = true ∧ (Instr.m2 2048 8 3).inTable .afterLiteral = true ∧
      (Instr.litx 19).wf = true ∧ (Instr.litx 19).inTable .literalOrMatch = true := by decide
theorem test_wit_EveryStreamInstructionHasOneEncoding :
    DecodeTable.afterTrailing ≠ .ctrl ∧
      decode .afterTrailing [0x18, 0x00, 0x01, 0xFF, 0xFF, 0x07] = .ok (.m4x 49151 265 3) [0x07] := by decide
theorem test_wit_NoByteValueIsIllegal : 18 ≤ (0x12 : Byte).toNat ∧ (0x11 : Byte).toNat ≤ 17 := by decide
theorem test_wit_AContinuationHasOneValueAndOneForm :
    readExt (continuation 1 ++ [0x09]) = some (1, [0x09]) ∧ readExt [0x00, 0x01, 0x09] = some (256, [0x09]) := by decide

/-- One state for each of the four tables. -/
theorem test_wit_AStepRunsTheDecodedInstruction :
    (decoding .start 0 0 1 0 [0x12, 0x78, 0x11] []).decodeBounds = true ∧
    decode .start ([] ++ (decoding .start 0 0 1 0 [0x12, 0x78, 0x11] []).streamRest) = .ok (.litfs 1) [0x78, 0x11] ∧
    decode .literalOrMatch ([] ++ (decoding .expectLiteralOrMatch 1 0 1 0 [0, 0x11, 0, 0] []).streamRest) =
      .ok (.eos 1 0 0) [] ∧
    decode .afterLiteral ([] ++ (decoding (.expectMatch .afterLiteral) 1 0 1 0 [0, 0x11, 0, 0] []).streamRest) =
      .ok (.eos 1 0 0) [] ∧
    midStream.d.ip < midStream.d.N ∧
    decode .afterTrailing ([midStream.d.t] ++ midStream.streamRest) = .ok (.m3x 1 34 0) [0x11, 0x00, 0x00] := by
  decide +kernel
theorem test_wit_ACtrlWriteRunsTheSelectedCommand :
    (0xFFFFFFFC : Word).toNat % 8 = 4 ∧ (0x5 : Word).toNat % 8 = 5 ∧ (0xE : Word).toNat % 8 = 6 ∧
      (0xFFFFFFFF : Word).toNat % 8 = 7 ∧ (0xFFFFFFFB : Word).toNat % 8 < 4 := by decide
theorem test_wit_ASmallFirstByteIsPassedOn :
    let u := decoding .start 0 0 1 0 [0x11] []
    EngineNext u u ∧ u.mode = .decompressing .decompress ∧ u.decodeBounds = true ∧ u.d.state = .start ∧ u.d.ip = 0 ∧
      1 ≤ u.d.N ∧ (u.inByte u.inBase).toNat ≤ 17 :=
  ⟨test_wit_engine _ rfl, rfl, by decide +kernel, rfl, rfl, by decide, by decide⟩
theorem test_wit_AHeaderCutShortRaisesInputOverrun :
    let u := decoding (.expectMatch .afterTrailing) 1 0 1 0x12 [0x12, 0x04] []
    EngineNext u u ∧ u.mode = .decompressing .decompress ∧ u.decodeBounds = true ∧
      u.d.state.table = some .afterTrailing ∧ u.d.ip < u.d.N ∧
      decode .afterTrailing ([u.d.t] ++ u.streamRest) = .reject .truncated :=
  ⟨test_wit_engine _ rfl, rfl, by decide +kernel, rfl, by decide, by decide +kernel⟩
theorem test_wit_AHeaderCutShort_notHeld :
    let u := decoding .expectLiteralOrMatch 0 0 1 0 [0x00] []
    u.decodeBounds = true ∧ u.d.state.table = some .literalOrMatch ∧ u.d.ip < u.d.N ∧
      decode .literalOrMatch ([] ++ u.streamRest) = .reject .truncated := by decide +kernel
theorem test_wit_NoInputForAnInstruction :
    (decoding .start 0 0 0 0 [] []).decodeBounds = true ∧ (decoding .start 0 0 0 0 [] []).d.N = 0 ∧
    (decoding .expectLiteralOrMatch 2 0 0 0 [1, 2] []).decodeBounds = true ∧
    (decoding .expectLiteralOrMatch 2 0 0 0 [1, 2] []).d.N ≤ (decoding .expectLiteralOrMatch 2 0 0 0 [1, 2] []).d.ip ∧
    (decoding (.expectMatch .afterTrailing) 2 0 0 0 [1, 2] []).decodeBounds = true ∧
    (decoding (.expectMatch .afterTrailing) 2 0 0 0 [1, 2] []).d.N ≤
      (decoding (.expectMatch .afterTrailing) 2 0 0 0 [1, 2] []).d.ip := by decide +kernel

/-- The run fits exactly, in both memories. -/
theorem test_wit_LiteralRuns :
    let s := decoding .expectLiteralOrMatch 1 2 6 0 [0, 1, 2, 3, 4, 5] [7, 7]
    s.decodeBounds = true ∧ s.d.op + 4 ≤ s.d.C ∧ 4 + 1 ≤ s.d.N - s.d.ip := by decide +kernel
/-- One byte too many, first for the output, then for the input. -/
theorem test_wit_ALiteralRunChecksOutputThenInput :
    let s := decoding .expectLiteralOrMatch 1 2 6 0 [0, 1, 2, 3, 4] [7, 7]
    s.decodeBounds = true ∧ s.d.C < s.d.op + 5 ∧ s.d.op + 4 ≤ s.d.C ∧ s.d.N - s.d.ip < 4 + 1 := by decide +kernel

/-- A match at the first byte of OUT that fills the destination. -/
theorem test_wit_AMatchWithoutTrailingLiteralsCopies :
    let s := decoding .expectLiteralOrMatch 1 2 5 0 [0, 1] [7, 7]
    s.decodeBounds = true ∧ 1 ≤ 2 ∧ 2 ≤ s.d.op ∧ s.d.op + 3 ≤ s.d.C := by decide +kernel
theorem test_wit_AMatchWithoutTrailingLiteralsCopies_far :
    let s := decoding .expectLiteralOrMatch 1 16385 16395 0 [0, 1] []
    s.decodeBounds = true ∧ 1 ≤ 16385 ∧ 16385 ≤ s.d.op ∧ s.d.op + 10 ≤ s.d.C := by decide +kernel
theorem test_wit_AMatchWithTrailingLiteralsCopiesBoth :
    let s := decoding .expectLiteralOrMatch 1 2 8 0 [0, 1, 2, 3, 4] [7, 7]
    s.decodeBounds = true ∧ 1 ≤ 2 ∧ 2 ≤ s.d.op ∧ s.d.op + 3 + 3 ≤ s.d.C ∧ 3 + 1 ≤ s.d.N - s.d.ip := by decide +kernel
theorem test_wit_AMatchChecksLookbehindThenOutput :
    let s := decoding .expectLiteralOrMatch 1 2 4 0 [0, 1] [7, 7]
    s.decodeBounds = true ∧ s.d.op < 3 ∧ 2 ≤ s.d.op ∧ s.d.C < s.d.op + 3 := by decide +kernel
theorem test_wit_TrailingLiteralsThatDoNotFitStopTheMatch :
    let s := decoding .expectLiteralOrMatch 1 2 6 0 [0, 1] [7, 7]
    s.decodeBounds = true ∧ 2 ≤ s.d.op ∧ s.d.op + 3 ≤ s.d.C ∧ s.d.C < s.d.op + 3 + 2 ∧
      s.d.op + 3 + 1 ≤ s.d.C ∧ s.d.N - s.d.ip < 1 + 1 := by decide +kernel
theorem test_wit_AnOverlappingCopyRepeatsItsPeriod : 1 ≤ 1 ∧ 1 ≤ midStream.d.op := by decide
theorem test_wit_EosAtTheEndOfTheInput :
    let s := decoding .expectLiteralOrMatch 3 0 0 0 [0x11, 0, 0] []
    s.decodeBounds = true ∧ s.d.ip = s.d.N := by decide +kernel
theorem test_wit_EosBeforeTheEndOfTheInput :
    let s := decoding .expectLiteralOrMatch 3 0 0 0 [0x11, 0, 0, 0] []
    s.decodeBounds = true ∧ s.d.ip < s.d.N := by decide +kernel
theorem test_wit_StreamInstructionsKeepEverythingElse :
    let s := decoding .expectLiteralOrMatch 1 0 4 0 [0, 1, 2, 3, 4, 5] []
    ∃ t, exec (.lit 4) s = .next t ∧ t.mode ≠ .idle := ⟨_, rfl, by decide⟩

/-- `OUT_BOUND(61618) = 65536` fits OUT exactly; a framed source has 4 bytes less. -/
theorem test_wit_CompressStarts :
    let s := idleWith 61618 0 [] []
    s.regs.status.busy = false ∧ s.regs.inLen.toNat ≤ s.cfg.inSize ∧ s.regs.inLen.toNat ≤ s.cfg.maxLen ∧
      outBound s.regs.inLen.toNat ≤ s.cfg.outSize := by decide +kernel
theorem test_wit_CompressFramedWritesItsHeader :
    let s := idleWith 61615 0 [] []
    s.regs.status.busy = false ∧ s.regs.inLen.toNat ≤ s.cfg.inSize ∧ s.regs.inLen.toNat ≤ s.cfg.maxLen ∧
      4 + outBound s.regs.inLen.toNat ≤ s.cfg.outSize := by decide +kernel
theorem test_wit_DecompressStartsTheDecoder :
    let s := idleWith 65536 65536 [] []
    s.regs.status.busy = false ∧ s.regs.inLen.toNat ≤ s.cfg.inSize ∧ s.regs.inLen.toNat ≤ s.cfg.maxLen ∧
      s.regs.dstCap.toNat ≤ s.cfg.outSize ∧ s.regs.dstCap.toNat ≤ s.cfg.maxLen := by decide +kernel
theorem test_wit_DecompressFramedTakesItsCapacity :
    let s := idleWith 4 0 [0x00, 0x00, 0x01, 0x00] []
    s.regs.status.busy = false ∧ s.regs.inLen.toNat ≤ s.cfg.inSize ∧ s.regs.inLen.toNat ≤ s.cfg.maxLen ∧
      4 ≤ s.regs.inLen.toNat ∧ le32 (s.inByte 0) (s.inByte 1) (s.inByte 2) (s.inByte 3) ≤ s.cfg.outSize ∧
      le32 (s.inByte 0) (s.inByte 1) (s.inByte 2) (s.inByte 3) ≤ s.cfg.maxLen := by decide +kernel
theorem test_wit_AContainerShorterThanItsHeader :
    let s := idleWith 3 0 [] []
    s.regs.status.busy = false ∧ s.regs.inLen.toNat ≤ s.cfg.inSize ∧ s.regs.inLen.toNat ≤ s.cfg.maxLen ∧
      s.regs.inLen.toNat < 4 := by decide +kernel
/-- One byte too many, for each check. -/
theorem test_wit_ACommandThatDoesNotFitIsRefused :
    (idleWith 65537 0 [] []).regs.status.busy = false ∧ 65536 < (idleWith 65537 0 [] []).regs.inLen.toNat ∧
      65536 < outBound (idleWith 61619 0 [] []).regs.inLen.toNat ∧
      65536 < 4 + outBound (idleWith 61616 0 [] []).regs.inLen.toNat ∧
      65536 < (idleWith 0 65537 [] []).regs.dstCap.toNat := by decide +kernel
theorem test_wit_ACommandThatDoesNotFit_header :
    let s := idleWith 4 0 [0x01, 0x00, 0x01, 0x00] []
    4 ≤ s.regs.inLen.toNat ∧ s.cfg.outSize < le32 (s.inByte 0) (s.inByte 1) (s.inByte 2) (s.inByte 3) := by
  decide +kernel
theorem test_wit_ACommandThatDoesNotFit_maxLen :
    let s := { idleWith 9 9 [] [] with cfg := { Params.default with maxLen := 8, inSize := 8, outSize := 79 } }
    s.cfg.maxLen < s.regs.inLen.toNat ∧ s.cfg.maxLen < s.regs.dstCap.toNat := by decide +kernel
theorem test_wit_ACommandIsIgnoredWhileBusy :
    midStream.regs.status.busy = true ∧
      HostNext { midStream with turns := [.host (.writeReg 0 0xFFFFFFFF)] } (midStream.setTurns [])
        (.writeReg 0 0xFFFFFFFF) := ⟨rfl, test_wit_host _ _⟩
theorem test_wit_HostWrites :
    (idleWith 1 2 [] []).regs.status.busy = false ∧ 65535 < (idleWith 1 2 [] []).cfg.inSize ∧
      65535 < (idleWith 1 2 [] []).cfg.outSize ∧
      HostNext (idleWith 1 2 [] [.host (.writeIn 65535 1)]) (idleWith 1 2 [] []) (.writeIn 65535 1) ∧
      HostNext (idleWith 1 2 [] [.host (.writeReg 1 9)]) (idleWith 1 2 [] []) (.writeReg 1 9) ∧
      HostNext (idleWith 1 2 [] [.host (.writeReg 4 9)]) (idleWith 1 2 [] []) (.writeReg 4 9) :=
  ⟨rfl, by decide, by decide, ⟨[], rfl, rfl⟩, ⟨[], rfl, rfl⟩, ⟨[], rfl, rfl⟩⟩
theorem test_wit_AHostWriteWhileBusyHasNoStep :
    midStream.regs.status.busy = true ∧ 65535 < midStream.cfg.inSize ∧ 65535 < midStream.cfg.outSize ∧
      HostNext { midStream with turns := [.host (.writeReg 3 9)] } (midStream.setTurns []) (.writeReg 3 9) ∧
      HostNext { midStream with turns := [.host (.writeOut 65535 9)] } (midStream.setTurns []) (.writeOut 65535 9) :=
  ⟨rfl, by decide, by decide, test_wit_host _ _, test_wit_host _ _⟩
theorem test_wit_AHostReadHasNoSideEffect :
    HostNext { midStream with turns := [.host (.read (.outByte 65535))] } (midStream.setTurns [])
      (.read (.outByte 65535)) ∧ HostDuty (midStream.setTurns []) (.read (.outByte 65535)) :=
  ⟨test_wit_host _ _, by show 65535 < 65536; omega⟩
theorem test_wit_ResetAbandonsARunningOperation :
    HostNext { midStream with turns := [.host .reset] } (midStream.setTurns []) .reset := test_wit_host _ _
theorem test_wit_AnIdleEngineHoldsEverything :
    EngineNext (idleWith 1 2 [] []) (idleWith 1 2 [] []) ∧ (idleWith 1 2 [] []).mode = .idle :=
  ⟨test_wit_engine _ rfl, rfl⟩
/-- Where no decode runs, the invariant asks nothing of the decoder state. -/
theorem test_wit_setDState_inv (s : State) (x : DState) (h : s.Inv) (idle : ∀ op, s.mode ≠ .decompressing op) :
    (s.setDState x).Inv where
  cfg := h.cfg
  status := ⟨h.status.oneBit, h.status.noKind, h.status.kind, h.status.busy, h.status.busyRegs, h.status.errorLen,
    h.status.doneLen⟩
  memory := ⟨h.memory.inWf, h.memory.outWf, h.memory.tableWf, h.memory.inSize, h.memory.outSize, h.memory.table⟩
  decode := fun op hm => absurd hm (idle op)
  encode := fun op hm =>
    have e := (h.encode op hm).2
    ⟨(h.encode op hm).1, e.source, e.room, e.written, e.opened, e.short, e.scan, e.positions⟩
/-- A block whose last decode ended in `End`. -/
theorem test_wit_NoEngineStepLeavesATerminalState :
    let u := (idleWith 1 2 [] []).setDState .ended
    u.Inv ∧ u.d.state = .ended ∧ EngineNext u u ∧ ∃ t, step u = .next t :=
  ⟨test_wit_setDState_inv _ _ (test_wit_idle_inv 1 2 [] [] (by decide)) (fun _ h => by cases h), rfl,
    test_wit_engine _ rfl, _, rfl⟩
/-- A block that compresses after a decode that ended in an error. -/
theorem test_wit_NoEngineStepLeavesATerminalState_compressing :
    let u := midScan.setDState (.error .inputOverrun)
    u.Inv ∧ u.d.state = .error .inputOverrun ∧ EngineNext u u ∧ ∃ t, step u = .next t :=
  ⟨test_wit_setDState_inv _ _ test_wit_midScan_inv (fun _ h => by cases h), rfl, test_wit_engine _ rfl, _, rfl⟩

theorem test_wit_EveryMatchFoundAgreesWithTheSource :
    5 + 9 ≤ midScan.e.L ∧ midScan.probe 5 = (0x0C83, .hit 1 15) := by decide +kernel
/-- The last probed position of a source, 9 bytes before its end. -/
theorem test_wit_EveryMatchFound_atTheEnd :
    let s := encoding 14 5 0 0 [(0x0C83, 4)] (List.replicate 14 0x61) []
    5 + 9 ≤ s.e.L ∧ s.probe 5 = (0x0C83, .hit 1 9) := by decide +kernel
/-- A far candidate that differs in the 4th byte: the fallback slot is looked up and, under `last_probed`, written. -/
theorem test_wit_AProbeWritesItsSlot :
    let s := { State.reset with
      cfg := { Params.default with updateSlot := .lastProbed }
      table := [(hashIndex 1 2 3 4, 0)]
      inMem := [(0, 1), (1, 2), (2, 3), (3, 9), (2049, 1), (2050, 2), (2051, 3), (2052, 4)] }
    s.probe 2049 = (rehash (hashIndex 1 2 3 4), .noMatch) ∧ s.candidate (s.indexAt 2049) 2049 = some 0 ∧
      2048 < 2049 - 0 ∧ s.inByte (0 + 3) ≠ s.inByte (2049 + 3) := by decide +kernel
theorem test_wit_AProbeWritesItsSlot_near :
    let s := { midScan with cfg := { Params.default with updateSlot := .lastProbed } }
    s.probe 5 = (s.indexAt 5, .hit 1 15) ∧ s.candidate (s.indexAt 5) 5 = some 4 ∧ 5 - 4 ≤ 2048 := by decide +kernel
theorem test_wit_AProbeWithoutAMatch :
    EngineNext firstProbe firstProbe ∧ firstProbe.mode = .compressing .compress ∧ firstProbe.Inv ∧
      firstProbe.scanDone = false ∧ firstProbe.probe firstProbe.e.ip = (0x0C83, .noMatch) :=
  ⟨test_wit_engine _ rfl, rfl, test_wit_firstProbe_inv, by decide, by decide +kernel⟩
theorem test_wit_AProbeWithAMatch :
    EngineNext midScan midScan ∧ midScan.mode = .compressing .compress ∧ midScan.Inv ∧ midScan.scanDone = false ∧
      midScan.probe midScan.e.ip = (0x0C83, .hit 1 15) :=
  ⟨test_wit_engine _ rfl, rfl, test_wit_midScan_inv, by decide, by decide +kernel⟩
/-- A patched run behind the shortest match, and runs that need no earlier byte. -/
theorem test_wit_ALiteralRunIsWrittenInItsForm :
    (encoding 22 20 20 2 [] [] [0x40, 0x00]).patchCount true 3 ≠ 0 ∧ 2 ≤ (encoding 22 20 20 2 [] [] []).e.op ∧
      (encoding 3 0 0 0 [] [] []).patchCount true 3 = 0 ∧ (encoding 30 0 0 0 [] [] []).patchCount false 4 = 0 := by
  decide
theorem test_wit_TheFinalStepCompletesTheCommand :
    EngineNext lastStep lastStep ∧ lastStep.mode = .compressing .compress ∧ lastStep.Inv ∧ lastStep.scanDone = true :=
  ⟨test_wit_engine _ rfl, rfl, test_wit_lastStep_inv, by decide⟩
theorem test_wit_AShortSourceBecomesOneLiteralRun :
    let s := idleWith 13 0 (List.replicate 13 0x61) []
    s.Inv ∧ s.mode = .idle ∧ s.turns = [] ∧ s.regs.inLen.toNat ≤ 13 ∧ s.regs.inLen.toNat ≤ s.cfg.inSize ∧
      outBound s.regs.inLen.toNat ≤ s.cfg.outSize ∧ 1 ≤ s.regs.inLen.toNat :=
  ⟨test_wit_idle_inv _ _ _ _ (by decide), rfl, rfl, by decide, by decide, by decide, by decide⟩
theorem test_wit_TheEngineNeverWritesItsInputs :
    EngineNext midStream midStream ∧ ∃ t, step midStream = .next t := ⟨test_wit_engine _ rfl, _, rfl⟩
/-- Two blocks that differ in DST_CAP and in the bytes behind the source. -/
theorem test_wit_TheStreamDependsOnTheSourceAlone :
    let u := firstProbe
    let u' := { firstProbe with
      regs := { firstProbe.regs with dstCap := 7 }, inMem := Memory.ofBytes 0 (List.replicate 20 0x61 ++ [0x55]) }
    EngineNext u u ∧ EngineNext u' u' ∧ u.e = u'.e ∧ u.table = u'.table ∧
      (∀ a, a < u.e.L → u.inByte a = u'.inByte a) ∧ (∀ a, a < u.outBase + u.e.op → u.outByte a = u'.outByte a) ∧
      (∃ t, step u = .next t) ∧ ∃ t, step u' = .next t := by
  refine ⟨test_wit_engine _ rfl, test_wit_engine _ rfl, rfl, rfl, ?_, ?_, ⟨_, rfl⟩, ⟨_, rfl⟩⟩
  · show ∀ a, a < 20 → _
    decide +kernel
  · intro a h
    exact absurd h (by show ¬ a < 0; omega)
theorem test_wit_EveryStepKeepsTheInvariant :
    midStream.Inv ∧ (∃ t, step midStream = .next t) ∧ midScan.Inv ∧ ∃ t, step midScan = .next t :=
  ⟨test_wit_midStream_inv, ⟨_, rfl⟩, test_wit_midScan_inv, _, rfl⟩
theorem test_wit_TheEngineAlwaysHasANextState : midScan.Inv ∧ EngineNext midScan midScan :=
  ⟨test_wit_midScan_inv, test_wit_engine _ rfl⟩
theorem test_wit_ADutifulHostNeverStopsTheBlock :
    let s := idleWith 1 2 [] [.host (.writeOut 65535 1)]
    s.Inv ∧ HostNext s (s.setTurns []) (.writeOut 65535 1) ∧ HostDuty (s.setTurns []) (.writeOut 65535 1) :=
  ⟨test_wit_idle_inv _ _ _ _ (by decide), ⟨[], rfl, rfl⟩, rfl, by show 65535 < 65536; omega⟩
theorem test_wit_EveryDecodeStopsWithinItsInput :
    midStream.Inv ∧ midStream.mode = .decompressing .decompress ∧ midStream.turns = [] :=
  ⟨test_wit_midStream_inv, rfl, rfl⟩
theorem test_wit_EveryCompressionEndsWithinItsBounds :
    let s := idleWith 14 0 (List.replicate 14 0x61) []
    s.Inv ∧ s.regs.status.busy = false ∧ s.turns = [] ∧
      (∃ t, exec .compress s = .next t ∧ t.mode = .compressing .compress) ∧
      ∃ t, exec .compressFramed s = .next t ∧ t.mode = .compressing .compressFramed :=
  ⟨test_wit_idle_inv _ _ _ _ (by decide), rfl, rfl, ⟨_, rfl, rfl⟩, _, rfl, rfl⟩
/-- COMPRESS of one byte, then DECOMPRESS of 12 78 11 00 00 with DST_CAP = 1. -/
theorem test_wit_DecompressUndoesCompress :
    let s := idleWith 1 0 [0x78] []
    let r := idleWith 5 1 [0x12, 0x78, 0x11, 0x00, 0x00] []
    s.Inv ∧ s.regs.status.busy = false ∧ s.turns = [] ∧ outBound s.regs.inLen.toNat < 2 ^ 32 ∧
      r.Inv ∧ r.regs.status.busy = false ∧ r.turns = [] ∧ r.regs.dstCap = s.regs.inLen ∧
      (∃ s1 s2, exec .compress s = .next s1 ∧ s1.mode = .compressing .compress ∧
        Sys2Proof.core.run 1 s1 = .next s2 ∧ s2.mode = .idle ∧ r.regs.inLen = s2.regs.outLen ∧
        ∀ a, a < 5 → r.inByte a = s2.outByte a) ∧
      ∃ r1, exec .decompress r = .next r1 ∧ r1.mode = .decompressing .decompress :=
  ⟨test_wit_idle_inv _ _ _ _ (by decide), rfl, rfl, by decide, test_wit_idle_inv _ _ _ _ (by decide), rfl, rfl, rfl,
    ⟨_, _, rfl, rfl, rfl, rfl, by decide +kernel, by decide +kernel⟩, _, rfl, rfl⟩
/-- COMPRESS_FRAMED of one byte, then DECOMPRESS_FRAMED of 01 00 00 00 12 78 11 00 00. -/
theorem test_wit_DecompressFramedUndoesCompressFramed :
    let s := idleWith 1 0 [0x78] []
    let r := idleWith 9 0 [0x01, 0x00, 0x00, 0x00, 0x12, 0x78, 0x11, 0x00, 0x00] []
    s.Inv ∧ s.regs.status.busy = false ∧ s.turns = [] ∧ 4 + outBound s.regs.inLen.toNat < 2 ^ 32 ∧
      r.Inv ∧ r.regs.status.busy = false ∧ r.turns = [] ∧
      (∃ s1 s2, exec .compressFramed s = .next s1 ∧ s1.mode = .compressing .compressFramed ∧
        Sys2Proof.core.run 1 s1 = .next s2 ∧ s2.mode = .idle ∧ r.regs.inLen = s2.regs.outLen ∧
        ∀ a, a < 9 → r.inByte a = s2.outByte a) ∧
      ∃ r1, exec .decompressFramed r = .next r1 ∧ r1.mode = .decompressing .decompressFramed :=
  ⟨test_wit_idle_inv _ _ _ _ (by decide), rfl, rfl, by decide, test_wit_idle_inv _ _ _ _ (by decide), rfl, rfl,
    ⟨_, _, rfl, rfl, rfl, rfl, by decide +kernel, by decide +kernel⟩, _, rfl, rfl⟩

end Sys2Proof.Tests
end

section
namespace Sys2Proof

/-! ## Which instructions a stream can hold -/

/-- A match opcode never stands for a host command. -/
theorem inTable_ctrl_of_decodeMatch {t : Byte} {bytes rest : List Byte} {i : Instr}
    (h : decodeMatch t bytes = .ok i rest) : i.inTable .ctrl = false := by
  unfold decodeMatch at h
  split at h
  · split at h <;> cases h
    rfl
  · split at h
    · split at h
      · split at h
        · obtain ⟨-, dist, s, rfl⟩ := length_of_decodeNear _ _ _ _ h
          rfl
        · cases h
      · obtain ⟨-, dist, s, rfl⟩ := length_of_decodeNear _ _ _ _ h
        rfl
    · split at h
      · split at h
        · obtain ⟨-, ⟨dist, s, rfl⟩ | ⟨s, rfl⟩⟩ := length_of_decodeFar _ _ _ _ _ _ h <;> rfl
        · cases h
      · obtain ⟨-, ⟨dist, s, rfl⟩ | ⟨s, rfl⟩⟩ := length_of_decodeFar _ _ _ _ _ _ h <;> rfl

/-- What the decoder reads in a stream is never a host command: those are read in CTRL only (30_encoding.md R81). -/
theorem inTable_ctrl_of_decode {c : DecodeTable} (hc : c ≠ .ctrl) {bytes rest : List Byte} {i : Instr}
    (h : decode c bytes = .ok i rest) : i.inTable .ctrl = false := by
  cases c with
  | ctrl => exact absurd rfl hc
  | start =>
    simp only [decode, decodeStart] at h
    split at h
    · cases h
    · split at h
      · cases h; rfl
      · split at h <;> cases h
        rfl
  | literalOrMatch =>
    simp only [decode, decodeLiteralOrMatch] at h
    split at h
    · cases h
    · split at h
      · split at h <;> cases h
        rfl
      · split at h
        · cases h; rfl
        · exact inTable_ctrl_of_decodeMatch h
  | afterLiteral =>
    simp only [decode, decodeAfterLiteral] at h
    split at h
    · cases h
    · split at h
      · split at h <;> cases h
        rfl
      · exact inTable_ctrl_of_decodeMatch h
  | afterTrailing =>
    simp only [decode, decodeAfterTrailing] at h
    split at h
    · cases h
    · split at h
      · split at h <;> cases h
        rfl
      · exact inTable_ctrl_of_decodeMatch h

end Sys2Proof

namespace Sys2Proof.Machine

/-! ## What a stream instruction can answer -/

/-- The decoder stands where the next engine step can start, with some of the stream already read
(42_decoder_fsm.md R196). -/
def AtBoundary (s : State) : Prop :=
  s.d.state.running = true ∧ s.d.state ≠ .start ∧ (s.d.state = .expectMatch .afterLiteral → s.d.ip < s.d.N)

theorem Phase.andThen_eq_ok {p : Phase} {f : State → Phase} {t : State} :
    p.andThen f = .ok t ↔ ∃ u, p = .ok u ∧ f u = .ok t := by
  cases p <;> simp [Phase.andThen]

theorem copyLiterals_ip_lt {n : Nat} {s t : State} (h : copyLiterals n s = .ok t) : t.d.ip < t.d.N := by
  rcases copyLiterals_cases n s with ⟨_, e⟩ | ⟨_, _, e⟩ | ⟨_, hN, e⟩ <;> rw [e] at h <;> cases h
  simp only [literalsCopied, State.setIp_d, State.setOp_d, State.writeOut_d]
  omega

theorem fetchHeld_atBoundary {s t : State} (h : fetchHeld s = .ok t) : AtBoundary t := by
  rcases fetchHeld_cases s with ⟨_, e⟩ | ⟨_, e⟩ <;> rw [e] at h <;> cases h
  exact ⟨rfl, nofun, nofun⟩

theorem literalRun_atBoundary {n : Nat} {s t : State} (h : literalRun n s = .ok t) : AtBoundary t := by
  obtain ⟨u, hu, ht⟩ := Phase.andThen_eq_ok.mp h
  have hip := copyLiterals_ip_lt hu
  cases ht
  exact ⟨rfl, nofun, fun _ => hip⟩

theorem shortRun_atBoundary {n : Nat} {s t : State} (h : (copyLiterals n s).andThen fetchHeld = .ok t) :
    AtBoundary t := by
  obtain ⟨u, -, ht⟩ := Phase.andThen_eq_ok.mp h
  exact fetchHeld_atBoundary ht

theorem finishMatch_atBoundary {count : Nat} {s t : State} (h : finishMatch count s = .ok t) : AtBoundary t := by
  unfold finishMatch at h
  split at h
  · cases h
    exact ⟨rfl, nofun, nofun⟩
  · exact shortRun_atBoundary h

theorem matchRun_atBoundary {dist len count : Nat} {s t : State} (h : matchRun dist len count s = .ok t) :
    AtBoundary t := by
  obtain ⟨u, -, ht⟩ := Phase.andThen_eq_ok.mp h
  exact finishMatch_atBoundary ht

/-- A stream instruction is a run of literals, a match, or the end marker. -/
theorem exec_stream_cases {i : Instr} (hi : i.inTable .ctrl = false) (s : State) :
    (∃ n, exec i s = decodeAnswer s ((copyLiterals n s).andThen fetchHeld)) ∨
    (∃ n, exec i s = decodeAnswer s (literalRun n s)) ∨
    (∃ dist len count, exec i s = decodeAnswer s (matchRun dist len count s)) ∨
    ∃ l3 ext count, exec i s = execEos l3 ext count s := by
  cases i with
  | litfs n => exact .inl ⟨n, rfl⟩
  | litf n => exact .inr (.inl ⟨n, rfl⟩)
  | lit n => exact .inr (.inl ⟨n, rfl⟩)
  | litx n => exact .inr (.inl ⟨n, rfl⟩)
  | m1l dist count => exact .inr (.inr (.inl ⟨dist, 3, count, rfl⟩))
  | m1 dist count => exact .inr (.inr (.inl ⟨dist, 2, count, rfl⟩))
  | m2 dist len count => exact .inr (.inr (.inl ⟨dist, len, count, rfl⟩))
  | m3 dist len count => exact .inr (.inr (.inl ⟨dist, len, count, rfl⟩))
  | m3x dist len count => exact .inr (.inr (.inl ⟨dist, len, count, rfl⟩))
  | m4 dist len count => exact .inr (.inr (.inl ⟨dist, len, count, rfl⟩))
  | m4x dist len count => exact .inr (.inr (.inl ⟨dist, len, count, rfl⟩))
  | eos l3 ext count => exact .inr (.inr (.inr ⟨l3, ext, count, rfl⟩))
  | compress | decompress | compressFramed | decompressFramed => cases hi

/-- What a decode does next from a state: it goes on at the next boundary, it stops with an error from a state it
advanced to, or it ends. -/
inductive DecodeNext (s : State) : State → Prop where
  | goesOn {t : State} (adv : Advance s t) (boundary : AtBoundary t) : DecodeNext s t
  | error {t : State} (adv : Advance s t) (kind : ErrKind) : DecodeNext s (t.raiseError kind)
  | ends : DecodeNext s s.endDecode

theorem DecodeNext.of_decodeAnswer {s t : State} {p : Phase} (h : decodeAnswer s p = .next t)
    (adv : Advance s p.last) (boundary : ∀ u, p = .ok u → AtBoundary u) :
    s.decodeBounds = true ∧ DecodeNext s t := by
  rcases decodeAnswer_cases s p with ⟨hb, e⟩ | ⟨_, e⟩ <;> rw [e] at h <;> cases h
  refine ⟨hb, ?_⟩
  cases p with
  | ok u => exact .goesOn adv (boundary u rfl)
  | err kind u => exact .error adv kind

theorem DecodeNext.of_execEos {l3 ext count : Nat} {s t : State} (h : execEos l3 ext count s = .next t) :
    s.decodeBounds = true ∧ DecodeNext s t := by
  unfold execEos at h
  split at h
  · refine ⟨‹_›, ?_⟩
    split at h
    · cases h; exact .ends
    · split at h <;> cases h <;> exact .error (.refl s) _
  · cases h

/-- The next states of a stream instruction. -/
theorem DecodeNext.of_exec {i : Instr} (hi : i.inTable .ctrl = false) {s t : State} (h : exec i s = .next t) :
    s.decodeBounds = true ∧ DecodeNext s t := by
  rcases exec_stream_cases hi s with ⟨n, e⟩ | ⟨n, e⟩ | ⟨dist, len, count, e⟩ | ⟨l3, ext, count, e⟩ <;> rw [e] at h
  · exact DecodeNext.of_decodeAnswer h (shortRun_advance n s) fun _ => shortRun_atBoundary
  · exact DecodeNext.of_decodeAnswer h (literalRun_advance n s) fun _ => literalRun_atBoundary
  · exact DecodeNext.of_decodeAnswer h (matchRun_advance dist len count s) fun _ => matchRun_atBoundary
  · exact DecodeNext.of_execEos h

/-- The fetch of an instruction and its meaning, from the cursor behind the header (42_decoder_fsm.md R183, R184). -/
theorem DecodeNext.of_fetchInstr {c : DecodeTable} (hc : c ≠ .ctrl) {held : List Byte} {s t : State}
    (h : (fetchInstr c held s).outcome = .next t) :
    ∃ ip, (s.d.ip ≤ s.d.N → ip ≤ s.d.N) ∧ DecodeNext (s.setIp ip) t := by
  rcases fetchInstr_cases c held s with ⟨i, rest, hd, e⟩ | ⟨-, e⟩ | ⟨r, -, -, e⟩ <;> rw [e] at h
  · exact ⟨_, fun _ => Nat.sub_le _ _, (DecodeNext.of_exec (inTable_ctrl_of_decode hc hd) h).2⟩
  · cases h
    exact ⟨s.d.ip, id, .goesOn (setDState_advance s _) ⟨rfl, nofun, nofun⟩⟩
  · cases h
    exact ⟨_, fun hip => Nat.max_le.mpr ⟨hip, Nat.le_refl _⟩, .error (.refl _) _⟩

/-- A decoder step answers the same state in a terminal state (42_decoder_fsm.md R181); else it is one of the next
states of a decode, from a cursor that stays inside the input. -/
theorem decoderStep_cases {s t : State} (h : (decoderStep s).outcome = .next t) :
    s.decodeBounds = true ∧ ((s.d.state.running = false ∧ t = s) ∨
      ∃ ip, (s.d.ip ≤ s.d.N → ip ≤ s.d.N) ∧ DecodeNext (s.setIp ip) t) := by
  have eof : Host.Outcome.next (s.raiseError .eofMarkerNotFound) = (.next t : Answer) →
      ∃ ip, (s.d.ip ≤ s.d.N → ip ≤ s.d.N) ∧ DecodeNext (s.setIp ip) t := by
    intro h
    cases h
    exact ⟨s.d.ip, id, .error (.refl s) _⟩
  unfold decoderStep at h
  split at h
  · refine ⟨‹_›, ?_⟩
    split at h
    · split at h
      · exact .inr (eof h)
      · obtain ⟨ip, hip, hn⟩ := DecodeNext.of_fetchInstr (by decide) h
        exact .inr ⟨ip, fun _ => hip (Nat.zero_le _), hn⟩
    · split at h
      · exact .inr (eof h)
      · exact .inr (DecodeNext.of_fetchInstr (by decide) h)
    · exact .inr (DecodeNext.of_fetchInstr (by decide) h)
    · split at h
      · exact .inr (eof h)
      · exact .inr (DecodeNext.of_fetchInstr (by decide) h)
    · cases h
    next ended =>
      cases h
      exact .inl ⟨by rw [ended]; rfl, rfl⟩
    next stopped =>
      cases h
      exact .inl ⟨by rw [stopped]; rfl, rfl⟩
  · cases h

/-! ## What a decoder step leaves alone -/

theorem StreamFrame.setIp (s : State) (ip : Nat) : StreamFrame s (s.setIp ip) :=
  ⟨rfl, rfl, rfl, rfl, rfl, rfl, rfl, rfl, rfl, rfl⟩

theorem StreamFrame.endDecode (s : State) : StreamFrame s s.endDecode :=
  ⟨rfl, rfl, rfl, rfl, rfl, rfl, rfl, rfl, rfl, rfl⟩

theorem DecodeNext.frame {s t : State} (h : DecodeNext s t) : StreamFrame s t := by
  cases h with
  | goesOn adv _ => exact adv.still.frame
  | error adv kind => exact (raiseError_stopped adv.still kind).frame
  | ends => exact .endDecode s

theorem decoderStep_frame {s t : State} (h : (decoderStep s).outcome = .next t) : StreamFrame s t := by
  obtain ⟨-, ⟨-, rfl⟩ | ⟨ip, -, hn⟩⟩ := decoderStep_cases h
  · exact .refl t
  · exact (StreamFrame.setIp s ip).trans hn.frame

end Sys2Proof.Machine
end

section
namespace Sys2Proof.Machine

/-! ## What the encoder's emissions do -/

/-- What an emission does: it writes OUT below its new output cursor and changes nothing else. -/
structure EmitsTo (s t : State) : Prop where
  frame : t = { s with outMem := t.outMem, e := { s.e with op := t.e.op } }
  opUp : s.e.op ≤ t.e.op
  wf : Memory.wf s.outMem → Memory.wf t.outMem
  mem : ∀ x ∈ t.outMem, x.1 < s.outBase + t.e.op ∨ x ∈ s.outMem

theorem EmitsTo.refl (s : State) : EmitsTo s s := ⟨rfl, Nat.le_refl _, id, fun _ => .inr⟩

theorem EmitsTo.outBase {s t : State} (h : EmitsTo s t) : t.outBase = s.outBase := by
  rw [h.frame]
  rfl

theorem EmitsTo.regs {s t : State} (h : EmitsTo s t) : t.regs = s.regs := by rw [h.frame]

theorem EmitsTo.mode {s t : State} (h : EmitsTo s t) : t.mode = s.mode := by rw [h.frame]

theorem EmitsTo.table {s t : State} (h : EmitsTo s t) : t.table = s.table := by rw [h.frame]

theorem EmitsTo.source {s t : State} (h : EmitsTo s t) : t.e.L = s.e.L := by rw [h.frame]

theorem EmitsTo.trans {s t u : State} (h : EmitsTo s t) (h' : EmitsTo t u) : EmitsTo s u where
  frame := by
    have e := h'.frame
    rw [h.frame] at e
    exact e
  opUp := Nat.le_trans h.opUp h'.opUp
  wf := fun e => h'.wf (h.wf e)
  mem := fun x hx => by
    rcases h'.mem x hx with h1 | h1
    · exact .inl (h.outBase ▸ h1)
    · exact (h.mem x h1).imp_left fun h2 => Nat.lt_of_lt_of_le h2 (Nat.add_le_add_left h'.opUp _)

theorem EmitsTo.emit (s : State) (bytes : List Byte) : EmitsTo s (s.emit bytes) where
  frame := State.emit_frame s bytes
  opUp := Nat.le_add_right _ _
  wf := Memory.wf_writeBytes _ _ _
  mem := fun x hx => (Memory.mem_writeBytes _ _ _ x hx).imp_left fun h => by
    simp only [State.emit_e]
    omega

theorem EmitsTo.patch {n : Nat} {s t : State} (h : s.patch n = some t) : EmitsTo s t ∧ t.e = s.e := by
  rcases State.patch_cases s n with ⟨-, e⟩ | ⟨hop, e⟩ <;> rw [e] at h <;> cases h
  refine ⟨⟨rfl, Nat.le_refl _, Memory.wf_writeBytes _ _ _, fun x hx => ?_⟩, rfl⟩
  refine (Memory.mem_writeBytes _ _ _ x hx).imp_left fun hx => ?_
  simp only [List.length_singleton, State.writeOut_e] at hx ⊢
  omega

theorem EmitsTo.emitLiterals {start stop : Nat} {tail : Bool} {s t : State}
    (h : s.emitLiterals start stop tail = some t) : EmitsTo s t := by
  rcases State.emitLiterals_cases s start stop tail with ⟨-, e⟩ | ⟨-, e⟩ | ⟨i, -, e⟩ <;> rw [e] at h
  · cases h
    exact .refl s
  · obtain ⟨u, hu, rfl⟩ := Option.map_eq_some_iff.mp h
    exact (EmitsTo.patch hu).1.trans (.emit u _)
  · cases h
    exact (EmitsTo.emit s _).trans (.emit _ _)

theorem EmitsTo.emitMatch (s : State) (dist len : Nat) : EmitsTo s (s.emitMatch dist len) := .emit s _

/-- The length bytes of a run cost at most a sixteenth of the run, and one byte more (41_encoder.md R161). -/
theorem length_encode_runForm {form : FirstRunForm} {tail : Bool} {op n : Nat} {i : Instr}
    (h : runForm form tail op n = .instr i) : 16 * (encode i).length ≤ n + 16 := by
  rcases runForm_cases form tail op n with ⟨-, e⟩ | ⟨-, -, -, -, e⟩ | ⟨-, -, e⟩ <;> rw [e] at h
  · cases h
  · cases h
    simp [encode_firstRun]
  · rcases generalForm_cases n with ⟨-, e⟩ | ⟨-, -, e⟩ | ⟨hn, e⟩ <;> rw [e] at h <;> cases h
    · simp [encode]
    · simp only [encode, List.length_cons, length_continuation, zeroCount]
      omega

/-- A literal run moves the output cursor by at most 17/16 of the run, and one byte more (41_encoder.md R161). -/
theorem emitLiterals_op_le {start stop : Nat} {tail : Bool} {s t : State}
    (h : s.emitLiterals start stop tail = some t) : 16 * t.e.op ≤ 16 * s.e.op + 17 * (stop - start) + 16 := by
  rcases State.emitLiterals_cases s start stop tail with ⟨-, e⟩ | ⟨-, e⟩ | ⟨i, hi, e⟩ <;> rw [e] at h
  · cases h
    omega
  · obtain ⟨u, hu, rfl⟩ := Option.map_eq_some_iff.mp h
    simp only [State.emit_e, State.length_readIn, (EmitsTo.patch hu).2]
    omega
  · cases h
    have := length_encode_runForm hi
    simp only [State.emit_e, State.length_readIn]
    omega

/-! ## What the encoder's steps can answer -/

theorem encodeAnswer_eq_next {emitted next t : State} :
    encodeAnswer emitted next = .next t ↔ emitted.encodeBounds = true ∧ next = t := by
  unfold encodeAnswer
  split <;> simp_all

/-- The state after a probe without a match (40_match_finder.md R122). -/
def probeMissed (s : State) (slot : Nat) : State :=
  { s.storePosition slot with e := { s.e with ip := s.e.ip + 1 } }

/-- The state after a match was emitted, the pending run having led to `s1` (40_match_finder.md R123). -/
def matchEmitted (s s1 : State) (dist len : Nat) : State :=
  { s1.emitMatch dist len with
    e := { (s1.emitMatch dist len).e with ip := s.e.ip + len, ii := s.e.ip + len } }

/-- The next states of a running compression: it probes without a match, it emits a match, or it ends. -/
inductive EncodeNext (s : State) : State → Prop where
  | missed {slot : Nat} (running : s.scanDone = false) (found : s.probe s.e.ip = (slot, .noMatch))
      (bounds : s.encodeBounds = true) :
      EncodeNext s (probeMissed s slot)
  | emitted {slot dist len : Nat} {s1 : State} (running : s.scanDone = false)
      (found : s.probe s.e.ip = (slot, .hit dist len))
      (run : (s.storePosition slot).emitLiterals s.e.ii s.e.ip false = some s1)
      (bounds : (s1.emitMatch dist len).encodeBounds = true) :
      EncodeNext s (matchEmitted s s1 dist len)
  | ends {s1 : State} (done : s.scanDone = true) (run : s.emitLiterals s.e.ii s.e.L true = some s1)
      (bounds : (s1.emit (encode canonicalEos)).encodeBounds = true) :
      EncodeNext s (s1.emit (encode canonicalEos)).endEncode

theorem EncodeNext.of_probeStep {s t : State} (running : s.scanDone = false) (h : probeStep s = .next t) :
    EncodeNext s t := by
  unfold probeStep at h
  split at h
  next slot found =>
    obtain ⟨bounds, rfl⟩ := encodeAnswer_eq_next.mp h
    exact .missed running found bounds
  next slot dist len found =>
    split at h
    · cases h
    next s1 run =>
      obtain ⟨bounds, rfl⟩ := encodeAnswer_eq_next.mp h
      exact .emitted running found run bounds

theorem EncodeNext.of_finalStep {s t : State} (done : s.scanDone = true) (h : finalStep s = .next t) :
    EncodeNext s t := by
  unfold finalStep at h
  split at h
  · cases h
  next s1 run =>
    obtain ⟨bounds, rfl⟩ := encodeAnswer_eq_next.mp h
    exact .ends done run bounds

theorem EncodeNext.of_encoderStep {s t : State} (h : encoderStep s = .next t) : EncodeNext s t := by
  unfold encoderStep at h
  split at h
  · cases h
  · cases hd : s.scanDone <;> simp only [hd, if_true, Bool.false_eq_true, if_false] at h
    · exact .of_probeStep hd h
    · exact .of_finalStep hd h

/-! ## What a step of the engine leaves alone -/

theorem CommandFrame.refl (s : State) : CommandFrame s s := ⟨rfl, rfl, rfl, rfl, rfl, rfl⟩

theorem CommandFrame.trans {s t u : State} (h : CommandFrame s t) (h' : CommandFrame t u) : CommandFrame s u :=
  ⟨h'.cfg.trans h.cfg, h'.inMem.trans h.inMem, h'.inGen.trans h.inGen, h'.inLen.trans h.inLen,
    h'.dstCap.trans h.dstCap, h'.turns.trans h.turns⟩

theorem StreamFrame.commandFrame {s t : State} (h : StreamFrame s t) : CommandFrame s t :=
  ⟨h.cfg, h.inMem, h.inGen, h.inLen, h.dstCap, h.turns⟩

theorem EmitsTo.commandFrame {s t : State} (h : EmitsTo s t) : CommandFrame s t := by
  rw [h.frame]
  exact ⟨rfl, rfl, rfl, rfl, rfl, rfl⟩

theorem CommandFrame.endEncode (s : State) : CommandFrame s s.endEncode := ⟨rfl, rfl, rfl, rfl, rfl, rfl⟩

theorem EncodeNext.commandFrame {s t : State} (h : EncodeNext s t) : CommandFrame s t := by
  cases h with
  | missed _ _ _ => exact ⟨rfl, rfl, rfl, rfl, rfl, rfl⟩
  | @emitted slot dist len s1 _ _ run _ =>
    have stored : CommandFrame s (s.storePosition slot) := ⟨rfl, rfl, rfl, rfl, rfl, rfl⟩
    have moved : CommandFrame (s1.emitMatch dist len) (matchEmitted s s1 dist len) := ⟨rfl, rfl, rfl, rfl, rfl, rfl⟩
    exact (stored.trans (EmitsTo.emitLiterals run).commandFrame).trans
      ((EmitsTo.emitMatch s1 dist len).commandFrame.trans moved)
  | ends _ run _ =>
    exact ((EmitsTo.emitLiterals run).trans (.emit _ _)).commandFrame.trans (.endEncode _)

/-- The next states of the engine's turn, by its mode. -/
theorem engineTurn_cases {s t : State} (h : (engineTurn s).outcome = .next t) :
    (s.mode = .idle ∧ t = s) ∨
    (∃ op, s.mode = .compressing op ∧ EncodeNext s t) ∨
    (∃ op, s.mode = .decompressing op ∧ (decoderStep s).outcome = .next t) := by
  unfold engineTurn at h
  split at h
  next hm =>
    cases h
    exact .inl ⟨hm, rfl⟩
  next op hm => exact .inr (.inl ⟨op, hm, .of_encoderStep h⟩)
  next op hm => exact .inr (.inr ⟨op, hm, h⟩)

/-- The engine writes neither IN nor what the host set up, and takes no turn from the queue. -/
theorem engineTurn_commandFrame {s t : State} (h : (engineTurn s).outcome = .next t) : CommandFrame s t := by
  rcases engineTurn_cases h with ⟨-, rfl⟩ | ⟨op, -, hn⟩ | ⟨op, -, hd⟩
  · exact .refl t
  · exact hn.commandFrame
  · exact (decoderStep_frame hd).commandFrame

/-- Settles O50: the frame of the engine's turn, which every decoder step and every encoder step keeps. -/
theorem theEngineNeverWritesItsInputs : Obligations.TheEngineNeverWritesItsInputs := by
  intro s u t hu h
  rw [step_of_engine hu] at h
  obtain ⟨cfg, inMem, inGen, inLen, dstCap, turns⟩ := engineTurn_commandFrame h
  exact ⟨cfg, inMem, inGen, inLen, dstCap, turns⟩

end Sys2Proof.Machine
end

section
namespace Sys2Proof.Machine

/-! ## The encoder's start step -/

/-- The encoder's start step clears TABLE for a source that is searched (40_match_finder.md R114, R115). -/
theorem State.startEncode_cases (s : State) (L : Nat) :
    (13 < L ∧ s.startEncode L = { s with table := [], e := { L := L, ip := 4, ii := 0, op := 0 } }) ∨
    (L ≤ 13 ∧ s.startEncode L = { s with e := { s.e with L := L, ii := 0, op := 0 } }) := by
  unfold State.startEncode
  split
  · exact .inl ⟨‹_›, rfl⟩
  · exact .inr ⟨Nat.not_lt.mp ‹_›, rfl⟩

@[simp] theorem State.startEncode_cfg (s : State) (L : Nat) : (s.startEncode L).cfg = s.cfg := by
  rcases State.startEncode_cases s L with ⟨-, e⟩ | ⟨-, e⟩ <;> rw [e]

@[simp] theorem State.startEncode_regs (s : State) (L : Nat) : (s.startEncode L).regs = s.regs := by
  rcases State.startEncode_cases s L with ⟨-, e⟩ | ⟨-, e⟩ <;> rw [e]

@[simp] theorem State.startEncode_mode (s : State) (L : Nat) : (s.startEncode L).mode = s.mode := by
  rcases State.startEncode_cases s L with ⟨-, e⟩ | ⟨-, e⟩ <;> rw [e]

/-! ## What a turn of the host can do -/

/-- A write to CTRL runs the command of its low three bits, or nothing where START is 0 (10_state.md R24). -/
theorem ctrlWrite_cases (w : Word) (s : State) :
    (w.toNat % 8 = 4 ∧ (hostWriteReg 0 w s).outcome = exec .compress s) ∨
    (w.toNat % 8 = 5 ∧ (hostWriteReg 0 w s).outcome = exec .decompress s) ∨
    (w.toNat % 8 = 6 ∧ (hostWriteReg 0 w s).outcome = exec .compressFramed s) ∨
    (w.toNat % 8 = 7 ∧ (hostWriteReg 0 w s).outcome = exec .decompressFramed s) ∨
    (w.toNat % 8 < 4 ∧ (hostWriteReg 0 w s).outcome = .next s) := by
  have start : bits (byte w.toNat) 2 2 = w.toNat / 4 % 2 := by simp [bits, byte]; omega
  have select : bits (byte w.toNat) 1 0 = w.toNat % 4 := by simp [bits, byte]
  simp only [hostWriteReg, decode, leBytes, decodeCtrl, start, select]
  by_cases h : w.toNat / 4 % 2 = 0
  · rw [if_pos h]
    exact .inr (.inr (.inr (.inr ⟨by omega, rfl⟩)))
  · rw [if_neg h]
    obtain e | e | e | e : w.toNat % 4 = 0 ∨ w.toNat % 4 = 1 ∨ w.toNat % 4 = 2 ∨ w.toNat % 4 = 3 := by omega
    · rw [e]; exact .inl ⟨by omega, rfl⟩
    · rw [e]; exact .inr (.inl ⟨by omega, rfl⟩)
    · rw [e]; exact .inr (.inr (.inl ⟨by omega, rfl⟩))
    · rw [e]; exact .inr (.inr (.inr (.inl ⟨by omega, rfl⟩)))

theorem whileIdle_of_not_busy {s : State} (h : s.regs.status.busy = false) (written : State) :
    (whileIdle s written).outcome = .next written := by
  simp [whileIdle, h]

theorem whileIdle_next {s written t : State} (h : (whileIdle s written).outcome = .next t) :
    s.regs.status.busy = false ∧ t = written := by
  unfold whileIdle at h
  split at h <;> cases h
  exact ⟨Bool.eq_false_iff.mpr ‹_›, rfl⟩

/-- A write to STATUS, to a result register or to a reserved register answers the same state (10_state.md R25, R28 to
R31). -/
theorem hostWriteReg_ignored {n : Nat} (h : n = 1 ∨ 4 ≤ n) (w : Word) (s : State) :
    hostWriteReg n w s = .answer (.next s) := by
  obtain rfl | h := h
  · rfl
  · obtain ⟨k, rfl⟩ := Nat.exists_eq_add_of_le' h
    rfl

/-- What a turn of the host can do (10_state.md R24 to R31, 20_memory.md R60, 70_reset_and_hazards.md R330, R334): it
changes nothing, starts a command, stores a word or a byte while no operation runs, or resets the block. -/
inductive HostChange (s : State) : State → Prop where
  | unchanged : HostChange s s
  | command {w : Word} {t : State} (run : (hostWriteReg 0 w s).outcome = .next t) : HostChange s t
  | inLen (idle : s.regs.status.busy = false) (w : Word) :
      HostChange s { s with regs := { s.regs with inLen := w } }
  | dstCap (idle : s.regs.status.busy = false) (w : Word) :
      HostChange s { s with regs := { s.regs with dstCap := w } }
  | inByte (idle : s.regs.status.busy = false) {a : Nat} (b : Byte) (inside : a < s.cfg.inSize) :
      HostChange s { s with inMem := Sparse.set s.inMem a b }
  | outByte (idle : s.regs.status.busy = false) {a : Nat} (b : Byte) (inside : a < s.cfg.outSize) :
      HostChange s { s with outMem := Sparse.set s.outMem a b }
  | reset : HostChange s s.resetBlock

theorem HostChange.of_same {s t : State} (h : Host.Outcome.next s = (.next t : Answer)) : HostChange s t := by
  cases h
  exact .unchanged

theorem HostChange.of_hostWriteReg {n : Nat} {w : Word} {s t : State}
    (h : (hostWriteReg n w s).outcome = .next t) : HostChange s t := by
  match n, h with
  | 0, h => exact .command h
  | 1, h | _ + 4, h => exact .of_same h
  | 2, h =>
    obtain ⟨idle, rfl⟩ := whileIdle_next h
    exact .inLen idle w
  | 3, h =>
    obtain ⟨idle, rfl⟩ := whileIdle_next h
    exact .dstCap idle w

theorem HostChange.of_hostTurn {a : HostAction} {s t : State} (h : (hostTurn a s).outcome = .next t) :
    HostChange s t := by
  cases a with
  | writeReg number value => exact .of_hostWriteReg h
  | writeIn address value =>
    simp only [hostTurn] at h
    split at h
    · cases h
    · obtain ⟨idle, rfl⟩ := whileIdle_next h
      exact .inByte idle value (Nat.not_le.mp ‹_›)
  | writeOut address value =>
    simp only [hostTurn] at h
    split at h
    · cases h
    · obtain ⟨idle, rfl⟩ := whileIdle_next h
      exact .outByte idle value (Nat.not_le.mp ‹_›)
  | read what =>
    cases what with
    | reg number => exact .of_same h
    | inByte address | outByte address =>
      simp only [hostTurn] at h
      split at h
      · cases h
      · exact .of_same h
  | reset =>
    cases h
    exact .reset

/-! ## The host registers -/

/-- Settles O7: the four commands and the write that starts nothing, by the low three bits of the word. -/
theorem aCtrlWriteRunsTheSelectedCommand : Obligations.ACtrlWriteRunsTheSelectedCommand := by
  intro s u w hu
  have hs : step s = (hostWriteReg 0 w u).outcome := step_of_host hu
  rcases ctrlWrite_cases w u with ⟨hw, e⟩ | ⟨hw, e⟩ | ⟨hw, e⟩ | ⟨hw, e⟩ | ⟨hw, e⟩ <;> rw [hs, e]
  · exact ⟨fun _ => rfl, by omega, by omega, by omega, by omega⟩
  · exact ⟨by omega, fun _ => rfl, by omega, by omega, by omega⟩
  · exact ⟨by omega, by omega, fun _ => rfl, by omega, by omega⟩
  · exact ⟨by omega, by omega, by omega, fun _ => rfl, by omega⟩
  · exact ⟨by omega, by omega, by omega, by omega, fun _ => rfl⟩

/-- The bits of the STATUS word stand at their places, and there are no others (10_state.md R25). -/
theorem Status.word_bits (status : Status) :
    status.word.getLsbD 0 = status.busy ∧ status.word.getLsbD 1 = status.done ∧
      status.word.getLsbD 2 = status.error ∧ status.word.getLsbD 3 = false ∧
      status.word.extractLsb' 4 3 = status.errKind ∧ status.word.toNat < 128 := by
  have all : ∀ (busy done error : Bool) (errKind : BitVec 3),
      let word := (Status.mk busy done error errKind).word
      word.getLsbD 0 = busy ∧ word.getLsbD 1 = done ∧ word.getLsbD 2 = error ∧ word.getLsbD 3 = false ∧
        word.extractLsb' 4 3 = errKind ∧ word.toNat < 128 := by decide
  exact all status.busy status.done status.error status.errKind

/-- The reserved registers read 0 (10_state.md R31). -/
theorem State.hostReadReg_reserved (s : State) {n : Nat} (h : 7 ≤ n) : s.hostReadReg n = 0 := by
  obtain ⟨k, rfl⟩ := Nat.exists_eq_add_of_le' h
  rfl

/-- Settles O29: STATUS by its bits, the others by what they hold. -/
theorem theHostReadsEachRegister : Obligations.TheHostReadsEachRegister := fun s =>
  ⟨rfl, fun _ => s.hostReadReg_reserved, s.regs.status.word_bits, rfl, rfl, rfl, rfl, rfl⟩

/-- Settles O30: a write to a length register is a write that only BUSY could stop. -/
theorem aLengthRegisterStoresEveryWord : Obligations.ALengthRegisterStoresEveryWord := fun _ _ _ hb =>
  ⟨fun hu => (step_of_host hu).trans (whileIdle_of_not_busy hb _),
    fun hu => (step_of_host hu).trans (whileIdle_of_not_busy hb _)⟩

/-- Settles O31: the register's number selects no write. -/
theorem writesToTheOtherRegistersAreIgnored : Obligations.WritesToTheOtherRegistersAreIgnored := by
  intro s u n w hu hn
  rw [step_of_host hu]
  exact congrArg Work.outcome (hostWriteReg_ignored hn w u)

/-- Settles O36: each register of the block after reset holds 0, and a reserved one reads 0. -/
theorem resetClearsTheHostRegisters : Obligations.ResetClearsTheHostRegisters := by
  refine ⟨fun n => ?_, rfl⟩
  obtain h | h := Nat.lt_or_ge n 7
  · have all : ∀ n < 7, State.reset.hostReadReg n = 0 := by decide
    exact all n h
  · exact State.reset.hostReadReg_reserved h

end Sys2Proof.Machine
end

section
namespace Sys2Proof.Machine

/-! ## The parts of the invariant, and what keeps each of them -/

/-- Beside the mode, the status part speaks of the host registers only. -/
theorem StatusInv.congr {s t : State} (h : StatusInv s) (regs : t.regs = s.regs) (mode : t.mode = s.mode) :
    StatusInv t where
  oneBit := by rw [regs]; exact h.oneBit
  noKind := by rw [regs]; exact h.noKind
  kind := by rw [regs]; exact h.kind
  busy := by rw [regs, mode]; exact h.busy
  busyRegs := by rw [regs]; exact h.busyRegs
  errorLen := by rw [regs]; exact h.errorLen
  doneLen := by rw [regs]; exact h.doneLen

/-- A stop with an error, or a refusal, leaves one status bit and no result. -/
theorem StatusInv.failure (s : State) {code : BitVec 3} (h0 : code ≠ 0) (h7 : code ≠ 7) (inPos outPos : Word) :
    StatusInv (s.stop (Status.failure code) 0 inPos outPos) where
  oneBit := Nat.le_refl 1
  noKind := nofun
  kind := fun _ => ⟨h0, h7⟩
  busy := by simp [Status.failure]
  busyRegs := nofun
  errorLen := fun _ => rfl
  doneLen := nofun

/-- A stop with a result leaves one status bit, and OUT_POS at the result's length. -/
theorem StatusInv.success (s : State) (len inPos : Word) : StatusInv (s.stop Status.success len inPos len) where
  oneBit := Nat.le_refl 1
  noKind := fun _ => rfl
  kind := nofun
  busy := by simp [Status.success]
  busyRegs := nofun
  errorLen := nofun
  doneLen := fun _ => rfl

/-- A running operation shows one status bit and no result. -/
theorem StatusInv.running {s : State} (status : s.regs.status = Status.running) (mode : s.mode ≠ .idle)
    (outLen : s.regs.outLen = 0) (inPos : s.regs.inPos = 0) (outPos : s.regs.outPos = 0) : StatusInv s where
  oneBit := by rw [status]; decide
  noKind := fun _ => by rw [status]; rfl
  kind := by rw [status]; nofun
  busy := by rw [status]; exact ⟨fun _ => mode, fun _ => rfl⟩
  busyRegs := fun _ => ⟨outLen, inPos, outPos⟩
  errorLen := by rw [status]; nofun
  doneLen := by rw [status]; nofun

/-- The memory part after a change of OUT alone. -/
theorem MemoryInv.withOut {s t : State} (h : MemoryInv s) (cfg : t.cfg = s.cfg) (inMem : t.inMem = s.inMem)
    (table : t.table = s.table) (wf : Memory.wf t.outMem) (size : ∀ x ∈ t.outMem, x.1 < s.cfg.outSize) :
    MemoryInv t where
  inWf := inMem ▸ h.inWf
  outWf := wf
  tableWf := table ▸ h.tableWf
  inSize := by rw [inMem, cfg]; exact h.inSize
  outSize := by rw [cfg]; exact size
  table := by rw [table, cfg]; exact h.table

/-- The memory part speaks of the parameters, the memories and TABLE only. -/
theorem MemoryInv.congr {s t : State} (h : MemoryInv s) (cfg : t.cfg = s.cfg) (inMem : t.inMem = s.inMem)
    (table : t.table = s.table) (outMem : t.outMem = s.outMem) : MemoryInv t :=
  h.withOut cfg inMem table (outMem ▸ h.outWf) (outMem ▸ h.outSize)

theorem MemoryInv.forgetOut {s : State} (h : MemoryInv s) : MemoryInv s.forgetOut :=
  h.withOut rfl rfl rfl (State.forgetOut_wf s) nofun

/-- A result that lies in OUT. -/
theorem MemoryInv.keepOut {s : State} (h : MemoryInv s) {n : Nat} (hn : n ≤ s.cfg.outSize) :
    MemoryInv (s.keepOut n) := by
  refine h.withOut rfl rfl rfl (State.keepOut_wf s n) fun x hx => ?_
  have := (Memory.mem_ofBytes _ _ x hx).2
  rw [State.length_readOut] at this
  omega

theorem MemoryInv.writeOut {s : State} (h : MemoryInv s) {a : Nat} {bytes : List Byte}
    (ha : a + bytes.length ≤ s.cfg.outSize) : MemoryInv (s.writeOut a bytes) := by
  refine h.withOut rfl rfl rfl (Memory.wf_writeBytes _ _ _ h.outWf) fun x hx => ?_
  rcases Memory.mem_writeBytes _ _ _ x hx with hx | hx
  · omega
  · exact h.outSize x hx

/-- An emission that stays in OUT. -/
theorem MemoryInv.emitsTo {s t : State} (h : MemoryInv s) (emits : EmitsTo s t) (bounds : t.encodeBounds = true) :
    MemoryInv t := by
  have inside : s.outBase + t.e.op ≤ s.cfg.outSize := by
    have := of_decide_eq_true bounds
    rwa [emits.outBase, emits.commandFrame.cfg] at this
  refine h.withOut emits.commandFrame.cfg emits.commandFrame.inMem emits.table (emits.wf h.outWf) ?_
  intro x hx
  rcases emits.mem x hx with hx | hx
  · omega
  · exact h.outSize x hx

/-- The fallback slot exists (40_match_finder.md R112). -/
theorem rehash_lt (idx : Nat) : rehash idx < Config.tableSlots :=
  Nat.xor_lt_two_pow (n := 14) (Nat.lt_of_le_of_lt Nat.and_le_right (by decide)) (by decide)

/-- The slot a probe writes exists (40_match_finder.md R119). -/
theorem probe_slot_lt (s : State) (p : Nat) : (s.probe p).1 < Config.tableSlots := by
  have hl : (s.lookup p).1 < Config.tableSlots := by
    rcases lookup_slot s p with e | e <;> rw [e]
    · exact hashIndex_lt _ _ _ _
    · exact rehash_lt _
  rcases probe_cases s p with e | ⟨m, -, -, e⟩ <;> rw [e] <;> exact hl

theorem MemoryInv.storePosition {s : State} (h : MemoryInv s) {slot : Nat} (hs : slot < Config.tableSlots) :
    MemoryInv (s.storePosition slot) where
  inWf := h.inWf
  outWf := h.outWf
  tableWf := Sparse.wf_set _ _ _ h.tableWf
  inSize := h.inSize
  outSize := h.outSize
  table := fun x hx => by
    rcases Sparse.mem_set _ _ _ x hx with rfl | hx
    · exact ⟨hs, (State.slotPosition_range s _).1⟩
    · exact h.table x hx

/-- With no operation running, the invariant is its first three parts. -/
theorem State.Inv.of_idle {s : State} (cfg : s.cfg.ok = true) (status : StatusInv s) (memory : MemoryInv s)
    (mode : s.mode = .idle) : s.Inv where
  cfg := cfg
  status := status
  memory := memory
  decode := fun op hm => by rw [mode] at hm; cases hm
  encode := fun op hm => by rw [mode] at hm; cases hm

/-- The invariant does not speak of the turns to come. -/
theorem State.Inv.setTurns {s : State} (h : s.Inv) (turns : List Turn) : (s.setTurns turns).Inv where
  cfg := h.cfg
  status := h.status.congr rfl rfl
  memory := h.memory.congr rfl rfl rfl rfl
  decode := fun op hm => by
    obtain ⟨hop, inBounds, outBounds, ip, cursor, running, start, afterLiteral⟩ := h.decode op hm
    exact ⟨hop, inBounds, outBounds, ip, cursor, running, start, afterLiteral⟩
  encode := fun op hm => by
    obtain ⟨hop, source, room, written, opened, short, scan, positions⟩ := h.encode op hm
    exact ⟨hop, source, room, written, opened, short, scan, positions⟩

theorem State.Inv.of_engineNext {s u : State} (h : s.Inv) (hu : EngineNext s u) : u.Inv := by
  obtain ⟨-, rfl⟩ | ⟨rest, -, rfl⟩ := hu
  · exact h
  · exact h.setTurns rest

theorem State.Inv.of_hostNext {s u : State} {a : HostAction} (h : s.Inv) (hu : HostNext s u a) : u.Inv := by
  obtain ⟨rest, -, rfl⟩ := hu
  exact h.setTurns rest

theorem State.Inv.idle {s : State} (h : s.Inv) (hb : s.regs.status.busy = false) : s.mode = .idle := by
  by_contra hm
  rw [h.status.busy.mpr hm] at hb
  cases hb

/-! ## Steps of a decode -/

/-- What holds all through a step of a decode: the invariant, but for the decoder state and its header
(42_decoder_fsm.md R197). -/
structure MidDecode (s : State) : Prop where
  cfg : s.cfg.ok = true
  status : StatusInv s
  memory : MemoryInv s
  mode : s.mode = .decompressing .decompress ∨ s.mode = .decompressing .decompressFramed
  inBounds : s.inBase + s.d.N ≤ s.cfg.inSize
  outBounds : s.d.C ≤ s.cfg.outSize
  ip : s.d.ip ≤ s.d.N
  op : s.d.op ≤ s.d.C

theorem State.Inv.midDecode {s : State} (h : s.Inv) {op : OpKind} (hm : s.mode = .decompressing op) :
    MidDecode s := by
  obtain ⟨hop, hd⟩ := h.decode op hm
  exact {
    cfg := h.cfg
    status := h.status
    memory := h.memory
    mode := by
      rcases hop with rfl | rfl
      · exact .inl hm
      · exact .inr hm
    inBounds := hd.inBounds
    outBounds := hd.outBounds
    ip := hd.ip
    op := hd.op }

theorem MidDecode.setIp {s : State} (h : MidDecode s) {ip : Nat} (hip : ip ≤ s.d.N) : MidDecode (s.setIp ip) where
  cfg := h.cfg
  status := h.status.congr rfl rfl
  memory := h.memory.congr rfl rfl rfl rfl
  mode := h.mode
  inBounds := h.inBounds
  outBounds := h.outBounds
  ip := hip
  op := h.op

theorem MidDecode.advance {s t : State} (h : MidDecode s) (adv : Advance s t) : MidDecode t := by
  obtain ⟨frame, regs, mode⟩ := adv.still
  have cursor : t.d.op ≤ t.d.C := frame.C ▸ adv.opEnd h.op
  have outBounds : t.d.C ≤ s.cfg.outSize := frame.C ▸ h.outBounds
  exact {
    cfg := frame.cfg ▸ h.cfg
    status := h.status.congr regs mode
    memory := h.memory.withOut frame.cfg frame.inMem frame.table (adv.wf h.memory.outWf) fun x hx =>
      (adv.mem x hx).elim (fun hlt => by omega) (h.memory.outSize x)
    mode := mode ▸ h.mode
    inBounds := by rw [adv.still.inBase, frame.N, frame.cfg]; exact h.inBounds
    outBounds := frame.cfg ▸ outBounds
    ip := frame.N ▸ adv.ipEnd h.ip
    op := cursor }

theorem MidDecode.inv {s : State} (h : MidDecode s) (boundary : AtBoundary s) : s.Inv where
  cfg := h.cfg
  status := h.status
  memory := h.memory
  decode := fun op hm => by
    obtain ⟨running, notStart, afterLiteral⟩ := boundary
    refine ⟨h.mode.imp (fun e => ?_) (fun e => ?_), h.inBounds, h.outBounds, h.ip, h.op, running,
      fun e => absurd e notStart, afterLiteral⟩ <;> rw [e] at hm <;> cases hm <;> rfl
  encode := fun op hm => by rcases h.mode with e | e <;> rw [e] at hm <;> cases hm

theorem ErrKind.code_ne (kind : ErrKind) : kind.code ≠ 0 ∧ kind.code ≠ 7 := by
  cases kind <;> decide

/-- A stop with an error needs no more than sound parameters and memories. -/
theorem State.inv_stopError {s : State} (cfg : s.cfg.ok = true) (memory : MemoryInv s) (kind : ErrKind)
    (inPos outPos : Nat) : (s.stopError kind inPos outPos).Inv :=
  .of_idle cfg (.failure _ kind.code_ne.1 kind.code_ne.2 _ _) (memory.forgetOut.congr rfl rfl rfl rfl) rfl

theorem MidDecode.inv_endDecode {s : State} (h : MidDecode s) : s.endDecode.Inv :=
  .of_idle h.cfg (.success _ _ _)
    (((h.advance (setDState_advance s .ended)).memory.keepOut (Nat.le_trans h.op h.outBounds)).congr
      rfl rfl rfl rfl) rfl

theorem DecodeNext.inv {s t : State} (hn : DecodeNext s t) (h : MidDecode s) : t.Inv := by
  cases hn with
  | goesOn adv boundary => exact (h.advance adv).inv boundary
  | error adv kind => exact State.inv_stopError (h.advance adv).cfg (h.advance adv).memory kind _ _
  | ends => exact h.inv_endDecode

theorem decoderStep_inv {s t : State} {op : OpKind} (h : s.Inv) (hm : s.mode = .decompressing op)
    (ht : (decoderStep s).outcome = .next t) : t.Inv := by
  obtain ⟨-, ⟨-, rfl⟩ | ⟨ip, hip, hn⟩⟩ := decoderStep_cases ht
  · exact h
  · have mid := h.midDecode hm
    exact hn.inv (mid.setIp (hip mid.ip))

/-! ## Steps of a compression -/

/-- A scan that is not over stands at least 10 bytes before the end of a source of 14 bytes or more
(40_match_finder.md R126). -/
theorem scanDone_false {s : State} (h : s.scanDone = false) : 13 < s.e.L ∧ (s.e.ip = 4 ∨ s.e.ip + 13 < s.e.L) := by
  simp only [State.scanDone, Config.shortInputMax, Config.scanMargin, Bool.or_eq_false_iff, Bool.and_eq_false_iff,
    decide_eq_false_iff_not] at h
  omega

/-- The length a probe reports: it ends inside the source, and pays for the bytes it is written in
(40_match_finder.md R124). -/
theorem probe_hit_length {s : State} {p slot dist len : Nat} (hp : p + 9 ≤ s.e.L)
    (h : s.probe p = (slot, .hit dist len)) : p + len ≤ s.e.L ∧ 3 ≤ len ∧ (2048 < dist → 4 ≤ len) := by
  rcases probe_cases s p with e | ⟨m, hm, -, e⟩ <;> rw [e] at h <;> cases h
  obtain ⟨-, -, goes⟩ := lookup_candidate hm
  have h6 := agreeFrom_range s m p 3 6
  have h9 := agreeFrom_range s m p 9 (s.e.L - (p + 9))
  have far : 2048 < p - m → 4 ≤ s.agreeFrom m p 3 6 := by
    intro hfar
    have heq : s.inByte (m + 3) = s.inByte (p + 3) := by
      simpa [State.goesOn, Nat.not_le.mpr hfar] using goes
    rw [State.agreeFrom, if_pos heq]
    exact (agreeFrom_range s m p 4 5).1
  unfold State.matchLength
  dsimp only
  split <;> omega

/-- The parts of the invariant that a compression's steps keep as they are, with the mode's own part proved for the
next state. -/
theorem State.Inv.keepsCompressing {s t : State} {op : OpKind} (h : s.Inv) (hm : s.mode = .compressing op)
    (cfg : t.cfg = s.cfg) (regs : t.regs = s.regs) (mode : t.mode = s.mode) (memory : MemoryInv t)
    (encode : EncodeInv t) : t.Inv where
  cfg := cfg ▸ h.cfg
  status := h.status.congr regs mode
  memory := memory
  decode := fun op' hm' => by rw [mode, hm] at hm'; cases hm'
  encode := fun op' hm' => ⟨(h.encode op' (mode ▸ hm')).1, encode⟩

theorem probeMissed_encodeInv {s : State} (h : EncodeInv s) (running : s.scanDone = false) (slot : Nat) :
    EncodeInv (probeMissed s slot) where
  source := h.source
  room := h.room
  written := h.written
  opened := h.opened
  short := h.short
  scan := fun hL => by
    obtain ⟨h4, hii, -⟩ := h.scan hL
    have := scanDone_false running
    exact ⟨Nat.le_succ_of_le h4, Nat.le_succ_of_le hii, by simp only [probeMissed]; omega⟩
  positions := fun hL x hx => by
    rcases Sparse.mem_set _ _ _ x hx with rfl | hx
    · exact Nat.lt_succ_of_le (State.slotPosition_range s _).2
    · exact Nat.lt_succ_of_lt (h.positions hL x hx)

theorem matchEmitted_encodeInv {s s1 : State} {slot dist len : Nat} (h : EncodeInv s) (running : s.scanDone = false)
    (found : s.probe s.e.ip = (slot, .hit dist len))
    (run : (s.storePosition slot).emitLiterals s.e.ii s.e.ip false = some s1) :
    EncodeInv (matchEmitted s s1 dist len) := by
  obtain ⟨hL, hip⟩ := scanDone_false running
  obtain ⟨h4, hii, -⟩ := h.scan hL
  obtain ⟨hend, h3, hfar⟩ := probe_hit_length (by omega) found
  have cost := length_encode_matchForm dist len h3 hfar
  have written := emitLiterals_op_le run
  have emits := EmitsTo.emitLiterals run
  have source : s1.e.L = s.e.L := emits.source
  have opAfter : (matchEmitted s s1 dist len).e.op = s1.e.op + (encode (matchForm dist len)).length := rfl
  have base : (matchEmitted s s1 dist len).outBase = s.outBase := emits.outBase
  simp only [State.storePosition_e] at written
  exact {
    source := by
      show s1.e.L ≤ s1.cfg.inSize
      rw [source, emits.commandFrame.cfg]
      exact h.source
    room := by
      show _ + outBound s1.e.L ≤ s1.cfg.outSize
      rw [base, source, emits.commandFrame.cfg]
      exact h.room
    written := by
      have := h.written
      rw [opAfter]
      show _ ≤ 17 * (s.e.ip + len)
      omega
    opened := .inr (by rw [opAfter]; omega)
    short := fun hs => by
      have : s1.e.L ≤ 13 := hs
      omega
    scan := fun _ => by
      show 4 ≤ s.e.ip + len ∧ s.e.ip + len ≤ s.e.ip + len ∧ s.e.ip + len ≤ s1.e.L
      omega
    positions := fun _ x hx => by
      have hx : x ∈ (s.storePosition slot).table := emits.table ▸ hx
      show x.2 < s.e.ip + len
      rcases Sparse.mem_set _ _ _ x hx with rfl | hx
      · have := (State.slotPosition_range s s.e.ip).2
        omega
      · have := h.positions hL x hx
        omega }

theorem EncodeNext.inv {s t : State} {op : OpKind} (hn : EncodeNext s t) (h : s.Inv)
    (hm : s.mode = .compressing op) : t.Inv := by
  have encode := (h.encode op hm).2
  cases hn with
  | @missed slot running found _ =>
    have hs : slot < Config.tableSlots := by have := probe_slot_lt s s.e.ip; rwa [found] at this
    exact h.keepsCompressing hm rfl rfl rfl ((h.memory.storePosition hs).congr rfl rfl rfl rfl)
      (probeMissed_encodeInv encode running slot)
  | @emitted slot dist len s1 running found run bounds =>
    have hs : slot < Config.tableSlots := by have := probe_slot_lt s s.e.ip; rwa [found] at this
    have emits := (EmitsTo.emitLiterals run).trans (.emitMatch s1 dist len)
    refine h.keepsCompressing hm emits.commandFrame.cfg emits.regs emits.mode ?_
      (matchEmitted_encodeInv encode running found run)
    exact ((h.memory.storePosition hs).emitsTo emits bounds).congr rfl rfl rfl rfl
  | @ends s1 done run bounds =>
    have emits := (EmitsTo.emitLiterals run).trans (.emit s1 (Sys2Proof.encode canonicalEos))
    exact .of_idle (emits.commandFrame.cfg ▸ h.cfg) (.success _ _ _)
      (((h.memory.emitsTo emits bounds).keepOut (of_decide_eq_true bounds)).congr rfl rfl rfl rfl) rfl

theorem engineTurn_inv {s t : State} (h : s.Inv) (ht : (engineTurn s).outcome = .next t) : t.Inv := by
  rcases engineTurn_cases ht with ⟨-, rfl⟩ | ⟨op, hm, hn⟩ | ⟨op, hm, hd⟩
  · exact h
  · exact hn.inv h hm
  · exact decoderStep_inv h hm hd

/-! ## Host commands -/

/-- A refused command leaves a block with no operation running (45_host_commands.md R276). -/
theorem State.Inv.refused {s : State} (h : s.Inv) : s.clearResults.refuse.Inv :=
  .of_idle h.cfg (.failure _ (by decide) (by decide) _ _) (h.memory.congr rfl rfl rfl rfl) rfl

theorem MemoryInv.startEncode {s : State} (h : MemoryInv s) (L : Nat) : MemoryInv (s.startEncode L) := by
  rcases State.startEncode_cases s L with ⟨-, e⟩ | ⟨-, e⟩ <;> rw [e]
  · exact ⟨h.inWf, h.outWf, .nil, h.inSize, h.outSize, nofun⟩
  · exact h.congr rfl rfl rfl rfl

/-- The cursors of a compression that has just started (41_encoder.md R141). -/
theorem startEncode_encodeInv {s : State} {L : Nat} (source : L ≤ s.cfg.inSize)
    (room : s.outBase + outBound L ≤ s.cfg.outSize) : EncodeInv (s.startEncode L) := by
  rcases State.startEncode_cases s L with ⟨hL, e⟩ | ⟨hL, e⟩ <;> rw [e]
  · exact {
      source := source
      room := room
      written := Nat.le_refl 0
      opened := .inl ⟨rfl, rfl⟩
      short := fun _ => rfl
      scan := fun _ => ⟨Nat.le_refl 4, Nat.zero_le _, by show 4 ≤ L; omega⟩
      positions := fun _ => nofun }
  · exact {
      source := source
      room := room
      written := Nat.le_refl 0
      opened := .inl ⟨rfl, rfl⟩
      short := fun _ => rfl
      scan := fun h => absurd h (Nat.not_lt.mpr hL)
      positions := fun h => absurd h (Nat.not_lt.mpr hL) }

/-- What is written to OUT does not matter to the cursors of a compression. -/
theorem EncodeInv.writeOut {s : State} (h : EncodeInv s) (a : Nat) (bytes : List Byte) :
    EncodeInv (s.writeOut a bytes) := by
  obtain ⟨source, room, written, opened, short, scan, positions⟩ := h
  exact ⟨source, room, written, opened, short, scan, positions⟩

/-- COMPRESS writes nothing in front of its stream, COMPRESS_FRAMED a header of 4 bytes, which is where the stream
starts (45_host_commands.md R271, R273). -/
theorem acceptCompress_inv {s : State} (h : s.Inv) {op : OpKind} {header : List Byte}
    (hop : (op = .compress ∧ header.length = 0) ∨ (op = .compressFramed ∧ header.length = 4)) :
    (acceptCompress op header s).Inv := by
  unfold acceptCompress
  dsimp only
  split
  · exact h.refused
  next fits =>
    simp only [State.inputTooLong, Bool.or_eq_true, decide_eq_true_eq, not_or, Nat.not_lt] at fits
    obtain ⟨⟨source, -⟩, room⟩ := fits
    have base : (s.clearResults.begin (.compressing op)).outBase = header.length := by
      obtain ⟨rfl, e⟩ | ⟨rfl, e⟩ := hop <;> rw [e] <;> rfl
    exact {
      cfg := by simpa using h.cfg
      status := .running (by simp) (by simp) (by simp) (by simp) (by simp)
      memory := by
        refine ((h.memory.congr rfl rfl rfl rfl : MemoryInv (s.clearResults.begin _)).startEncode _).writeOut ?_
        simp only [State.startEncode_cfg, State.begin_cfg, State.clearResults_cfg]
        omega
      decode := fun op' hm => by simp at hm
      encode := fun op' hm => by
        have room : (s.clearResults.begin (.compressing op)).outBase + outBound s.regs.inLen.toNat ≤
            s.cfg.outSize := by rwa [base]
        refine ⟨?_, (startEncode_encodeInv (s := s.clearResults.begin _) source room).writeOut 0 header⟩
        simp only [State.writeOut_mode, State.startEncode_mode, State.begin_mode, Mode.compressing.injEq] at hm
        exact hm ▸ hop.imp And.left And.left }

/-- The decoder's start step (42_decoder_fsm.md R182) on a stream that lies in IN. -/
theorem startDecode_inv {s : State} (h : s.Inv) {op : OpKind} (hop : op = .decompress ∨ op = .decompressFramed)
    {N C : Nat} (inBounds : (s.clearResults.begin (.decompressing op)).inBase + N ≤ s.cfg.inSize)
    (outBounds : C ≤ s.cfg.outSize) : ((s.clearResults.begin (.decompressing op)).startDecode N C).Inv where
  cfg := h.cfg
  status := .running rfl nofun rfl rfl rfl
  memory := h.memory.congr rfl rfl rfl rfl
  decode := fun op' hm => by
    cases hm
    exact ⟨hop, inBounds, outBounds, Nat.zero_le _, Nat.zero_le _, rfl, fun _ => ⟨rfl, rfl⟩, nofun⟩
  encode := nofun

theorem acceptDecompress_inv {s : State} (h : s.Inv) : (acceptDecompress s).Inv := by
  unfold acceptDecompress
  dsimp only
  split
  · exact h.refused
  next fits =>
    simp only [State.inputTooLong, State.capacityTooLarge, Bool.or_eq_true, decide_eq_true_eq, not_or,
      Nat.not_lt] at fits
    obtain ⟨⟨source, -⟩, capacity, -⟩ := fits
    exact startDecode_inv h (.inl rfl) (by simpa [State.inBase] using source) capacity

theorem acceptDecompressFramed_inv {s : State} (h : s.Inv) : (acceptDecompressFramed s).Inv := by
  unfold acceptDecompressFramed
  dsimp only
  split
  · exact h.refused
  next source =>
    simp only [State.inputTooLong, Bool.or_eq_true, decide_eq_true_eq, not_or, Nat.not_lt] at source
    split
    · exact State.inv_stopError h.cfg (h.memory.congr rfl rfl rfl rfl) _ _ _
    next four =>
      split
      · exact h.refused
      next capacity =>
        simp only [State.capacityTooLarge, Bool.or_eq_true, decide_eq_true_eq, not_or, Nat.not_lt] at capacity
        refine startDecode_inv h (.inr rfl) ?_ capacity.1
        simp only [State.inBase, State.begin_mode]
        omega

theorem unlessBusy_inv {s accepted t : State} (h : s.Inv) (ha : accepted.Inv)
    (ht : unlessBusy s accepted = .next t) : t.Inv := by
  unfold unlessBusy at ht
  split at ht <;> cases ht
  · exact h
  · exact ha

theorem ctrlWrite_inv {w : Word} {s t : State} (h : s.Inv) (ht : (hostWriteReg 0 w s).outcome = .next t) :
    t.Inv := by
  rcases ctrlWrite_cases w s with ⟨-, e⟩ | ⟨-, e⟩ | ⟨-, e⟩ | ⟨-, e⟩ | ⟨-, e⟩ <;> rw [e] at ht
  · exact unlessBusy_inv h (acceptCompress_inv h (.inl ⟨rfl, rfl⟩)) ht
  · exact unlessBusy_inv h (acceptDecompress_inv h) ht
  · exact unlessBusy_inv h (acceptCompress_inv h (.inr ⟨rfl, rfl⟩)) ht
  · exact unlessBusy_inv h (acceptDecompressFramed_inv h) ht
  · cases ht
    exact h

/-! ## The host's other turns -/

/-- A block whose memories and TABLE list nothing. -/
theorem MemoryInv.empty {s : State} (inMem : s.inMem = []) (outMem : s.outMem = []) (table : s.table = []) :
    MemoryInv s where
  inWf := inMem ▸ .nil
  outWf := outMem ▸ .nil
  tableWf := table ▸ .nil
  inSize := by rw [inMem]; nofun
  outSize := by rw [outMem]; nofun
  table := by rw [table]; nofun

theorem StatusInv.reset : StatusInv State.reset :=
  ⟨by decide, by decide, by decide, by decide, by decide, by decide, by decide⟩

/-- Reset leaves a block that meets the invariant, whatever it was doing (70_reset_and_hazards.md R330). -/
theorem State.resetBlock_inv {s : State} (cfg : s.cfg.ok = true) : s.resetBlock.Inv :=
  .of_idle cfg (StatusInv.reset.congr rfl rfl) (.empty rfl rfl rfl) rfl

/-- A word in a length register is nothing the invariant speaks of. -/
theorem State.Inv.writeLength {s : State} (h : s.Inv) (idle : s.regs.status.busy = false) (inLen dstCap : Word) :
    ({ s with regs := { s.regs with inLen := inLen, dstCap := dstCap } } : State).Inv := by
  obtain ⟨oneBit, noKind, kind, busy, busyRegs, errorLen, doneLen⟩ := h.status
  exact .of_idle h.cfg ⟨oneBit, noKind, kind, busy, busyRegs, errorLen, doneLen⟩
    (h.memory.congr rfl rfl rfl rfl) (h.idle idle)

/-- An entry inside a memory's size keeps the memory inside it. -/
theorem Memory.set_inside {m : Memory} {size a : Nat} (h : ∀ x ∈ m, x.1 < size) (ha : a < size) (b : Byte) :
    ∀ x ∈ Sparse.set m a b, x.1 < size := by
  intro x hx
  rcases Sparse.mem_set m a b x hx with rfl | hx
  · exact ha
  · exact h x hx

theorem HostChange.inv {s t : State} (hc : HostChange s t) (h : s.Inv) : t.Inv := by
  have m := h.memory
  cases hc with
  | unchanged => exact h
  | command run => exact ctrlWrite_inv h run
  | inLen idle w => exact h.writeLength idle w s.regs.dstCap
  | dstCap idle w => exact h.writeLength idle s.regs.inLen w
  | inByte idle b inside =>
    exact .of_idle h.cfg (h.status.congr rfl rfl) ⟨Sparse.wf_set _ _ _ m.inWf, m.outWf, m.tableWf,
      Memory.set_inside m.inSize inside b, m.outSize, m.table⟩ (h.idle idle)
  | outByte idle b inside =>
    exact .of_idle h.cfg (h.status.congr rfl rfl) (m.withOut rfl rfl rfl (Sparse.wf_set _ _ _ m.outWf)
      (Memory.set_inside m.outSize inside b)) (h.idle idle)
  | reset => exact State.resetBlock_inv h.cfg

/-- Settles O53: by whose turn it is, each turn keeping the invariant. -/
theorem everyStepKeepsTheInvariant : Obligations.EveryStepKeepsTheInvariant := by
  intro s t h ht
  rcases turn_cases s with ⟨u, hu⟩ | ⟨u, a, hu⟩
  · exact engineTurn_inv (h.of_engineNext hu) (step_of_engine hu ▸ ht)
  · exact (HostChange.of_hostTurn (step_of_host hu ▸ ht)).inv (h.of_hostNext hu)

/-- Settles O52: reset is a block with the default parameters that lists nothing and runs nothing. -/
theorem resetMeetsTheInvariant : Obligations.ResetMeetsTheInvariant :=
  .of_idle (by decide) .reset (.empty rfl rfl rfl) rfl

end Sys2Proof.Machine
end

section
namespace Sys2Proof.Machine

/-! ## What a memory reads after one of its bytes was stored -/

theorem State.inByte_set_same (s : State) (a : Nat) (b : Byte) :
    State.inByte { s with inMem := Sparse.set s.inMem a b } a = b := by
  simp [State.inByte]

theorem State.inByte_set_other (s : State) {a x : Nat} (b : Byte) (h : x ≠ a) :
    State.inByte { s with inMem := Sparse.set s.inMem a b } x = s.inByte x := by
  simp only [State.inByte, Sparse.get?_set_other _ _ _ _ h]

theorem State.outByte_set_same (s : State) (a : Nat) (b : Byte) :
    State.outByte { s with outMem := Sparse.set s.outMem a b } a = b := by
  simp [State.outByte]

theorem State.outByte_set_other (s : State) {a x : Nat} (b : Byte) (h : x ≠ a) :
    State.outByte { s with outMem := Sparse.set s.outMem a b } x = s.outByte x := by
  simp only [State.outByte, Sparse.get?_set_other _ _ _ _ h]

/-! ## The host's turns on the memories -/

/-- A write to a byte that IN has is stopped by nothing but BUSY (20_memory.md R60, R70). -/
theorem hostTurn_writeIn {s : State} {a : Nat} (inside : a < s.cfg.inSize) (b : Byte) :
    hostTurn (.writeIn a b) s = whileIdle s { s with inMem := Sparse.set s.inMem a b } :=
  if_neg (Nat.not_le.mpr inside)

/-- A write to a byte that OUT has is stopped by nothing but BUSY (20_memory.md R60, R70). -/
theorem hostTurn_writeOut {s : State} {a : Nat} (inside : a < s.cfg.outSize) (b : Byte) :
    hostTurn (.writeOut a b) s = whileIdle s { s with outMem := Sparse.set s.outMem a b } :=
  if_neg (Nat.not_le.mpr inside)

/-- A read of a register, or of a byte that exists, answers the same state (20_memory.md R67). -/
theorem hostTurn_read {s : State} {r : HostRead} (duty : HostDuty s (.read r)) :
    hostTurn (.read r) s = .answer (.next s) := by
  cases r with
  | reg number => rfl
  | inByte address | outByte address => exact if_neg (Nat.not_le.mpr duty)

/-- Settles O32: the next state lists the byte in its memory, and only that key of it reads differently. -/
theorem aHostByteWriteStoresThatByte : Obligations.AHostByteWriteStoresThatByte := by
  intro s u a b idle
  constructor
  · intro hu inside
    have next : step s = .next { u with inMem := Sparse.set u.inMem a b } := by
      rw [step_of_host hu, hostTurn_writeIn inside, whileIdle_of_not_busy idle]
    exact ⟨_, next, u.inByte_set_same a b, fun _ => u.inByte_set_other b, rfl⟩
  · intro hu inside
    have next : step s = .next { u with outMem := Sparse.set u.outMem a b } := by
      rw [step_of_host hu, hostTurn_writeOut inside, whileIdle_of_not_busy idle]
    exact ⟨_, next, u.outByte_set_same a b, fun _ => u.outByte_set_other b, rfl⟩

/-- Settles O34: the host's turn answers the state it was taken in, for each kind of read. -/
theorem aHostReadHasNoSideEffect : Obligations.AHostReadHasNoSideEffect := by
  intro s u r hu duty
  rw [step_of_host hu, hostTurn_read duty, Work.outcome_answer]

end Sys2Proof.Machine
end

section
namespace Sys2Proof

/-! ## Bytes and their fields -/

/-- A number below 256 is the value of its byte. -/
theorem toNat_byte {n : Nat} (h : n < 256) : (byte n).toNat = n := Nat.mod_eq_of_lt h

theorem eq_byte {b : Byte} {n : Nat} (h : b.toNat = n) : b = byte n := by
  subst h
  exact BitVec.eq_of_toNat_eq (toNat_byte b.isLt).symm

theorem bits_byte {n : Nat} (h : n < 256) (hi lo : Nat) : bits (byte n) hi lo = n / 2 ^ lo % 2 ^ (hi + 1 - lo) := by
  rw [bits, toNat_byte h]

/-- An opcode below 16 is two fields of two bits (30_encoding.md R87). -/
theorem exists_lowFields {t : Byte} (h : t.toNat < 16) : ∃ d s, d ≤ 3 ∧ s ≤ 3 ∧ t = byte (d * 4 + s) :=
  ⟨t.toNat / 4, t.toNat % 4, by omega, by omega, eq_byte (by omega)⟩

/-! ## Continuations -/

theorem continuation_of_le {v : Nat} (h : v ≤ 255) : continuation v = [byte v] := by
  have z : (v - 1) / 255 = 0 := by omega
  simp [continuation, z]

/-- Each further 255 is one more zero byte in front (30_encoding.md R89, R94). -/
theorem continuation_add {v : Nat} (h : 1 ≤ v) : continuation (255 + v) = byte 0 :: continuation v := by
  have z : (255 + v - 1) / 255 = (v - 1) / 255 + 1 := by omega
  have last : 255 + v - 255 * ((v - 1) / 255 + 1) = v - 255 * ((v - 1) / 255) := by omega
  simp only [continuation, z, last, List.replicate_succ, List.cons_append]

theorem readExt_zero_cons {bytes rest : List Byte} {v : Nat} (h : readExt bytes = some (v, rest)) :
    readExt (byte 0 :: bytes) = some (255 + v, rest) := by
  rw [readExt, if_pos (toNat_byte (by decide)), h]

theorem readExt_continuation {v : Nat} (h : 1 ≤ v) (rest : List Byte) :
    readExt (continuation v ++ rest) = some (v, rest) := by
  induction v using Nat.strong_induction_on with
  | _ v ih =>
    by_cases hv : v ≤ 255
    · have value : (byte v).toNat = v := toNat_byte (by omega)
      rw [continuation_of_le hv, List.singleton_append, readExt, value, if_neg (by omega)]
    · obtain ⟨w, rfl⟩ := Nat.exists_eq_add_of_le (Nat.le_of_not_le hv)
      rw [continuation_add (by omega), List.cons_append]
      exact readExt_zero_cons (ih w (by omega) (by omega))

theorem eq_continuation_of_readExt {bytes rest : List Byte} {v : Nat} (h : readExt bytes = some (v, rest)) :
    bytes = continuation v ++ rest := by
  induction bytes generalizing v with
  | nil => cases h
  | cons b bytes ih =>
    rw [readExt] at h
    split at h
    case isTrue zero =>
      split at h
      · next w after hw =>
        cases h
        rw [continuation_add (length_of_readExt _ _ _ hw).1, eq_byte zero, ih hw, List.cons_append]
      · cases h
    case isFalse =>
      cases h
      rw [continuation_of_le (by omega), ← eq_byte rfl, List.singleton_append]

/-- The grammar of 30_encoding.md R89, and its values. -/
theorem readExt_eq_some_iff {bytes rest : List Byte} {v : Nat} :
    readExt bytes = some (v, rest) ↔ 1 ≤ v ∧ bytes = continuation v ++ rest := by
  constructor
  · exact fun h => ⟨(length_of_readExt _ _ _ h).1, eq_continuation_of_readExt h⟩
  · rintro ⟨h, rfl⟩
    exact readExt_continuation h rest

/-- Settles O5: each zero byte of the grammar adds 255 to the value, so the bytes and the value fix each other. -/
theorem aContinuationHasOneValueAndOneForm : Obligations.AContinuationHasOneValueAndOneForm :=
  ⟨fun _ rest h => readExt_continuation h rest, fun _ _ _ h => readExt_eq_some_iff.mp h⟩

/-- Reading goes on behind a continuation, with its value, or lacks operand bytes (30_encoding.md R89). -/
def withExt (bytes : List Byte) (f : Nat → List Byte → Decoded) : Decoded :=
  (readExt bytes).elim (.reject .truncated) fun p => f p.1 p.2

theorem withExt_continuation {v : Nat} (h : 1 ≤ v) (rest : List Byte) (f : Nat → List Byte → Decoded) :
    withExt (continuation v ++ rest) f = f v rest := by
  rw [withExt, readExt_continuation h, Option.elim_some]

/-- Bytes are a continuation and what follows it, or they end within it. -/
theorem eq_continuation_append_or_truncated (bytes : List Byte) :
    (∃ v rest, 1 ≤ v ∧ bytes = continuation v ++ rest) ∨ ∀ f, withExt bytes f = .reject .truncated := by
  cases read : readExt bytes with
  | none => exact .inr fun f => by rw [withExt, read, Option.elim_none]
  | some p => exact .inl ⟨p.1, p.2, readExt_eq_some_iff.mp read⟩

theorem withExt_eq_ok {bytes rest : List Byte} {f : Nat → List Byte → Decoded} {i : Instr}
    (ok : withExt bytes f = .ok i rest) :
    ∃ v after, 1 ≤ v ∧ bytes = continuation v ++ after ∧ f v after = .ok i rest := by
  obtain ⟨v, after, hv, rfl⟩ | truncated := eq_continuation_append_or_truncated bytes
  · rw [withExt_continuation hv] at ok
    exact ⟨v, after, hv, rfl, ok⟩
  · rw [truncated] at ok
    cases ok

/-! ## Distance bytes -/

/-- The two bytes hold the low 14 bits of an offset (30_encoding.md R90). -/
theorem distanceBytes_add (h d s : Nat) : distanceBytes (16384 * h + d) s = distanceBytes d s := by
  have low : (16384 * h + d) % 64 = d % 64 := by omega
  have high : (16384 * h + d) / 64 % 256 = d / 64 % 256 := by omega
  rw [distanceBytes, low, high, distanceBytes]

/-- Any two bytes are the distance bytes of one offset and one count of trailing literals. -/
theorem eq_distanceBytes_append_or_short (bytes : List Byte) :
    (∃ d s rest, d < 16384 ∧ s ≤ 3 ∧ bytes = distanceBytes d s ++ rest) ∨ bytes.length < 2 := by
  match bytes with
  | [] | [_] => right; simp
  | lo :: hi :: rest =>
    left
    refine ⟨lo.toNat / 4 + 64 * hi.toNat, lo.toNat % 4, rest, by omega, by omega, ?_⟩
    have low : lo = byte ((lo.toNat / 4 + 64 * hi.toNat) % 64 * 4 + lo.toNat % 4) := eq_byte (by omega)
    have high : hi = byte ((lo.toNat / 4 + 64 * hi.toNat) / 64 % 256) := eq_byte (by omega)
    rw [distanceBytes, ← low, ← high]
    rfl

/-- The fields that the decoder takes from distance bytes. -/
theorem bits_distanceBytes {d s : Nat} (hd : d < 16384) (hs : s ≤ 3) :
    bits (byte (d % 64 * 4 + s)) 7 2 + 64 * (byte (d / 64 % 256)).toNat = d ∧
      bits (byte (d % 64 * 4 + s)) 1 0 = s := by
  rw [bits_byte (by omega), bits_byte (by omega), toNat_byte (by omega)]
  omega

theorem decodeNear_distanceBytes (form : Nat → Nat → Instr) {d s : Nat} (hd : d < 16384) (hs : s ≤ 3)
    (rest : List Byte) : decodeNear form (distanceBytes d s ++ rest) = .ok (form (1 + d) s) rest := by
  obtain ⟨offset, count⟩ := bits_distanceBytes hd hs
  rw [distanceBytes, List.cons_append, List.singleton_append, decodeNear, Nat.add_assoc, offset, count]

theorem decodeFar_distanceBytes (h : Nat) (form : Nat → Nat → Instr) (eos : Nat → Instr) {d s : Nat} (hd : d < 16384)
    (hs : s ≤ 3) (rest : List Byte) :
    decodeFar h form eos (distanceBytes d s ++ rest) =
      .ok (if h = 0 ∧ d = 0 then eos s else form (16384 + 16384 * h + d) s) rest := by
  obtain ⟨offset, count⟩ := bits_distanceBytes hd hs
  simp only [distanceBytes, List.cons_append, List.nil_append, decodeFar, offset, count]
  split <;> rfl

theorem decodeNear_of_short (form : Nat → Nat → Instr) {bytes : List Byte} (h : bytes.length < 2) :
    decodeNear form bytes = .reject .truncated := by
  match bytes, h with
  | [], _ | [_], _ => rfl

theorem decodeFar_of_short (h : Nat) (form : Nat → Nat → Instr) (eos : Nat → Instr) {bytes : List Byte}
    (short : bytes.length < 2) : decodeFar h form eos bytes = .reject .truncated := by
  match bytes, short with
  | [], _ | [_], _ => rfl

theorem decodeNear_eq_ok {form : Nat → Nat → Instr} {bytes rest : List Byte} {i : Instr}
    (h : decodeNear form bytes = .ok i rest) :
    ∃ d s, d < 16384 ∧ s ≤ 3 ∧ bytes = distanceBytes d s ++ rest ∧ i = form (1 + d) s := by
  obtain ⟨d, s, after, hd, hs, rfl⟩ | short := eq_distanceBytes_append_or_short bytes
  · rw [decodeNear_distanceBytes form hd hs] at h
    cases h
    exact ⟨d, s, hd, hs, rfl, rfl⟩
  · rw [decodeNear_of_short form short] at h
    cases h

theorem decodeFar_eq_ok {h : Nat} {form : Nat → Nat → Instr} {eos : Nat → Instr} {bytes rest : List Byte} {i : Instr}
    (ok : decodeFar h form eos bytes = .ok i rest) :
    ∃ d s, d < 16384 ∧ s ≤ 3 ∧ bytes = distanceBytes d s ++ rest ∧
      i = if h = 0 ∧ d = 0 then eos s else form (16384 + 16384 * h + d) s := by
  obtain ⟨d, s, after, hd, hs, rfl⟩ | short := eq_distanceBytes_append_or_short bytes
  · rw [decodeFar_distanceBytes h form eos hd hs] at ok
    cases ok
    exact ⟨d, s, hd, hs, rfl, rfl⟩
  · rw [decodeFar_of_short h form eos short] at ok
    cases ok

/-! ## Match opcodes -/

/-- The opcode bytes of 16 and more by their fields (30_encoding.md R84 to R86). -/
inductive MatchOpcode : Byte → Prop where
  | short (k d s : Nat) (hk : 2 ≤ k ∧ k ≤ 7) (hd : d ≤ 7) (hs : s ≤ 3) : MatchOpcode (byte (k * 32 + d * 4 + s))
  | near (l : Nat) (hl : 1 ≤ l ∧ l ≤ 31) : MatchOpcode (byte (0x20 + l))
  | nearExt : MatchOpcode (byte 0x20)
  | far (h l : Nat) (hh : h ≤ 1) (hl : 1 ≤ l ∧ l ≤ 7) : MatchOpcode (byte (0x10 + 8 * h + l))
  | farExt (h : Nat) (hh : h ≤ 1) : MatchOpcode (byte (0x10 + 8 * h))

/-- The fields cover every byte of 16 and more. -/
theorem matchOpcode_of_le {t : Byte} (ht : 16 ≤ t.toNat) : MatchOpcode t := by
  by_cases short : 64 ≤ t.toNat
  · rw [eq_byte (show t.toNat = t.toNat / 32 * 32 + t.toNat / 4 % 8 * 4 + t.toNat % 4 by omega)]
    exact .short _ _ _ (by omega) (by omega) (by omega)
  by_cases near : 32 < t.toNat
  · rw [eq_byte (show t.toNat = 0x20 + (t.toNat - 32) by omega)]
    exact .near _ (by omega)
  by_cases nearExt : t.toNat = 32
  · rw [eq_byte nearExt]
    exact .nearExt
  by_cases far : 1 ≤ t.toNat % 8
  · rw [eq_byte (show t.toNat = 0x10 + 8 * (t.toNat / 8 - 2) + t.toNat % 8 by omega)]
    exact .far _ _ (by omega) (by omega)
  · rw [eq_byte (show t.toNat = 0x10 + 8 * (t.toNat / 8 - 2) by omega)]
    exact .farExt _ (by omega)

theorem MatchOpcode.le {t : Byte} (ht : MatchOpcode t) : 16 ≤ t.toNat := by
  cases ht <;> rw [toNat_byte (by omega)] <;> omega

theorem decodeMatch_short {k d s : Nat} (hk : 2 ≤ k ∧ k ≤ 7) (hd : d ≤ 7) (hs : s ≤ 3) (b : Byte) (rest : List Byte) :
    decodeMatch (byte (k * 32 + d * 4 + s)) (b :: rest) = .ok (.m2 (1 + d + 8 * b.toNat) (k + 1) s) rest := by
  have small : k * 32 + d * 4 + s < 256 := by omega
  have hdist : (k * 32 + d * 4 + s) / 2 ^ 2 % 2 ^ (4 + 1 - 2) = d := by omega
  have hlen : (k * 32 + d * 4 + s) / 2 ^ 5 % 2 ^ (7 + 1 - 5) = k := by omega
  have hcount : (k * 32 + d * 4 + s) / 2 ^ 0 % 2 ^ (1 + 1 - 0) = s := by omega
  simp only [decodeMatch, toNat_byte small, bits_byte small, hdist, hlen, hcount]
  rw [if_pos (by omega)]

theorem decodeMatch_short_nil {k d s : Nat} (hk : 2 ≤ k ∧ k ≤ 7) (hd : d ≤ 7) (hs : s ≤ 3) :
    decodeMatch (byte (k * 32 + d * 4 + s)) [] = .reject .truncated := by
  rw [decodeMatch.eq_def, toNat_byte (by omega), if_pos (by omega)]

theorem decodeMatch_near {l : Nat} (hl : 1 ≤ l ∧ l ≤ 31) (bytes : List Byte) :
    decodeMatch (byte (0x20 + l)) bytes = decodeNear (fun dist s => .m3 dist (l + 2) s) bytes := by
  have field : bits (byte (0x20 + l)) 4 0 = l := by rw [bits_byte (by omega)]; omega
  rw [decodeMatch.eq_def, toNat_byte (by omega), if_neg (by omega), if_pos (by omega), field, if_neg (by omega)]

theorem decodeMatch_nearExt (bytes : List Byte) :
    decodeMatch (byte 0x20) bytes =
      withExt bytes fun ext => decodeNear fun dist s => .m3x dist (33 + ext) s := by
  rw [decodeMatch.eq_def, if_neg (by decide), if_pos (by decide), if_pos (by decide)]
  unfold withExt
  cases readExt bytes <;> rfl

theorem decodeMatch_far {h l : Nat} (hh : h ≤ 1) (hl : 1 ≤ l ∧ l ≤ 7) (bytes : List Byte) :
    decodeMatch (byte (0x10 + 8 * h + l)) bytes =
      decodeFar h (fun dist s => .m4 dist (l + 2) s) (fun s => .eos l 0 s) bytes := by
  have hfield : bits (byte (0x10 + 8 * h + l)) 3 3 = h := by rw [bits_byte (by omega)]; omega
  have lfield : bits (byte (0x10 + 8 * h + l)) 2 0 = l := by rw [bits_byte (by omega)]; omega
  rw [decodeMatch.eq_def, toNat_byte (by omega), if_neg (by omega), if_neg (by omega), hfield, lfield,
    if_neg (by omega)]

theorem decodeMatch_farExt {h : Nat} (hh : h ≤ 1) (bytes : List Byte) :
    decodeMatch (byte (0x10 + 8 * h)) bytes =
      withExt bytes fun ext => decodeFar h (fun dist s => .m4x dist (9 + ext) s) fun s => .eos 0 ext s := by
  have hfield : bits (byte (0x10 + 8 * h)) 3 3 = h := by rw [bits_byte (by omega)]; omega
  have lfield : bits (byte (0x10 + 8 * h)) 2 0 = 0 := by rw [bits_byte (by omega)]; omega
  rw [decodeMatch.eq_def, toNat_byte (by omega), if_neg (by omega), if_neg (by omega), hfield, if_pos lfield]
  unfold withExt
  cases readExt bytes <;> rfl

/-! ## Opcode tables -/

/-- The three decoder states behind the first byte, whose tables hold the match opcodes (30_encoding.md R81). -/
abbrev DecodeTable.general (c : DecodeTable) : Prop := c ≠ .start ∧ c ≠ .ctrl

/-- A byte of 16 or more means the same in each of those tables (30_encoding.md R81). -/
theorem decode_eq_decodeMatch {c : DecodeTable} (hc : c.general) {t : Byte} (ht : MatchOpcode t) (bytes : List Byte) :
    decode c (t :: bytes) = decodeMatch t bytes := by
  have le := ht.le
  cases c with
  | start => exact absurd rfl hc.1
  | ctrl => exact absurd rfl hc.2
  | literalOrMatch =>
    rw [decode, decodeLiteralOrMatch.eq_def]
    exact (if_neg (by omega)).trans (if_neg (by omega))
  | afterLiteral => rw [decode, decodeAfterLiteral.eq_def]; exact if_neg (by omega)
  | afterTrailing => rw [decode, decodeAfterTrailing.eq_def]; exact if_neg (by omega)

theorem decode_litf {n : Nat} (h : 4 ≤ n ∧ n ≤ 238) (rest : List Byte) :
    decode .start (byte (n + 17) :: rest) = .ok (.litf n) rest := by
  rw [decode, decodeStart, toNat_byte (by omega), if_pos (by omega), Nat.add_sub_cancel]

theorem decode_litfs {n : Nat} (h : 1 ≤ n ∧ n ≤ 3) (rest : List Byte) :
    decode .start (byte (n + 17) :: rest) = .ok (.litfs n) rest := by
  rw [decode, decodeStart, toNat_byte (by omega), if_neg (by omega), if_pos (by omega), Nat.add_sub_cancel]

theorem decode_start_passedOn {t : Byte} (h : t.toNat ≤ 17) (rest : List Byte) :
    decode .start (t :: rest) = .reject .notFirstByteRun := by
  rw [decode, decodeStart, if_neg (by omega), if_neg (by omega)]

theorem decode_lit {n : Nat} (h : 1 ≤ n ∧ n ≤ 15) (rest : List Byte) :
    decode .literalOrMatch (byte n :: rest) = .ok (.lit (n + 3)) rest := by
  rw [decode, decodeLiteralOrMatch, toNat_byte (by omega), if_neg (by omega), if_pos (by omega)]

theorem decode_litx (bytes : List Byte) :
    decode .literalOrMatch (byte 0 :: bytes) = withExt bytes fun ext => .ok (.litx (18 + ext)) := by
  rw [decode, decodeLiteralOrMatch, if_pos (by decide)]
  unfold withExt
  cases readExt bytes <;> rfl

/-- The fields of an opcode of two two-bit fields. -/
theorem bits_lowFields {d s : Nat} (hd : d ≤ 3) (hs : s ≤ 3) :
    (byte (d * 4 + s)).toNat < 16 ∧ bits (byte (d * 4 + s)) 3 2 = d ∧ bits (byte (d * 4 + s)) 1 0 = s := by
  rw [bits_byte (by omega), bits_byte (by omega), toNat_byte (by omega)]
  omega

theorem decode_m1l {d s : Nat} (hd : d ≤ 3) (hs : s ≤ 3) (b : Byte) (rest : List Byte) :
    decode .afterLiteral (byte (d * 4 + s) :: b :: rest) = .ok (.m1l (2049 + d + 4 * b.toNat) s) rest := by
  obtain ⟨small, dist, count⟩ := bits_lowFields hd hs
  simp only [decode, decodeAfterLiteral, if_pos small, dist, count]

theorem decode_m1 {d s : Nat} (hd : d ≤ 3) (hs : s ≤ 3) (b : Byte) (rest : List Byte) :
    decode .afterTrailing (byte (d * 4 + s) :: b :: rest) = .ok (.m1 (1 + d + 4 * b.toNat) s) rest := by
  obtain ⟨small, dist, count⟩ := bits_lowFields hd hs
  simp only [decode, decodeAfterTrailing, if_pos small, dist, count]

theorem decode_lowFields_nil {c : DecodeTable} (hc : c = .afterLiteral ∨ c = .afterTrailing) {d s : Nat} (hd : d ≤ 3)
    (hs : s ≤ 3) : decode c [byte (d * 4 + s)] = .reject .truncated := by
  have small := (bits_lowFields hd hs).1
  rcases hc with rfl | rfl <;> exact if_pos small

end Sys2Proof
end

section
namespace Sys2Proof

/-! ## The operand ranges, as propositions -/

theorem wf_litfs {n : Nat} : (Instr.litfs n).wf = true ↔ 1 ≤ n ∧ n ≤ 3 := by simp [Instr.wf]
theorem wf_litf {n : Nat} : (Instr.litf n).wf = true ↔ 4 ≤ n ∧ n ≤ 238 := by simp [Instr.wf]
theorem wf_lit {n : Nat} : (Instr.lit n).wf = true ↔ 4 ≤ n ∧ n ≤ 18 := by simp [Instr.wf]
theorem wf_litx {n : Nat} : (Instr.litx n).wf = true ↔ 19 ≤ n := by simp [Instr.wf]

section
variable {dist len s : Nat}

theorem wf_m1l : (Instr.m1l dist s).wf = true ↔ 2049 ≤ dist ∧ dist ≤ 3072 ∧ s ≤ 3 := by
  simp [Instr.wf, and_assoc]

theorem wf_m1 : (Instr.m1 dist s).wf = true ↔ 1 ≤ dist ∧ dist ≤ 1024 ∧ s ≤ 3 := by
  simp [Instr.wf, and_assoc]

theorem wf_m2 : (Instr.m2 dist len s).wf = true ↔ 1 ≤ dist ∧ dist ≤ 2048 ∧ 3 ≤ len ∧ len ≤ 8 ∧ s ≤ 3 := by
  simp [Instr.wf, and_assoc]

theorem wf_m3 : (Instr.m3 dist len s).wf = true ↔ 1 ≤ dist ∧ dist ≤ 16384 ∧ 3 ≤ len ∧ len ≤ 33 ∧ s ≤ 3 := by
  simp [Instr.wf, and_assoc]

theorem wf_m3x : (Instr.m3x dist len s).wf = true ↔ 1 ≤ dist ∧ dist ≤ 16384 ∧ 34 ≤ len ∧ s ≤ 3 := by
  simp [Instr.wf, and_assoc]

theorem wf_m4 : (Instr.m4 dist len s).wf = true ↔ 16385 ≤ dist ∧ dist ≤ 49151 ∧ 3 ≤ len ∧ len ≤ 9 ∧ s ≤ 3 := by
  simp [Instr.wf, and_assoc]

theorem wf_m4x : (Instr.m4x dist len s).wf = true ↔ 16385 ≤ dist ∧ dist ≤ 49151 ∧ 10 ≤ len ∧ s ≤ 3 := by
  simp [Instr.wf, and_assoc]

end

theorem wf_eos_zero {ext s : Nat} : (Instr.eos 0 ext s).wf = true ↔ 1 ≤ ext ∧ s ≤ 3 := by simp [Instr.wf]

theorem wf_eos_pos {l ext s : Nat} (hl : 1 ≤ l) : (Instr.eos l ext s).wf = true ↔ l ≤ 7 ∧ ext = 0 ∧ s ≤ 3 := by
  simp [Instr.wf, Nat.ne_of_gt hl, and_assoc]

/-! ## The encoder, by the fields of what it writes -/

/-- A distance of an opcode's field and a whole byte, from its range (30_encoding.md R84, R87, R90). -/
theorem exists_distanceFields {base m dist : Nat} (hm : 0 < m) (low : base ≤ dist) (high : dist < base + m * 256) :
    ∃ (d : Nat) (b : Byte), d < m ∧ dist = base + d + m * b.toNat := by
  obtain ⟨o, rfl⟩ := Nat.exists_eq_add_of_le low
  have quotient : o / m < 256 := Nat.div_lt_of_lt_mul (by omega)
  refine ⟨o % m, byte (o / m), Nat.mod_lt o hm, ?_⟩
  rw [toNat_byte quotient, Nat.add_assoc, Nat.mod_add_div]

/-- A distance of M4 or M4X, from its range (30_encoding.md R86, R90). -/
theorem exists_farFields {dist : Nat} (low : 16385 ≤ dist) (high : dist ≤ 49151) :
    ∃ h d, h ≤ 1 ∧ d < 16384 ∧ ¬(h = 0 ∧ d = 0) ∧ dist = 16384 + 16384 * h + d :=
  ⟨(dist - 16384) / 16384, (dist - 16384) % 16384, by omega, by omega, by omega, by omega⟩

theorem encode_m1l {d s : Nat} (hd : d ≤ 3) (b : Byte) :
    encode (.m1l (2049 + d + 4 * b.toNat) s) = [byte (d * 4 + s), b] := by
  have low : (2049 + d + 4 * b.toNat - 2049) % 4 = d := by omega
  have high : b = byte ((2049 + d + 4 * b.toNat - 2049) / 4) := eq_byte (by omega)
  rw [encode, low, ← high]

theorem encode_m1 {d s : Nat} (hd : d ≤ 3) (b : Byte) :
    encode (.m1 (1 + d + 4 * b.toNat) s) = [byte (d * 4 + s), b] := by
  have low : (1 + d + 4 * b.toNat - 1) % 4 = d := by omega
  have high : b = byte ((1 + d + 4 * b.toNat - 1) / 4) := eq_byte (by omega)
  rw [encode, low, ← high]

theorem encode_m2 {k d s : Nat} (hd : d ≤ 7) (b : Byte) :
    encode (.m2 (1 + d + 8 * b.toNat) (k + 1) s) = [byte (k * 32 + d * 4 + s), b] := by
  have low : (1 + d + 8 * b.toNat - 1) % 8 = d := by omega
  have high : b = byte ((1 + d + 8 * b.toNat - 1) / 8) := eq_byte (by omega)
  rw [encode, low, ← high, Nat.add_sub_cancel]

theorem encode_m3 (d l s : Nat) : encode (.m3 (1 + d) (l + 2) s) = byte (0x20 + l) :: distanceBytes d s := by
  rw [encode, Nat.add_sub_cancel, Nat.add_sub_cancel_left]

theorem encode_m3x (d ext s : Nat) :
    encode (.m3x (1 + d) (33 + ext) s) = byte 0x20 :: (continuation ext ++ distanceBytes d s) := by
  rw [encode, Nat.add_sub_cancel_left, Nat.add_sub_cancel_left]

/-- The opcode's bit 3 and the distance bytes of a far distance. -/
theorem farFields_eq {h d : Nat} (hd : d < 16384) (s : Nat) :
    (16384 + 16384 * h + d - 16384) / 16384 = h ∧
      distanceBytes (16384 + 16384 * h + d - 16384) s = distanceBytes d s := by
  rw [Nat.add_assoc, Nat.add_sub_cancel_left, distanceBytes_add]
  exact ⟨by omega, rfl⟩

theorem encode_m4 {h d : Nat} (hd : d < 16384) (l s : Nat) :
    encode (.m4 (16384 + 16384 * h + d) (l + 2) s) = byte (0x10 + 8 * h + l) :: distanceBytes d s := by
  obtain ⟨bit, offset⟩ := farFields_eq (h := h) hd s
  rw [encode, bit, offset, Nat.add_sub_cancel]

theorem encode_m4x {h d : Nat} (hd : d < 16384) (ext s : Nat) :
    encode (.m4x (16384 + 16384 * h + d) (9 + ext) s) =
      byte (0x10 + 8 * h) :: (continuation ext ++ distanceBytes d s) := by
  obtain ⟨bit, offset⟩ := farFields_eq (h := h) hd s
  rw [encode, bit, offset, Nat.add_sub_cancel_left]

/-- EOS is the far match of bit 3 and distance 0 (30_encoding.md R88). -/
theorem encode_eos_zero (ext s : Nat) :
    encode (.eos 0 ext s) = byte (0x10 + 8 * 0) :: (continuation ext ++ distanceBytes 0 s) := rfl

theorem encode_eos_pos {l : Nat} (hl : 1 ≤ l) (ext s : Nat) :
    encode (.eos l ext s) = byte (0x10 + 8 * 0 + l) :: distanceBytes 0 s := by
  rw [encode, if_neg (by omega), List.nil_append]

/-! ## Decoding what the encoder writes -/

section
variable {c : DecodeTable} {dist len s : Nat}

theorem decode_encode_m2 (hc : c.general) (wf : (Instr.m2 dist len s).wf = true) (rest : List Byte) :
    decode c (encode (.m2 dist len s) ++ rest) = .ok (.m2 dist len s) rest := by
  obtain ⟨hdist, hdist', hlen, hlen', hs⟩ := wf_m2.mp wf
  obtain ⟨d, b, hd, rfl⟩ := exists_distanceFields (m := 8) (by omega) hdist (by omega)
  obtain ⟨k, rfl⟩ := Nat.exists_eq_add_of_le' (show 1 ≤ len by omega)
  rw [encode_m2 (by omega), List.cons_append, decode_eq_decodeMatch hc (.short k d s (by omega) (by omega) hs)]
  exact decodeMatch_short (by omega) (by omega) hs b rest

theorem decode_encode_m3 (hc : c.general) (wf : (Instr.m3 dist len s).wf = true) (rest : List Byte) :
    decode c (encode (.m3 dist len s) ++ rest) = .ok (.m3 dist len s) rest := by
  obtain ⟨hdist, hdist', hlen, hlen', hs⟩ := wf_m3.mp wf
  obtain ⟨d, rfl⟩ := Nat.exists_eq_add_of_le hdist
  obtain ⟨l, rfl⟩ := Nat.exists_eq_add_of_le' (show 2 ≤ len by omega)
  rw [encode_m3, List.cons_append, decode_eq_decodeMatch hc (.near l (by omega)), decodeMatch_near (by omega),
    decodeNear_distanceBytes _ (by omega) hs]

theorem decode_encode_m3x (hc : c.general) (wf : (Instr.m3x dist len s).wf = true) (rest : List Byte) :
    decode c (encode (.m3x dist len s) ++ rest) = .ok (.m3x dist len s) rest := by
  obtain ⟨hdist, hdist', hlen, hs⟩ := wf_m3x.mp wf
  obtain ⟨d, rfl⟩ := Nat.exists_eq_add_of_le hdist
  obtain ⟨ext, rfl⟩ := Nat.exists_eq_add_of_le (show 33 ≤ len by omega)
  rw [encode_m3x, List.cons_append, decode_eq_decodeMatch hc .nearExt, decodeMatch_nearExt, List.append_assoc,
    withExt_continuation (by omega), decodeNear_distanceBytes _ (by omega) hs]

theorem decode_encode_m4 (hc : c.general) (wf : (Instr.m4 dist len s).wf = true) (rest : List Byte) :
    decode c (encode (.m4 dist len s) ++ rest) = .ok (.m4 dist len s) rest := by
  obtain ⟨hdist, hdist', hlen, hlen', hs⟩ := wf_m4.mp wf
  obtain ⟨h, d, hh, hd, notEos, rfl⟩ := exists_farFields hdist hdist'
  obtain ⟨l, rfl⟩ := Nat.exists_eq_add_of_le' (show 2 ≤ len by omega)
  rw [encode_m4 hd, List.cons_append, decode_eq_decodeMatch hc (.far h l hh (by omega)), decodeMatch_far hh (by omega),
    decodeFar_distanceBytes _ _ _ hd hs, if_neg notEos]

theorem decode_encode_m4x (hc : c.general) (wf : (Instr.m4x dist len s).wf = true) (rest : List Byte) :
    decode c (encode (.m4x dist len s) ++ rest) = .ok (.m4x dist len s) rest := by
  obtain ⟨hdist, hdist', hlen, hs⟩ := wf_m4x.mp wf
  obtain ⟨h, d, hh, hd, notEos, rfl⟩ := exists_farFields hdist hdist'
  obtain ⟨ext, rfl⟩ := Nat.exists_eq_add_of_le (show 9 ≤ len by omega)
  rw [encode_m4x hd, List.cons_append, decode_eq_decodeMatch hc (.farExt h hh), decodeMatch_farExt hh,
    List.append_assoc, withExt_continuation (by omega), decodeFar_distanceBytes _ _ _ hd hs, if_neg notEos]

theorem decode_encode_eos {l ext : Nat} (hc : c.general) (wf : (Instr.eos l ext s).wf = true) (rest : List Byte) :
    decode c (encode (.eos l ext s) ++ rest) = .ok (.eos l ext s) rest := by
  obtain rfl | hl := Nat.eq_zero_or_pos l
  · obtain ⟨hext, hs⟩ := wf_eos_zero.mp wf
    rw [encode_eos_zero, List.cons_append, decode_eq_decodeMatch hc (.farExt 0 (by omega)),
      decodeMatch_farExt (by omega), List.append_assoc, withExt_continuation hext,
      decodeFar_distanceBytes _ _ _ (by omega) hs, if_pos ⟨rfl, rfl⟩]
  · obtain ⟨hl', rfl, hs⟩ := (wf_eos_pos hl).mp wf
    rw [encode_eos_pos hl, List.cons_append, decode_eq_decodeMatch hc (.far 0 l (by omega) ⟨hl, hl'⟩),
      decodeMatch_far (by omega) ⟨hl, hl'⟩, decodeFar_distanceBytes _ _ _ (by omega) hs, if_pos ⟨rfl, rfl⟩]

end

/-- Settles O2: an instruction's table is its own or one that holds the match opcodes, and its fields are read back
from its opcode byte and its operand bytes. -/
theorem decodingAnEncodedInstructionGivesItBack : Obligations.DecodingAnEncodedInstructionGivesItBack := by
  intro i c rest wf table
  cases i with
  | litfs n =>
    cases c <;> cases table
    exact decode_litfs (wf_litfs.mp wf) rest
  | litf n =>
    cases c <;> cases table
    exact decode_litf (wf_litf.mp wf) rest
  | lit n =>
    cases c <;> cases table
    have hn := wf_lit.mp wf
    obtain ⟨l, rfl⟩ := Nat.exists_eq_add_of_le' (show 3 ≤ n by omega)
    rw [encode, Nat.add_sub_cancel, List.singleton_append, decode_lit (by omega)]
  | litx n =>
    cases c <;> cases table
    have hn := wf_litx.mp wf
    obtain ⟨ext, rfl⟩ := Nat.exists_eq_add_of_le (show 18 ≤ n by omega)
    rw [encode, Nat.add_sub_cancel_left, List.cons_append, decode_litx, withExt_continuation (by omega)]
  | m1l dist s =>
    cases c <;> cases table
    obtain ⟨hdist, hdist', hs⟩ := wf_m1l.mp wf
    obtain ⟨d, b, hd, rfl⟩ := exists_distanceFields (m := 4) (by omega) hdist (by omega)
    rw [encode_m1l (by omega)]
    exact decode_m1l (by omega) hs b rest
  | m1 dist s =>
    cases c <;> cases table
    obtain ⟨hdist, hdist', hs⟩ := wf_m1.mp wf
    obtain ⟨d, b, hd, rfl⟩ := exists_distanceFields (m := 4) (by omega) hdist (by omega)
    rw [encode_m1 (by omega)]
    exact decode_m1 (by omega) hs b rest
  | m2 => exact decode_encode_m2 (of_decide_eq_true table) wf rest
  | m3 => exact decode_encode_m3 (of_decide_eq_true table) wf rest
  | m3x => exact decode_encode_m3x (of_decide_eq_true table) wf rest
  | m4 => exact decode_encode_m4 (of_decide_eq_true table) wf rest
  | m4x => exact decode_encode_m4x (of_decide_eq_true table) wf rest
  | eos => exact decode_encode_eos (of_decide_eq_true table) wf rest
  | compress | decompress | compressFramed | decompressFramed =>
    cases c <;> cases table
    rfl

/-! ## What the decoder reads -/

/-- What a match opcode and the bytes behind it give is well-formed, and they are its encoding. -/
theorem eq_encode_of_decodeMatch {t : Byte} (ht : MatchOpcode t) {bytes rest : List Byte} {i : Instr}
    (ok : decodeMatch t bytes = .ok i rest) {c : DecodeTable} (hc : c.general) :
    i.wf = true ∧ i.inTable c = true ∧ t :: bytes = encode i ++ rest := by
  have table := decide_eq_true hc
  cases ht with
  | short k d s hk hd hs =>
    cases bytes with
    | nil => rw [decodeMatch_short_nil hk hd hs] at ok; cases ok
    | cons b after =>
      rw [decodeMatch_short hk hd hs] at ok
      cases ok
      exact ⟨wf_m2.mpr (by omega), table, by rw [encode_m2 hd]; rfl⟩
  | near l hl =>
    rw [decodeMatch_near hl] at ok
    obtain ⟨d, s, hd, hs, rfl, rfl⟩ := decodeNear_eq_ok ok
    exact ⟨wf_m3.mpr (by omega), table, by rw [encode_m3, List.cons_append]⟩
  | nearExt =>
    rw [decodeMatch_nearExt] at ok
    obtain ⟨ext, after, hext, rfl, behind⟩ := withExt_eq_ok ok
    obtain ⟨d, s, hd, hs, rfl, rfl⟩ := decodeNear_eq_ok behind
    exact ⟨wf_m3x.mpr (by omega), table, by rw [encode_m3x, List.cons_append, List.append_assoc]⟩
  | far h l hh hl =>
    rw [decodeMatch_far hh hl] at ok
    obtain ⟨d, s, hd, hs, rfl, rfl⟩ := decodeFar_eq_ok ok
    split
    case isTrue eos =>
      obtain ⟨rfl, rfl⟩ := eos
      exact ⟨(wf_eos_pos hl.1).mpr (by omega), table, by rw [encode_eos_pos hl.1, List.cons_append]⟩
    case isFalse notEos =>
      exact ⟨wf_m4.mpr (by omega), table, by rw [encode_m4 hd, List.cons_append]⟩
  | farExt h hh =>
    rw [decodeMatch_farExt hh] at ok
    obtain ⟨ext, after, hext, rfl, behind⟩ := withExt_eq_ok ok
    obtain ⟨d, s, hd, hs, rfl, rfl⟩ := decodeFar_eq_ok behind
    split
    case isTrue eos =>
      obtain ⟨rfl, rfl⟩ := eos
      exact ⟨wf_eos_zero.mpr ⟨hext, hs⟩, table, by rw [encode_eos_zero, List.cons_append, List.append_assoc]⟩
    case isFalse notEos =>
      exact ⟨wf_m4x.mpr (by omega), table, by rw [encode_m4x hd, List.cons_append, List.append_assoc]⟩

section
variable {t : Byte} {bytes rest : List Byte} {i : Instr}

theorem eq_encode_of_decode_match {c : DecodeTable} (hc : c.general) (ht : 16 ≤ t.toNat)
    (ok : decode c (t :: bytes) = .ok i rest) :
    i.wf = true ∧ i.inTable c = true ∧ t :: bytes = encode i ++ rest := by
  have opcode := matchOpcode_of_le ht
  rw [decode_eq_decodeMatch hc opcode] at ok
  exact eq_encode_of_decodeMatch opcode ok hc

theorem eq_encode_of_decode_start (ok : decode .start (t :: bytes) = .ok i rest) :
    i.wf = true ∧ i.inTable .start = true ∧ t :: bytes = encode i ++ rest := by
  by_cases passedOn : t.toNat ≤ 17
  · rw [decode_start_passedOn passedOn] at ok
    cases ok
  obtain ⟨n, hn⟩ := Nat.exists_eq_add_of_le' (show 17 ≤ t.toNat by omega)
  rw [eq_byte hn] at ok ⊢
  by_cases short : n ≤ 3
  · rw [decode_litfs (by omega)] at ok
    cases ok
    exact ⟨wf_litfs.mpr (by omega), rfl, rfl⟩
  · rw [decode_litf (by omega)] at ok
    cases ok
    exact ⟨wf_litf.mpr (by omega), rfl, rfl⟩

theorem eq_encode_of_decode_literalOrMatch (ok : decode .literalOrMatch (t :: bytes) = .ok i rest) :
    i.wf = true ∧ i.inTable .literalOrMatch = true ∧ t :: bytes = encode i ++ rest := by
  by_cases isMatch : 16 ≤ t.toNat
  · exact eq_encode_of_decode_match (by decide) isMatch ok
  have value : t = byte t.toNat := eq_byte rfl
  by_cases zero : t.toNat = 0
  · rw [value, zero, decode_litx] at ok
    obtain ⟨ext, after, hext, rfl, behind⟩ := withExt_eq_ok ok
    cases behind
    refine ⟨wf_litx.mpr (by omega), rfl, ?_⟩
    rw [value, zero, encode, Nat.add_sub_cancel_left, List.cons_append]
  · rw [value, decode_lit (by omega)] at ok
    cases ok
    refine ⟨wf_lit.mpr (by omega), rfl, ?_⟩
    rw [encode, Nat.add_sub_cancel, ← value, List.singleton_append]

theorem eq_encode_of_decode_afterLiteral (ok : decode .afterLiteral (t :: bytes) = .ok i rest) :
    i.wf = true ∧ i.inTable .afterLiteral = true ∧ t :: bytes = encode i ++ rest := by
  by_cases isMatch : 16 ≤ t.toNat
  · exact eq_encode_of_decode_match (by decide) isMatch ok
  obtain ⟨d, s, hd, hs, rfl⟩ := exists_lowFields (Nat.lt_of_not_le isMatch)
  cases bytes with
  | nil => rw [decode_lowFields_nil (.inl rfl) hd hs] at ok; cases ok
  | cons b after =>
    rw [decode_m1l hd hs] at ok
    cases ok
    exact ⟨wf_m1l.mpr (by omega), rfl, by rw [encode_m1l hd]; rfl⟩

theorem eq_encode_of_decode_afterTrailing (ok : decode .afterTrailing (t :: bytes) = .ok i rest) :
    i.wf = true ∧ i.inTable .afterTrailing = true ∧ t :: bytes = encode i ++ rest := by
  by_cases isMatch : 16 ≤ t.toNat
  · exact eq_encode_of_decode_match (by decide) isMatch ok
  obtain ⟨d, s, hd, hs, rfl⟩ := exists_lowFields (Nat.lt_of_not_le isMatch)
  cases bytes with
  | nil => rw [decode_lowFields_nil (.inr rfl) hd hs] at ok; cases ok
  | cons b after =>
    rw [decode_m1 hd hs] at ok
    cases ok
    exact ⟨wf_m1.mpr (by omega), rfl, by rw [encode_m1 hd]; rfl⟩

end

theorem decode_nil_ne_ok {c : DecodeTable} {i : Instr} {rest : List Byte} : decode c [] ≠ .ok i rest := by
  cases c <;> exact nofun

/-- Settles O3: in each table, the opcode's fields fix the form, and the operand bytes are those the encoder writes for
their values. -/
theorem everyStreamInstructionHasOneEncoding : Obligations.EveryStreamInstructionHasOneEncoding := by
  intro c bytes i rest stream ok
  cases bytes with
  | nil => exact absurd ok decode_nil_ne_ok
  | cons t bytes =>
    cases c with
    | ctrl => exact absurd rfl stream
    | start => exact eq_encode_of_decode_start ok
    | literalOrMatch => exact eq_encode_of_decode_literalOrMatch ok
    | afterLiteral => exact eq_encode_of_decode_afterLiteral ok
    | afterTrailing => exact eq_encode_of_decode_afterTrailing ok

end Sys2Proof
end

section
namespace Sys2Proof

/-! ## No byte is illegal -/

/-- Bytes that give an instruction, or lack operand bytes. -/
def Decoded.legal (d : Decoded) : Prop := (∃ i rest, d = .ok i rest) ∨ d = .reject .truncated

theorem legal_ok (i : Instr) (rest : List Byte) : (Decoded.ok i rest).legal := .inl ⟨i, rest, rfl⟩

theorem legal_withExt (bytes : List Byte) {f : Nat → List Byte → Decoded} (hf : ∀ v rest, (f v rest).legal) :
    (withExt bytes f).legal := by
  obtain ⟨v, after, hv, rfl⟩ | truncated := eq_continuation_append_or_truncated bytes
  · rw [withExt_continuation hv]
    exact hf v after
  · exact .inr (truncated f)

theorem legal_decodeNear (form : Nat → Nat → Instr) (bytes : List Byte) : (decodeNear form bytes).legal := by
  obtain ⟨d, s, after, hd, hs, rfl⟩ | short := eq_distanceBytes_append_or_short bytes
  · exact .inl ⟨_, _, decodeNear_distanceBytes form hd hs after⟩
  · exact .inr (decodeNear_of_short form short)

theorem legal_decodeFar (h : Nat) (form : Nat → Nat → Instr) (eos : Nat → Instr) (bytes : List Byte) :
    (decodeFar h form eos bytes).legal := by
  obtain ⟨d, s, after, hd, hs, rfl⟩ | short := eq_distanceBytes_append_or_short bytes
  · exact .inl ⟨_, _, decodeFar_distanceBytes h form eos hd hs after⟩
  · exact .inr (decodeFar_of_short h form eos short)

theorem legal_decodeMatch {t : Byte} (ht : MatchOpcode t) (bytes : List Byte) : (decodeMatch t bytes).legal := by
  cases ht with
  | short k d s hk hd hs =>
    cases bytes with
    | nil => exact .inr (decodeMatch_short_nil hk hd hs)
    | cons b after => exact .inl ⟨_, _, decodeMatch_short hk hd hs b after⟩
  | near l hl =>
    rw [decodeMatch_near hl]
    exact legal_decodeNear _ bytes
  | nearExt =>
    rw [decodeMatch_nearExt]
    exact legal_withExt bytes fun _ => legal_decodeNear _
  | far h l hh hl =>
    rw [decodeMatch_far hh hl]
    exact legal_decodeFar _ _ _ bytes
  | farExt h hh =>
    rw [decodeMatch_farExt hh]
    exact legal_withExt bytes fun _ => legal_decodeFar _ _ _

/-- A continuation of value 1 and two distance bytes complete any match opcode that one distance byte does not. -/
theorem exists_decodeMatch_eq_ok {t : Byte} (ht : MatchOpcode t) : ∃ bytes i, decodeMatch t bytes = .ok i [] := by
  have h0 : 0 < 16384 := by decide
  have h3 : 0 ≤ 3 := by decide
  cases ht with
  | short k d s hk hd hs => exact ⟨_, _, decodeMatch_short hk hd hs (byte 0) []⟩
  | near l hl => exact ⟨_, _, (decodeMatch_near hl _).trans (decodeNear_distanceBytes _ h0 h3 [])⟩
  | nearExt =>
    exact ⟨_, _, (decodeMatch_nearExt _).trans
      ((withExt_continuation le_rfl _ _).trans (decodeNear_distanceBytes _ h0 h3 []))⟩
  | far h l hh hl => exact ⟨_, _, (decodeMatch_far hh hl _).trans (decodeFar_distanceBytes _ _ _ h0 h3 [])⟩
  | farExt h hh =>
    exact ⟨_, _, (decodeMatch_farExt hh _).trans
      ((withExt_continuation le_rfl _ _).trans (decodeFar_distanceBytes _ _ _ h0 h3 []))⟩

/-- `t` starts an instruction in table `c`: any bytes behind it give one or are cut short, and some give one. -/
def Opens (c : DecodeTable) (t : Byte) : Prop :=
  (∀ bytes, (decode c (t :: bytes)).legal) ∧ ∃ bytes i, decode c (t :: bytes) = .ok i []

theorem opens_of_match {c : DecodeTable} (hc : c.general) {t : Byte} (ht : 16 ≤ t.toNat) : Opens c t := by
  have opcode := matchOpcode_of_le ht
  constructor
  · intro bytes
    rw [decode_eq_decodeMatch hc opcode]
    exact legal_decodeMatch opcode bytes
  · obtain ⟨bytes, i, ok⟩ := exists_decodeMatch_eq_ok opcode
    exact ⟨bytes, i, (decode_eq_decodeMatch hc opcode bytes).trans ok⟩

theorem opens_literalOrMatch (t : Byte) : Opens .literalOrMatch t := by
  by_cases isMatch : 16 ≤ t.toNat
  · exact opens_of_match (by decide) isMatch
  rw [show t = byte t.toNat from eq_byte rfl]
  by_cases zero : t.toNat = 0
  · rw [zero]
    constructor
    · intro bytes
      rw [decode_litx]
      exact legal_withExt bytes fun _ => legal_ok _
    · exact ⟨continuation 1 ++ [], _, (decode_litx _).trans (withExt_continuation le_rfl _ _)⟩
  · have read := decode_lit (n := t.toNat) (by omega)
    exact ⟨fun bytes => .inl ⟨_, _, read bytes⟩, [], _, read []⟩

/-- Right after a literal run, and after trailing literals, an opcode below 16 has one more byte. -/
theorem opens_expectMatch {c : DecodeTable} (hc : c = .afterLiteral ∨ c = .afterTrailing) (t : Byte) : Opens c t := by
  by_cases isMatch : 16 ≤ t.toNat
  · exact opens_of_match (by rcases hc with rfl | rfl <;> decide) isMatch
  obtain ⟨d, s, hd, hs, rfl⟩ := exists_lowFields (Nat.lt_of_not_le isMatch)
  have read : ∀ b rest, ∃ i, decode c (byte (d * 4 + s) :: b :: rest) = .ok i rest := by
    rcases hc with rfl | rfl
    · exact fun b rest => ⟨_, decode_m1l hd hs b rest⟩
    · exact fun b rest => ⟨_, decode_m1 hd hs b rest⟩
  constructor
  · intro bytes
    cases bytes with
    | nil => exact .inr (decode_lowFields_nil hc hd hs)
    | cons b rest => exact .inl ((read b rest).imp fun _ ok => ⟨rest, ok⟩)
  · exact ⟨[byte 0], read (byte 0) []⟩

theorem opens_of_stream {c : DecodeTable} (hc : c = .literalOrMatch ∨ c = .afterLiteral ∨ c = .afterTrailing)
    (t : Byte) : Opens c t := by
  rcases hc with rfl | expect
  · exact opens_literalOrMatch t
  · exact opens_expectMatch expect t

theorem exists_decode_start_eq_ok {t : Byte} (ht : 18 ≤ t.toNat) (rest : List Byte) :
    ∃ i, decode .start (t :: rest) = .ok i rest := by
  obtain ⟨n, hn⟩ := Nat.exists_eq_add_of_le' (show 17 ≤ t.toNat by omega)
  rw [eq_byte hn]
  by_cases short : n ≤ 3
  · exact ⟨_, decode_litfs (by omega) rest⟩
  · exact ⟨_, decode_litf (by omega) rest⟩

/-- Settles O4: the fields of an opcode take every value, and operand bytes are missing or read. -/
theorem noByteValueIsIllegal : Obligations.NoByteValueIsIllegal :=
  ⟨fun _ t bytes hc => (opens_of_stream hc t).1 bytes, fun _ t hc => (opens_of_stream hc t).2,
    fun _ bytes => ⟨fun ht => exists_decode_start_eq_ok ht bytes, fun ht => decode_start_passedOn ht bytes⟩⟩

/-- Settles O1, by running the decoder on each word. -/
theorem writtenOutWordsDecode : Obligations.WrittenOutWordsDecode := by
  unfold Obligations.WrittenOutWordsDecode
  decide

end Sys2Proof
end

section
namespace Sys2Proof.Machine

/-! ## The hash and its slots -/

/-- A byte mixed into a word that has room for the shift: nothing is lost in 32 bits, and the result has the shifted
word's width (40_match_finder.md R111). -/
theorem mixByte_exact {x : BitVec 32} {n : Nat} (k : Nat) (b : Byte) (hx : x.toNat < 2 ^ n) (byteFits : 8 ≤ n + k)
    (wordFits : n + k ≤ 32) :
    (x <<< k ^^^ b.setWidth 32).toNat = x.toNat <<< k ^^^ b.toNat ∧
      (x <<< k ^^^ b.setWidth 32).toNat < 2 ^ (n + k) := by
  have shifted : x.toNat <<< k < 2 ^ (n + k) := Nat.shiftLeft_lt hx
  have exact : (x <<< k ^^^ b.setWidth 32).toNat = x.toNat <<< k ^^^ b.toNat := by
    rw [BitVec.toNat_xor, BitVec.toNat_shiftLeft, BitVec.toNat_setWidth_of_le (by decide),
      Nat.mod_eq_of_lt (Nat.lt_of_lt_of_le shifted (Nat.pow_le_pow_right (by decide) wordFits))]
  refine ⟨exact, ?_⟩
  rw [exact]
  exact Nat.xor_lt_two_pow shifted (Nat.lt_of_lt_of_le b.isLt (Nat.pow_le_pow_right (by decide) byteFits))

/-- The mixed bytes in 32-bit arithmetic, `h1` of 40_match_finder.md R110. -/
def hashMix32 (p0 p1 p2 p3 : Byte) : BitVec 32 :=
  ((((p3.setWidth 32 <<< 6) ^^^ p2.setWidth 32) <<< 5 ^^^ p1.setWidth 32) <<< 5) ^^^ p0.setWidth 32

theorem toNat_hashMix32 (p0 p1 p2 p3 : Byte) : (hashMix32 p0 p1 p2 p3).toNat = hashMix p0 p1 p2 p3 := by
  have start : (p3.setWidth 32).toNat = p3.toNat := BitVec.toNat_setWidth_of_le (by decide)
  obtain ⟨e2, lt2⟩ := mixByte_exact 6 p2 (start.symm ▸ p3.isLt) (by decide) (by decide)
  obtain ⟨e1, lt1⟩ := mixByte_exact 5 p1 lt2 (by decide) (by decide)
  obtain ⟨e0, -⟩ := mixByte_exact 5 p0 lt1 (by decide) (by decide)
  rw [hashMix32, e0, e1, e2, start, hashMix]

/-- Shifting a mix shifts each of its bytes (40_match_finder.md R111). -/
theorem hashMix_closed (p0 p1 p2 p3 : Byte) :
    hashMix p0 p1 p2 p3 = (p3.toNat <<< 16) ^^^ (p2.toNat <<< 10) ^^^ (p1.toNat <<< 5) ^^^ p0.toNat := by
  simp only [hashMix, Nat.shiftLeft_xor_distrib, ← Nat.shiftLeft_add]

theorem toNat_hashMix32_mul (p0 p1 p2 p3 : Byte) :
    (hashMix32 p0 p1 p2 p3 * 33#32).toNat = hashMix p0 p1 p2 p3 * 33 := by
  have bound := hashMix_lt p0 p1 p2 p3
  rw [BitVec.toNat_mul, toNat_hashMix32]
  exact Nat.mod_eq_of_lt (show hashMix p0 p1 p2 p3 * 33 < 2 ^ 32 by omega)

theorem toNat_hashIndex32 (p0 p1 p2 p3 : Byte) :
    (((hashMix32 p0 p1 p2 p3 * 33#32) >>> 5) &&& 0x3FFF#32).toNat = hashIndex p0 p1 p2 p3 := by
  rw [BitVec.toNat_and, BitVec.toNat_ushiftRight, toNat_hashMix32_mul]
  rfl

/-- Settles O40: each byte is mixed into a word with room for it, and 24 bits leave room for the product. -/
theorem theHashNeverWraps : Obligations.TheHashNeverWraps := by
  refine ⟨fun p0 p1 p2 p3 => ?_, by decide⟩
  have bound := hashMix_lt p0 p1 p2 p3
  exact ⟨hashMix_closed p0 p1 p2 p3, by omega, by omega, toNat_hashMix32 p0 p1 p2 p3, toNat_hashMix32_mul p0 p1 p2 p3,
    toNat_hashIndex32 p0 p1 p2 p3, hashIndex_lt p0 p1 p2 p3⟩

/-- Settles O41: the mask leaves 11 bits, and above them the constant alone stands. -/
theorem theFallbackSlotLiesInItsRange : Obligations.TheFallbackSlotLiesInItsRange := by
  intro idx
  have masked : (idx &&& 0x7FF) / 2 ^ 11 = 0 := Nat.div_eq_of_lt (Nat.lt_succ_of_le Nat.and_le_right)
  have high : rehash idx / 2 ^ 11 = 4 := by rw [rehash, Nat.xor_div_two_pow, masked]; rfl
  exact ⟨rfl, by omega, by omega⟩

/-! ## What a probe reports -/

theorem goesOn_eq_true {s : State} {c p : Nat} :
    s.goesOn c p = true ↔ p - c ≤ 2048 ∨ s.inByte (c + 3) = s.inByte (p + 3) := by
  simp [State.goesOn]

theorem goesOn_eq_false {s : State} {c p : Nat} :
    s.goesOn c p = false ↔ 2048 < p - c ∧ s.inByte (c + 3) ≠ s.inByte (p + 3) := by
  rw [← Bool.not_eq_true, goesOn_eq_true, not_or, Nat.not_le]

theorem probe_slot (s : State) (p : Nat) : (s.probe p).1 = (s.lookup p).1 := by
  rcases probe_cases s p with e | ⟨m, -, -, e⟩ <;> rw [e]

/-- Without a second lookup, the slot is the hash's (40_match_finder.md R119). -/
theorem lookup_slot_primary {s : State} {p : Nat}
    (h : ∀ c, s.candidate (s.indexAt p) p = some c → s.goesOn c p = true) : (s.lookup p).1 = s.indexAt p := by
  rcases lookup_cases s p with ⟨-, e⟩ | ⟨c, -, -, e⟩ | ⟨c, hc, stops, -⟩
  · rw [e]
  · rw [e]
  · rw [h c hc] at stops
    cases stops

/-- After a second lookup, the parameter chooses the slot (40_match_finder.md R119). -/
theorem lookup_slot_fallback {s : State} {p c : Nat} (hc : s.candidate (s.indexAt p) p = some c)
    (stops : s.goesOn c p = false) :
    (s.lookup p).1 = if s.cfg.updateSlot = .lastProbed then rehash (s.indexAt p) else s.indexAt p := by
  rcases lookup_cases s p with ⟨none, -⟩ | ⟨c', hc', goes, -⟩ | ⟨-, -, -, r, -, e⟩
  · rw [hc] at none
    cases none
  · rw [hc] at hc'
    cases hc'
    rw [stops] at goes
    cases goes
  · rw [e]

/-- Where the parameter does not ask for the slot probed last, the slot is the hash's (40_match_finder.md R119). -/
theorem lookup_slot_of_primary {s : State} (p : Nat) (h : s.cfg.updateSlot = .primary) :
    (s.lookup p).1 = s.indexAt p := by
  rcases lookup_cases s p with ⟨-, e⟩ | ⟨c, -, -, e⟩ | ⟨c, -, -, r, -, e⟩ <;> rw [e]
  simp [h]

/-- Settles O43: by whether the candidate of the first lookup goes on. -/
theorem aProbeWritesItsSlot : Obligations.AProbeWritesItsSlot := by
  intro s p slot r h
  have hslot : slot = (s.lookup p).1 := by rw [← probe_slot, h]
  subst hslot
  refine ⟨lookup_slot_of_primary p, fun lastProbed => ⟨lookup_slot s p, ?_, ?_⟩⟩
  · rintro ⟨c, hc, stops⟩
    rw [lookup_slot_fallback hc (goesOn_eq_false.mpr stops), if_pos lastProbed]
  · exact fun near => lookup_slot_primary fun c hc => goesOn_eq_true.mpr (near c hc)

/-- The three bytes of the confirmation agree (40_match_finder.md R120). -/
theorem confirmed_agrees {s : State} {m p : Nat} (h : s.confirmed m p = true) :
    ∀ k, k < 3 → s.inByte (m + k) = s.inByte (p + k) := by
  simp only [State.confirmed, Bool.and_eq_true, beq_iff_eq] at h
  obtain ⟨⟨h0, h1⟩, h2⟩ := h
  intro k hk
  obtain rfl | rfl | rfl : k = 0 ∨ k = 1 ∨ k = 2 := by omega
  · exact h0
  · exact h1
  · exact h2

/-- The counted length goes no further than the two positions agree (40_match_finder.md R121). -/
theorem matchLength_agrees {s : State} {m p k : Nat} (h3 : 3 ≤ k) (h : k < s.matchLength m p) :
    s.inByte (m + k) = s.inByte (p + k) := by
  simp only [State.matchLength] at h
  split at h
  · exact agreeFrom_agrees h3 h
  · by_cases h9 : k < 9
    · exact agreeFrom_agrees (fuel := 6) h3 (by omega)
    · exact agreeFrom_agrees (Nat.le_of_not_lt h9) h

/-- A match that a probe reports lies at a candidate below the position, and agrees with the source there
(40_match_finder.md R124). -/
theorem probe_hit_agrees {s : State} {p slot dist len : Nat} (h : s.probe p = (slot, .hit dist len)) :
    1 ≤ dist ∧ dist ≤ 49151 ∧ dist ≤ p ∧ ∀ k, k < len → s.inByte (p + k) = s.inByte (p - dist + k) := by
  rcases probe_cases s p with e | ⟨m, hm, confirmed, e⟩ <;> rw [e] at h <;> cases h
  obtain ⟨below, near, -⟩ := lookup_candidate hm
  refine ⟨by omega, near, Nat.sub_le p m, fun k hk => ?_⟩
  rw [Nat.sub_sub_self below.le]
  by_cases h3 : k < 3
  · exact (confirmed_agrees confirmed k h3).symm
  · exact (matchLength_agrees (Nat.le_of_not_lt h3) hk).symm

/-- Settles O42: the length by its two counting loops, the bytes by the confirmation and those loops. -/
theorem everyMatchFoundAgreesWithTheSource : Obligations.EveryMatchFoundAgreesWithTheSource := by
  intro s p slot dist len hp h
  obtain ⟨inSource, atLeast3, far⟩ := probe_hit_length hp h
  obtain ⟨pos, near, below, agrees⟩ := probe_hit_agrees h
  exact ⟨atLeast3, inSource, pos, near, below, far, fun h9 k hk => agrees k (Nat.lt_of_lt_of_le hk h9), agrees⟩

end Sys2Proof.Machine
end

section
namespace Sys2Proof.Machine

/-! ## What an emission writes, byte by byte -/

/-- `t` comes from `s` by emitting `out` and OR-ing `count` into the byte two below the output cursor of `s`, and
nothing else: an emission of which every byte of OUT is known. -/
structure EmitsExactly (s t : State) (count : Nat) (out : List Byte) : Prop where
  emitted : Emitted s t count out
  above : ∀ x, s.outBase + t.e.op ≤ x → t.outByte x = s.outByte x
  emits : EmitsTo s t
  early : count ≠ 0 → 2 ≤ s.e.op

theorem EmitsExactly.refl (s : State) : EmitsExactly s s 0 [] where
  emitted := ⟨rfl, nofun, fun h => absurd rfl h, fun _ _ _ => rfl⟩
  above := fun _ _ => rfl
  emits := .refl s
  early := fun h => absurd rfl h

/-- An emission reads back as its bytes, behind the output cursor. -/
theorem State.outByte_emit_in (s : State) {bytes : List Byte} {k : Nat} {b : Byte} (h : bytes[k]? = some b) :
    (s.emit bytes).outByte (s.outBase + s.e.op + k) = b :=
  State.outByte_writeOut_in s _ bytes k b h

/-- An emission leaves the bytes below the old output cursor and above the new one. -/
theorem State.outByte_emit_out (s : State) (bytes : List Byte) {x : Nat}
    (h : x < s.outBase + s.e.op ∨ s.outBase + (s.e.op + bytes.length) ≤ x) :
    (s.emit bytes).outByte x = s.outByte x :=
  State.outByte_writeOut_out s _ bytes x (by omega)

/-- More bytes behind the cursor leave what was emitted before them. -/
theorem EmitsExactly.emit {s t : State} {count : Nat} {out : List Byte} (h : EmitsExactly s t count out)
    (bytes : List Byte) : EmitsExactly s (t.emit bytes) count (out ++ bytes) := by
  obtain ⟨⟨op, written, patched, below⟩, above, emits, early⟩ := h
  have base := emits.outBase
  refine ⟨⟨?_, fun k b hk => ?_, fun hc => ?_, fun x hx hp => ?_⟩, fun x hx => ?_, emits.trans (.emit t bytes), early⟩
  · simp only [State.emit_e, List.length_append]
    omega
  · by_cases old : k < out.length
    · rw [t.outByte_emit_out bytes (.inl (by omega))]
      exact written k b (by rwa [List.getElem?_append_left old] at hk)
    · rw [List.getElem?_append_right (Nat.le_of_not_lt old)] at hk
      rw [show s.outBase + s.e.op + k = t.outBase + t.e.op + (k - out.length) by omega]
      exact t.outByte_emit_in hk
  · have := early hc
    rw [t.outByte_emit_out bytes (.inl (by omega)), patched hc]
  · rw [t.outByte_emit_out bytes (.inl (by omega)), below x hx hp]
  · simp only [State.emit_e] at hx
    rw [t.outByte_emit_out bytes (.inr (by omega)), above x (by omega)]

/-- The patch changes its one byte of OUT (41_encoder.md R145). -/
theorem EmitsExactly.patch {s : State} {n : Nat} (hop : 2 ≤ s.e.op) (hn : n ≠ 0) :
    ∃ t, s.patch n = some t ∧ EmitsExactly s t n [] := by
  obtain ⟨small, -⟩ | ⟨-, e⟩ := State.patch_cases s n
  · omega
  have other : ∀ x b, x ≠ s.outBase + s.e.op - 2 →
      (s.writeOut (s.outBase + s.e.op - 2) [b]).outByte x = s.outByte x := fun x b hx =>
    State.outByte_writeOut_out s _ [b] x (by rw [List.length_singleton]; omega)
  refine ⟨_, e, ⟨rfl, nofun, fun _ => ?_, fun x _ hp => ?_⟩, fun x hx => ?_, (EmitsTo.patch e).1, fun _ => hop⟩
  · exact State.outByte_writeOut_in s _ _ 0 _ rfl
  · exact other x _ (hp.resolve_left hn)
  · exact other x _ (by rw [State.writeOut_e] at hx; omega)

/-! ## Literal runs -/

theorem State.opensStream_eq_true {s : State} {tail : Bool} {n : Nat} :
    s.opensStream tail n = true ↔
      s.e.op = 0 ∧ 1 ≤ n ∧ n ≤ 238 ∧ (tail = true ∨ s.cfg.firstRunForm = .shortOpcode ∧ 4 ≤ n) := by
  simp [State.opensStream, and_assoc]

/-- A run's form, by what carries its length (41_encoder.md R144 to R149). -/
theorem runForm_lengthBytes (s : State) (tail : Bool) (n : Nat) :
    (runForm s.cfg.firstRunForm tail s.e.op n = .nothing ∧ n = 0 ∧ s.patchCount tail n = 0 ∧
      s.lengthBytes tail n = []) ∨
    (runForm s.cfg.firstRunForm tail s.e.op n = .patch ∧ n ≠ 0 ∧ s.patchCount tail n = n ∧
      s.lengthBytes tail n = []) ∨
    ∃ i, runForm s.cfg.firstRunForm tail s.e.op n = .instr i ∧ s.patchCount tail n = 0 ∧
      s.lengthBytes tail n = encode i := by
  unfold State.patchCount State.lengthBytes
  obtain ⟨rfl, e⟩ | ⟨hop, h1, h238, first, e⟩ | ⟨h1, opensNot, e⟩ := runForm_cases s.cfg.firstRunForm tail s.e.op n
  · have opens : s.opensStream tail 0 = false := by simp [State.opensStream]
    exact .inl ⟨e, rfl, by simp [opens], by simp [opens]⟩
  · have opens := State.opensStream_eq_true.mpr ⟨hop, h1, h238, first⟩
    exact .inr (.inr ⟨_, e, by simp [opens], by simp [opens, encode_firstRun, Nat.add_comm]⟩)
  · have opens : s.opensStream tail n = false := by
      rw [← Bool.not_eq_true, State.opensStream_eq_true]
      exact fun ⟨hop, _, h238, first⟩ => opensNot ⟨hop, h238, first⟩
    simp only [opens, Bool.false_eq_true, if_false]
    obtain ⟨h3, form⟩ | ⟨h4, h18, form⟩ | ⟨h19, form⟩ := generalForm_cases n <;> rw [form] at e
    · exact .inr (.inl ⟨e, by omega, if_pos h3, if_pos h3⟩)
    · exact .inr (.inr ⟨_, e, if_neg (by omega), by rw [if_neg (by omega), if_pos h18]; rfl⟩)
    · exact .inr (.inr ⟨_, e, if_neg (by omega), by rw [if_neg (by omega), if_neg (by omega)]; rfl⟩)

/-- A literal run is its length bytes and its raw bytes, or a patch and its raw bytes (41_encoder.md R144 to R150). -/
theorem EmitsExactly.emitLiterals {s : State} (start stop : Nat) (tail : Bool)
    (h : s.patchCount tail (stop - start) ≠ 0 → 2 ≤ s.e.op) :
    ∃ t, s.emitLiterals start stop tail = some t ∧
      EmitsExactly s t (s.patchCount tail (stop - start))
        (s.lengthBytes tail (stop - start) ++ s.readIn start (stop - start)) := by
  have run := s.emitLiterals_cases start stop tail
  obtain ⟨form, empty, count, length⟩ | ⟨form, nonempty, count, length⟩ | ⟨i, form, count, length⟩ :=
    runForm_lengthBytes s tail (stop - start)
  · have run : s.emitLiterals start stop tail = some s := by simpa [form] using run
    rw [count, length, empty]
    exact ⟨s, run, .refl s⟩
  · obtain ⟨t, patched, exact⟩ := EmitsExactly.patch (h (by rwa [count])) nonempty
    rw [count, length]
    exact ⟨_, by simpa [form, patched] using run, exact.emit _⟩
  · rw [count, length]
    exact ⟨_, by simpa [form] using run, ((EmitsExactly.refl s).emit (encode i)).emit _⟩

/-! ## A probe's step -/

@[simp] theorem State.storePosition_readIn (s : State) (slot a n : Nat) :
    (s.storePosition slot).readIn a n = s.readIn a n :=
  State.readIn_congr s _ a n fun _ _ => rfl

/-- After an emission, the scan and the run start move; nothing else changes. -/
theorem EmitsTo.moveScan {s t : State} (h : EmitsTo s t) (ip ii : Nat) :
    { t with e := { t.e with ip := ip, ii := ii } } =
      { s with outMem := t.outMem, e := { L := s.e.L, ip := ip, ii := ii, op := t.e.op } } := by
  obtain ⟨out, op, rfl⟩ : ∃ out op, t = { s with outMem := out, e := { s.e with op := op } } := ⟨_, _, h.frame⟩
  rfl

/-- A compression's output stays in OUT: its cursor is at most 17/16 of what is covered (41_encoder.md R161). -/
theorem EncodeInv.encodeBounds {s : State} (h : EncodeInv s) : s.encodeBounds = true := by
  obtain ⟨-, room, written, -, short, scan, -⟩ := h
  simp only [Config.shortInputMax, outBound] at room short scan
  exact decide_eq_true (by omega)

/-- A position of a compression's source fits in a slot (00_scope.md R8). -/
theorem State.Inv.slotPosition {s : State} {op : OpKind} (h : s.Inv) (hm : s.mode = .compressing op)
    (running : s.scanDone = false) : s.slotPosition s.e.ip = s.e.ip := by
  have source := (h.encode op hm).2.source
  have limits := h.cfg
  have scan := scanDone_false running
  simp only [Params.ok, Bool.and_eq_true, decide_eq_true_eq] at limits
  obtain ⟨⟨⟨⟨-, inSize⟩, -⟩, -⟩, width⟩ := limits
  exact s.slotPosition_of_lt (by omega)

/-- While the scan runs, a step of a compression is a probe (41_encoder.md R159). -/
theorem step_of_scanning {s u : State} {op : OpKind} (hu : EngineNext s u) (hm : u.mode = .compressing op)
    (h : u.Inv) (running : u.scanDone = false) : step s = probeStep u := by
  have source := (h.encode op hm).2.source
  rw [step_of_engine hu]
  simp [engineTurn, hm, encoderStep, running, Nat.not_lt.mpr source]

/-- What TABLE reads after a probe stored its position (40_match_finder.md R119). -/
theorem slot_of_table {s t : State} {slot : Nat} (table : t.table = (s.storePosition slot).table) :
    t.slot slot = some (s.slotPosition s.e.ip) ∧ ∀ k, k ≠ slot → t.slot k = s.slot k := by
  simp only [State.slot, table, State.storePosition_table]
  exact ⟨Sparse.get?_set_same _ _ _, fun k hk => Sparse.get?_set_other _ _ _ _ hk⟩

/-- Settles O44: the step stores the position and moves the scan, and the output cursor stays in OUT. -/
theorem aProbeWithoutAMatchMovesTheScanByOne : Obligations.AProbeWithoutAMatchMovesTheScanByOne := by
  intro s u op slot hu hm h running found
  have bounds : (u.storePosition slot).encodeBounds = true := (h.encode op hm).2.encodeBounds
  obtain ⟨stored, others⟩ := slot_of_table (s := u) (t := probeMissed u slot) (slot := slot) rfl
  rw [h.slotPosition hm running] at stored
  refine ⟨probeMissed u slot, ?_, rfl, stored, others⟩
  rw [step_of_scanning hu hm h running, probeStep, found]
  exact if_pos bounds

/-- A pending run that is patched into the match before it has one: the first probe stands behind 4 bytes
(41_encoder.md R162). -/
theorem EncodeInv.patch_early {s : State} (h : EncodeInv s) (running : s.scanDone = false)
    (patched : s.patchCount false (s.e.ip - s.e.ii) ≠ 0) : 2 ≤ s.e.op := by
  have short : s.e.ip - s.e.ii ≤ 3 := by
    by_contra long
    simp [State.patchCount, long] at patched
  have scan := (h.scan (scanDone_false running).1).1
  have opened := h.opened
  omega

/-- Settles O45: the step stores the position and emits the run and the match behind it, all within OUT. -/
theorem aProbeWithAMatchEmitsIt : Obligations.AProbeWithAMatchEmitsIt := by
  intro s u op slot dist len hu hm h running found
  have cursors := (h.encode op hm).2
  obtain ⟨s1, run, literals⟩ := EmitsExactly.emitLiterals (s := u.storePosition slot) u.e.ii u.e.ip false
    (cursors.patch_early running)
  rw [State.storePosition_readIn] at literals
  obtain ⟨emitted, above, emits, -⟩ := literals.emit (encode (matchForm dist len))
  have bounds : (s1.emitMatch dist len).encodeBounds = true :=
    (matchEmitted_encodeInv cursors running found run).encodeBounds
  obtain ⟨stored, others⟩ := slot_of_table (s := u) (t := matchEmitted u s1 dist len) emits.table
  rw [h.slotPosition hm running] at stored
  refine ⟨matchEmitted u s1 dist len, ?_, ⟨emitted.op, emitted.bytes, emitted.patched, emitted.below⟩, above, stored,
    others, ?_⟩
  · rw [step_of_scanning hu hm h running, probeStep, found]
    simp only [run]
    exact if_pos bounds
  · exact (emits.moveScan _ _).trans (by rw [← emits.table]; rfl)

end Sys2Proof.Machine
end

section
namespace Sys2Proof.Machine

/-! ## The final step of a compression -/

/-- Settles O46: a run's bytes are those of its form, and the emission keeps the rest. -/
theorem aLiteralRunIsWrittenInItsForm : Obligations.ALiteralRunIsWrittenInItsForm := by
  intro s start n tail early
  have length : start + n - start = n := Nat.add_sub_cancel_left start n
  obtain ⟨t, run, exact⟩ := EmitsExactly.emitLiterals (s := s) start (start + n) tail (by rwa [length])
  rw [length] at exact
  exact ⟨t, run, exact.emitted, exact.above, exact.emits.frame⟩

/-- A tail run that is patched has a match before it: behind an empty output it opens the stream
(41_encoder.md R149, R162). -/
theorem EncodeInv.tail_early {s : State} (h : EncodeInv s) {n : Nat} (patched : s.patchCount true n ≠ 0) :
    2 ≤ s.e.op := by
  obtain ⟨empty, -⟩ | early := h.opened
  · have opens : s.opensStream true n = true := by
      have short : n ≤ 3 := by
        by_contra long
        simp [State.patchCount, long] at patched
      have pos : n ≠ 0 := by
        rintro rfl
        simp [State.patchCount] at patched
      exact State.opensStream_eq_true.mpr ⟨empty, by omega, by omega, .inl rfl⟩
    simp [State.patchCount, opens] at patched
  · exact early

/-- The run start lies in the source. -/
theorem EncodeInv.runStart_le {s : State} (h : EncodeInv s) : s.e.ii ≤ s.e.L := by
  have opened := h.opened
  by_cases long : Config.shortInputMax < s.e.L
  · have scan := h.scan long
    omega
  · have short := h.short (Nat.le_of_not_lt long)
    omega

/-- The tail run and the terminator stay within the bound (41_encoder.md R161). -/
theorem EncodeInv.end_le_outBound {s s1 : State} (h : EncodeInv s)
    (run : s.emitLiterals s.e.ii s.e.L true = some s1) :
    (s1.emit (encode canonicalEos)).e.op ≤ outBound s.e.L := by
  have tail := emitLiterals_op_le run
  have written := h.written
  have start := h.runStart_le
  have terminator : (encode canonicalEos).length = 3 := rfl
  simp only [State.emit_e, terminator, outBound]
  omega

theorem EncodeInv.end_bounds {s s1 : State} (h : EncodeInv s) (run : s.emitLiterals s.e.ii s.e.L true = some s1) :
    (s1.emit (encode canonicalEos)).encodeBounds = true := by
  have emits := (EmitsTo.emitLiterals run).trans (.emit s1 (encode canonicalEos))
  have within := h.end_le_outBound run
  have room := h.room
  refine decide_eq_true ?_
  rw [emits.outBase, emits.commandFrame.cfg]
  omega

/-- What is emitted is part of the result that the completion keeps (45_host_commands.md R279). -/
theorem EmitsExactly.endEncode {s t : State} {count : Nat} {out : List Byte} (h : EmitsExactly s t count out) :
    Emitted s t.endEncode count out := by
  obtain ⟨⟨op, bytes, patched, below⟩, -, emits, early⟩ := h
  have kept : ∀ x, x < s.outBase + t.e.op → t.endEncode.outByte x = t.outByte x := fun x hx =>
    State.outByte_keepOut t _ x (by rwa [emits.outBase])
  refine ⟨op, fun k b hk => ?_, fun hc => ?_, fun x hx hp => ?_⟩
  · have := (List.getElem?_eq_some_iff.mp hk).1
    rw [kept _ (by omega), bytes k b hk]
  · have := early hc
    rw [kept _ (by omega), patched hc]
  · rw [kept _ (by omega), below x hx hp]

/-- What the tail run and the terminator write (41_encoder.md R149, R157). -/
theorem EncodeInv.end_exact {s s1 : State} (h : EncodeInv s) (run : s.emitLiterals s.e.ii s.e.L true = some s1) :
    EmitsExactly s (s1.emit (encode canonicalEos)) (s.patchCount true (s.e.L - s.e.ii))
      (s.lengthBytes true (s.e.L - s.e.ii) ++ s.readIn s.e.ii (s.e.L - s.e.ii) ++ [0x11, 0x00, 0x00]) := by
  obtain ⟨t, run', literals⟩ := EmitsExactly.emitLiterals s.e.ii s.e.L true h.tail_early
  obtain rfl : s1 = t := Option.some.inj (run.symm.trans run')
  exact literals.emit (encode canonicalEos)

/-- What a pending run and the match behind it write (41_encoder.md R143). -/
theorem EncodeInv.match_emitted {s s1 : State} (h : EncodeInv s) (running : s.scanDone = false) {slot : Nat}
    (run : (s.storePosition slot).emitLiterals s.e.ii s.e.ip false = some s1) (dist len : Nat) :
    Emitted s (matchEmitted s s1 dist len) (s.patchCount false (s.e.ip - s.e.ii))
      (s.lengthBytes false (s.e.ip - s.e.ii) ++ s.readIn s.e.ii (s.e.ip - s.e.ii) ++
        encode (matchForm dist len)) := by
  obtain ⟨t, run', literals⟩ := EmitsExactly.emitLiterals (s := s.storePosition slot) s.e.ii s.e.ip false
    (h.patch_early running)
  obtain rfl : s1 = t := Option.some.inj (run.symm.trans run')
  rw [State.storePosition_readIn] at literals
  obtain ⟨op, bytes, patched, below⟩ := (literals.emit (encode (matchForm dist len))).emitted
  exact ⟨op, bytes, patched, below⟩

/-! ## Every turn of the engine has a next state -/

theorem step_of_compressing {s u : State} {op : OpKind} (hu : EngineNext s u) (hm : u.mode = .compressing op) :
    step s = encoderStep u := by
  rw [step_of_engine hu, engineTurn, hm]
  rfl

/-- The final step has a byte for each of its accesses (41_encoder.md R161, R162). -/
theorem EncodeInv.finalStep_next {s : State} (h : EncodeInv s) : ∃ t, finalStep s = .next t := by
  obtain ⟨s1, run, -⟩ := EmitsExactly.emitLiterals s.e.ii s.e.L true h.tail_early
  refine ⟨(s1.emit (encode canonicalEos)).endEncode, ?_⟩
  simp only [finalStep, run]
  exact encodeAnswer_eq_next.mpr ⟨h.end_bounds run, rfl⟩

/-- A compression has no error path (41_encoder.md R163). -/
theorem compressing_next {s u : State} {op : OpKind} (hu : EngineNext s u) (h : u.Inv)
    (hm : u.mode = .compressing op) : ∃ t, step s = .next t := by
  cases done : u.scanDone with
  | true =>
    have encode := (h.encode op hm).2
    obtain ⟨t, final⟩ := encode.finalStep_next
    refine ⟨t, ?_⟩
    rw [step_of_compressing hu hm, encoderStep, if_neg (Nat.not_lt.mpr encode.source), done, if_pos rfl, final]
  | false =>
    cases found : u.probe u.e.ip with
    | mk slot r =>
      cases r with
      | noMatch =>
        obtain ⟨t, next, -⟩ := aProbeWithoutAMatchMovesTheScanByOne s u op slot hu hm h done found
        exact ⟨t, next⟩
      | hit dist len =>
        obtain ⟨t, next, -⟩ := aProbeWithAMatchEmitsIt s u op slot dist len hu hm h done found
        exact ⟨t, next⟩

/-- A stream instruction within its bounds answers a next state (20_memory.md R66). -/
theorem exec_stream_next {i : Instr} (hi : i.inTable .ctrl = false) {s : State} (bounds : s.decodeBounds = true) :
    ∃ t, exec i s = .next t := by
  rcases exec_stream_cases hi s with ⟨n, e⟩ | ⟨n, e⟩ | ⟨dist, len, count, e⟩ | ⟨l3, ext, count, e⟩ <;> rw [e]
  · exact ⟨_, if_pos bounds⟩
  · exact ⟨_, if_pos bounds⟩
  · exact ⟨_, if_pos bounds⟩
  · rw [execEos, if_pos bounds]
    split
    · exact ⟨_, rfl⟩
    · split <;> exact ⟨_, rfl⟩

theorem fetchInstr_next {c : DecodeTable} (hc : c ≠ .ctrl) (held : List Byte) {s : State}
    (bounds : s.decodeBounds = true) : ∃ t, (fetchInstr c held s).outcome = .next t := by
  rcases fetchInstr_cases c held s with ⟨i, rest, read, e⟩ | ⟨-, e⟩ | ⟨r, -, -, e⟩ <;> rw [e]
  · exact exec_stream_next (inTable_ctrl_of_decode hc read) bounds
  · exact ⟨_, rfl⟩
  · exact ⟨_, rfl⟩

theorem DecodeInv.decodeBounds {s : State} (h : DecodeInv s) : s.decodeBounds = true := by
  simp [State.decodeBounds, h.inBounds, h.outBounds, h.op]

theorem DecodeInv.decoderStep_next {s : State} (h : DecodeInv s) : ∃ t, (decoderStep s).outcome = .next t := by
  have bounds := h.decodeBounds
  have running := h.running
  rw [decoderStep, if_pos bounds]
  split
  · split
    · exact ⟨_, rfl⟩
    · exact fetchInstr_next (by decide) [] bounds
  · split
    · exact ⟨_, rfl⟩
    · exact fetchInstr_next (by decide) [] bounds
  · exact fetchInstr_next (by decide) [] bounds
  · split
    · exact ⟨_, rfl⟩
    · exact fetchInstr_next (by decide) [s.d.t] bounds
  next copying =>
    rw [copying] at running
    cases running
  · exact ⟨_, rfl⟩
  · exact ⟨_, rfl⟩

/-- Settles O54: by the mode, the cursors of the operation lying inside the memories. -/
theorem theEngineAlwaysHasANextState : Obligations.TheEngineAlwaysHasANextState := by
  intro s u h hu
  have inv := h.of_engineNext hu
  cases hm : u.mode with
  | idle => exact ⟨u, by rw [step_of_engine hu, engineTurn, hm]; rfl⟩
  | compressing op => exact compressing_next hu inv hm
  | decompressing op =>
    obtain ⟨t, next⟩ := (inv.decode op hm).2.decoderStep_next
    exact ⟨t, by rw [step_of_engine hu, engineTurn, hm]; exact next⟩

/-- The engine's next step while a compression runs. -/
theorem EncodeNext.of_step {s u t : State} {op : OpKind} (hu : EngineNext s u) (hm : u.mode = .compressing op)
    (h : step s = .next t) : EncodeNext u t :=
  .of_encoderStep (step_of_compressing hu hm ▸ h)

/-- Settles O48: the next state is that of the final step, whose emission the completion keeps. -/
theorem theFinalStepCompletesTheCommand : Obligations.TheFinalStepCompletesTheCommand := by
  intro s u op hu hm h done
  obtain ⟨t, next⟩ := compressing_next hu h hm
  have encode := (h.encode op hm).2
  cases EncodeNext.of_step hu hm next with
  | missed running => simp [done] at running
  | emitted running => simp [done] at running
  | @ends s1 _ run _ =>
    have exact := encode.end_exact run
    have emits := exact.emits
    refine ⟨_, next, exact.endEncode, encode.end_le_outBound run, ?_, emits.commandFrame.trans (.endEncode _), ?_,
      emits.table, rfl, rfl, ?_, ?_, ?_⟩
    · exact (congrArg State.e emits.frame : _)
    · exact (congrArg State.d emits.frame : _)
    · rw [← emits.outBase]; rfl
    · rw [← emits.source]; rfl
    · rw [← emits.outBase]; rfl

end Sys2Proof.Machine
end

section
namespace Sys2Proof.Machine

/-! ## Runs -/

/-- `t` is the state after `k` steps from `s`. -/
def RunsIn (k : Nat) (s t : State) : Prop := Sys2Proof.core.run k s = .next t

theorem RunsIn.refl (s : State) : RunsIn 0 s s := rfl

/-- One step and then the rest, of any machine. -/
theorem run_succ_eq_next {M : Host.Core} {k : Nat} {s t : M.State} :
    M.run (k + 1) s = .next t ↔ ∃ u, M.step s = .next u ∧ M.run k u = .next t := by
  rw [Host.Core.run]
  cases M.step s <;> simp

theorem runsIn_succ {k : Nat} {s t : State} : RunsIn (k + 1) s t ↔ ∃ u, step s = .next u ∧ RunsIn k u t :=
  run_succ_eq_next (M := Sys2Proof.core)

theorem RunsIn.step {s t : State} (h : step s = .next t) : RunsIn 1 s t := runsIn_succ.mpr ⟨t, h, .refl t⟩

theorem RunsIn.trans {j k : Nat} {s t u : State} (h : RunsIn j s t) (h' : RunsIn k t u) : RunsIn (j + k) s u := by
  induction j generalizing s with
  | zero =>
    cases h
    rwa [Nat.zero_add]
  | succ j ih =>
    obtain ⟨v, next, rest⟩ := runsIn_succ.mp h
    rw [Nat.succ_add]
    exact runsIn_succ.mpr ⟨v, next, ih rest⟩

/-! ## The start of a compression -/

@[simp] theorem State.startEncode_turns (s : State) (L : Nat) : (s.startEncode L).turns = s.turns := by
  rcases State.startEncode_cases s L with ⟨-, e⟩ | ⟨-, e⟩ <;> rw [e]

@[simp] theorem State.startEncode_inMem (s : State) (L : Nat) : (s.startEncode L).inMem = s.inMem := by
  rcases State.startEncode_cases s L with ⟨-, e⟩ | ⟨-, e⟩ <;> rw [e]

@[simp] theorem State.startEncode_inGen (s : State) (L : Nat) : (s.startEncode L).inGen = s.inGen := by
  rcases State.startEncode_cases s L with ⟨-, e⟩ | ⟨-, e⟩ <;> rw [e]

/-- The block after it accepted a COMPRESS or COMPRESS_FRAMED with `header` in front of its stream. -/
def compressionStarted (op : OpKind) (header : List Byte) (s : State) : State :=
  ((s.clearResults.begin (.compressing op)).startEncode s.regs.inLen.toNat).writeOut 0 header

/-- A compression is accepted where its lengths fit, and else refused (45_host_commands.md R275, R276). -/
theorem acceptCompress_cases (op : OpKind) (header : List Byte) (s : State) :
    (s.regs.inLen.toNat ≤ s.cfg.inSize ∧ s.regs.inLen.toNat ≤ s.cfg.maxLen ∧
        header.length + outBound s.regs.inLen.toNat ≤ s.cfg.outSize ∧
        acceptCompress op header s = compressionStarted op header s) ∨
      (¬(s.regs.inLen.toNat ≤ s.cfg.inSize ∧ s.regs.inLen.toNat ≤ s.cfg.maxLen ∧
          header.length + outBound s.regs.inLen.toNat ≤ s.cfg.outSize) ∧
        acceptCompress op header s = s.clearResults.refuse) := by
  unfold acceptCompress
  dsimp only
  split
  next large =>
    simp only [State.inputTooLong, Bool.or_eq_true, decide_eq_true_eq] at large
    exact .inr ⟨by omega, rfl⟩
  next fits =>
    simp only [State.inputTooLong, Bool.or_eq_true, decide_eq_true_eq, not_or, Nat.not_lt] at fits
    exact .inl ⟨fits.1.1, fits.1.2, fits.2, rfl⟩

theorem acceptCompress_of_mode {op : OpKind} {header : List Byte} {s : State}
    (hm : (acceptCompress op header s).mode ≠ .idle) : acceptCompress op header s = compressionStarted op header s := by
  obtain ⟨-, -, -, e⟩ | ⟨-, e⟩ := acceptCompress_cases op header s
  · exact e
  · rw [e] at hm
    exact absurd rfl hm

theorem unlessBusy_of_idle {s : State} (idle : s.regs.status.busy = false) (accepted : State) :
    unlessBusy s accepted = .next accepted := by
  rw [unlessBusy, idle]
  rfl

/-- The header in front of a compression's stream (45_host_commands.md R271, R273). -/
def frameHeader (op : OpKind) (L : Nat) : List Byte := if op = .compressFramed then leBytes 4 L else []

/-- The stream starts behind the header (45_host_commands.md R271, R273). -/
theorem outBase_of_mode {u : State} {op : OpKind} (hm : u.mode = .compressing op) (L : Nat) :
    u.outBase = (frameHeader op L).length := by
  rw [State.outBase, hm]
  cases op <;> rfl

/-- The two commands of the encoder and the operations they start. -/
abbrev StartsCompression (i : Instr) (op : OpKind) : Prop :=
  i = .compress ∧ op = .compress ∨ i = .compressFramed ∧ op = .compressFramed

theorem exec_compression {i : Instr} {op : OpKind} (hi : StartsCompression i op) {s : State}
    (idle : s.regs.status.busy = false) :
    exec i s = .next (acceptCompress op (frameHeader op s.regs.inLen.toNat) s) := by
  obtain ⟨rfl, rfl⟩ | ⟨rfl, rfl⟩ := hi <;> exact unlessBusy_of_idle idle _

theorem eq_compressionStarted {i : Instr} {op : OpKind} (hi : StartsCompression i op) {s t : State}
    (idle : s.regs.status.busy = false) (h : exec i s = .next t) (hm : t.mode = .compressing op) :
    t = compressionStarted op (frameHeader op s.regs.inLen.toNat) s := by
  rw [exec_compression hi idle] at h
  cases h
  exact acceptCompress_of_mode (by rw [hm]; nofun)

theorem compression_inv {i : Instr} {op : OpKind} (hi : StartsCompression i op) {s t : State} (h : s.Inv)
    (idle : s.regs.status.busy = false) (ht : exec i s = .next t) : t.Inv := by
  rw [exec_compression hi idle] at ht
  cases ht
  refine acceptCompress_inv h ?_
  obtain ⟨-, rfl⟩ | ⟨-, rfl⟩ := hi
  · exact .inl ⟨rfl, rfl⟩
  · exact .inr ⟨rfl, rfl⟩

section
variable (op : OpKind) (header : List Byte) (s : State)

@[simp] theorem compressionStarted_mode : (compressionStarted op header s).mode = .compressing op := by
  simp [compressionStarted]

@[simp] theorem compressionStarted_turns : (compressionStarted op header s).turns = s.turns := by
  simp [compressionStarted]

@[simp] theorem compressionStarted_inByte (a : Nat) : (compressionStarted op header s).inByte a = s.inByte a := by
  simp [compressionStarted, State.inByte]

@[simp] theorem compressionStarted_readIn (a n : Nat) :
    (compressionStarted op header s).readIn a n = s.readIn a n :=
  State.readIn_congr s _ a n fun _ _ => compressionStarted_inByte op header s _

/-- The encoder registers after the start step (41_encoder.md R141). -/
theorem compressionStarted_e :
    (compressionStarted op header s).e.L = s.regs.inLen.toNat ∧ (compressionStarted op header s).e.ii = 0 ∧
      (compressionStarted op header s).e.op = 0 ∧
      (13 < s.regs.inLen.toNat → (compressionStarted op header s).e.ip = 4) := by
  rw [compressionStarted, State.writeOut_e]
  rcases State.startEncode_cases (s.clearResults.begin (.compressing op)) s.regs.inLen.toNat with
    ⟨long, e⟩ | ⟨short, e⟩ <;> rw [e]
  · exact ⟨rfl, rfl, rfl, fun _ => rfl⟩
  · exact ⟨rfl, rfl, rfl, fun long => by omega⟩

/-- The header reads back in front of the stream. -/
theorem compressionStarted_header {k : Nat} {b : Byte} (h : header[k]? = some b) :
    (compressionStarted op header s).outByte k = b := by
  exact Nat.zero_add k ▸ State.outByte_writeOut_in _ 0 header k b h

end

/-! ## How long a compression runs -/

/-- How many steps a compression still makes at most: its probes and the final step
(70_reset_and_hazards.md R342). -/
def State.stepsLeft (s : State) : Nat := if s.scanDone then 1 else max 1 (s.e.L - 13 - s.e.ip) + 1

/-- A probe moves the scan up, and the compression goes on (40_match_finder.md R122, R123). -/
theorem EncodeNext.scanning {s t : State} (hn : EncodeNext s t) (running : s.scanDone = false) :
    t.mode = s.mode ∧ t.e.L = s.e.L ∧ s.e.ip < t.e.ip := by
  have inSource := scanDone_false running
  cases hn with
  | missed => exact ⟨rfl, rfl, Nat.lt_succ_self _⟩
  | emitted _ found run =>
    have emits := EmitsTo.emitLiterals run
    obtain ⟨-, atLeast3, -⟩ := probe_hit_length (by omega) found
    exact ⟨emits.mode, emits.source, Nat.lt_add_of_pos_right (by omega)⟩
  | ends done => simp [running] at done

theorem EncodeNext.stepsLeft_lt {s t : State} (hn : EncodeNext s t) (running : s.scanDone = false)
    (h : EncodeInv s) : t.stepsLeft < s.stepsLeft := by
  obtain ⟨-, source, up⟩ := hn.scanning running
  have scan := h.scan (scanDone_false running).1
  simp only [State.stepsLeft, running, Bool.false_eq_true, if_false]
  cases done : t.scanDone with
  | true => simp only [if_true]; omega
  | false =>
    have := scanDone_false done
    simp only [Bool.false_eq_true, if_false]
    omega

/-- A running compression ends within its steps and its bound (41_encoder.md R161, R163). -/
theorem compression_ends {op : OpKind} {u : State} (h : u.Inv) (hm : u.mode = .compressing op)
    (alone : u.turns = []) :
    ∃ k v, 1 ≤ k ∧ k ≤ u.stepsLeft ∧ RunsIn k u v ∧ v.mode = .idle ∧ v.regs.status.done = true ∧
      v.regs.outLen = reg32 (u.outBase + v.e.op) ∧ v.e.op ≤ outBound u.e.L := by
  induction left : u.stepsLeft using Nat.strong_induction_on generalizing u with
  | _ n ih =>
    subst left
    have hu : EngineNext u u := .inl ⟨alone, rfl⟩
    cases done : u.scanDone with
    | true =>
      obtain ⟨v, next, -, within, -, -, -, -, idle, status, outLen, -, -⟩ :=
        theFinalStepCompletesTheCommand u u op hu hm h done
      refine ⟨1, v, le_rfl, ?_, .step next, idle, by rw [status], outLen, within⟩
      rw [State.stepsLeft, done]
      exact le_rfl
    | false =>
      obtain ⟨t, next⟩ := compressing_next hu h hm
      have hn := EncodeNext.of_step hu hm next
      obtain ⟨mode, source, -⟩ := hn.scanning done
      have fewer := hn.stepsLeft_lt done (h.encode op hm).2
      obtain ⟨k, v, -, steps, run, idle, status, outLen, within⟩ :=
        ih _ fewer (everyStepKeepsTheInvariant u t h next) (mode.trans hm) (hn.commandFrame.turns.trans alone) rfl
      have base : t.outBase = u.outBase := by simp only [State.outBase, mode]
      exact ⟨k + 1, v, by omega, by omega, runsIn_succ.mpr ⟨t, next, run⟩, idle, status, base ▸ outLen,
        source ▸ within⟩

/-- A short source is not scanned, and a longer one from position 4 up (41_encoder.md R142, R159). -/
theorem stepsLeft_compressionStarted (op : OpKind) (header : List Byte) (s : State) :
    (compressionStarted op header s).stepsLeft ≤ max 1 (s.regs.inLen.toNat - 17) + 1 ∧
      (s.regs.inLen.toNat ≤ 13 → (compressionStarted op header s).stepsLeft = 1) := by
  obtain ⟨source, -, -, ip⟩ := compressionStarted_e op header s
  unfold State.stepsLeft
  by_cases long : 13 < s.regs.inLen.toNat
  · have start := ip long
    split <;> omega
  · have done : (compressionStarted op header s).scanDone = true := by
      simp [State.scanDone, source, Nat.le_of_not_lt long]
    rw [if_pos done]
    omega

/-- Settles O57: each probe moves the scan on, so that the steps left from position 4 bound the run. -/
theorem everyCompressionEndsWithinItsBounds : Obligations.EveryCompressionEndsWithinItsBounds := by
  intro s t i op hi h idle alone ht hm
  have inv := compression_inv hi h idle ht
  obtain rfl := eq_compressionStarted hi idle ht hm
  obtain ⟨source, -⟩ := compressionStarted_e op (frameHeader op s.regs.inLen.toNat) s
  obtain ⟨most, short⟩ := stepsLeft_compressionStarted op (frameHeader op s.regs.inLen.toNat) s
  obtain ⟨k, u, first, steps, run, stopped, status, outLen, within⟩ := compression_ends inv hm (by simpa using alone)
  exact ⟨k, u, u.e.op, steps.trans most, fun hL => Nat.le_antisymm (short hL ▸ steps) first, run, stopped, status,
    outLen, source ▸ within⟩

/-! ## Short sources -/

/-- A length of 32 bits shows as it is. -/
theorem toNat_reg32 {n : Nat} (h : n < 2 ^ 32) : (reg32 n).toNat = n := by
  rw [reg32, if_pos h, BitVec.toNat_ofNat, Nat.mod_eq_of_lt h]

/-- A block of OUT reads as the bytes it holds. -/
theorem State.readOut_eq {s : State} {a n : Nat} {bytes : List Byte} (length : bytes.length = n)
    (h : ∀ k b, bytes[k]? = some b → s.outByte (a + k) = b) : s.readOut a n = bytes := by
  subst length
  refine List.ext_getElem? fun k => ?_
  by_cases hk : k < bytes.length
  · rw [State.getElem?_readOut s a _ k hk, List.getElem?_eq_getElem hk, h k _ (List.getElem?_eq_getElem hk)]
  · rw [List.getElem?_eq_none (by simpa using hk), List.getElem?_eq_none (Nat.le_of_not_lt hk)]

/-- The length byte of a source that one first run holds; nothing is patched (41_encoder.md R142, R148). -/
theorem openingTail {s : State} (empty : s.e.op = 0) {n : Nat} (h : n ≤ 238) :
    s.patchCount true n = 0 ∧ s.lengthBytes true n = if n = 0 then [] else [byte (17 + n)] := by
  by_cases hn : n = 0
  · subst hn
    simp [State.patchCount, State.lengthBytes, State.opensStream]
  · have opens : s.opensStream true n = true :=
      State.opensStream_eq_true.mpr ⟨empty, Nat.one_le_iff_ne_zero.mpr hn, h, .inl rfl⟩
    simp [State.patchCount, State.lengthBytes, opens, hn]

/-- Settles O49: the accepting step leaves an empty output and a scan that is over, and the final step writes a first
run. -/
theorem aShortSourceBecomesOneLiteralRun : Obligations.AShortSourceBecomesOneLiteralRun := by
  intro s h hm alone short inSize outSize
  have limits := h.cfg
  simp only [Params.ok, Bool.and_eq_true, decide_eq_true_eq] at limits
  have idle : s.regs.status.busy = false := by
    rw [← Bool.not_eq_true, h.status.busy]
    exact not_not.mpr hm
  have hi : StartsCompression .compress .compress := .inl ⟨rfl, rfl⟩
  have accepted : exec .compress s = .next (compressionStarted .compress [] s) := by
    rw [exec_compression hi idle]
    obtain ⟨-, -, -, e⟩ | ⟨large, -⟩ := acceptCompress_cases .compress [] s
    · exact congrArg _ e
    · exact absurd ⟨inSize, by omega, by simpa using outSize⟩ large
  obtain ⟨source, start, empty, -⟩ := compressionStarted_e .compress [] s
  obtain ⟨u, next, emitted, -, -, -, -, -, stopped, status, outLen, -, -⟩ :=
    theFinalStepCompletesTheCommand _ _ .compress (.inl ⟨by simpa using alone, rfl⟩) (compressionStarted_mode _ _ _)
      (compression_inv hi h idle accepted) (by simp [State.scanDone, source, short])
  obtain ⟨count, length⟩ := openingTail empty (n := s.regs.inLen.toNat) (by omega)
  have base : (compressionStarted .compress [] s).outBase = 0 := outBase_of_mode (compressionStarted_mode _ _ _) 0
  simp only [source, start, Nat.sub_zero, count, length, compressionStarted_readIn] at emitted
  have op := emitted.op
  have bytes := emitted.bytes
  simp only [empty, base, Nat.zero_add] at op bytes outLen
  refine ⟨_, u, accepted, next, stopped, by rw [status], fun none => ?_, fun some => ?_⟩
  · simp only [none, if_true, List.nil_append, State.readIn, List.length_cons, List.length_nil] at op bytes
    exact ⟨by rw [outLen, op]; rfl, State.readOut_eq rfl (by simpa using bytes)⟩
  · simp only [Nat.ne_of_gt some, if_false, List.length_append, List.length_cons, List.length_nil,
      State.length_readIn] at op bytes
    refine ⟨by rw [outLen, toNat_reg32 (by omega), op]; omega, ?_⟩
    exact State.readOut_eq (by simp) (by simpa using bytes)

end Sys2Proof.Machine
end

section
namespace Sys2Proof.Machine

/-! ## Where a decode stands in its stream -/

/-- The stream of a decode holds `bytes` from its byte `p` up. -/
def InHolds (r : State) (p : Nat) (bytes : List Byte) : Prop :=
  ∀ k b, bytes[k]? = some b → r.inByte (r.inBase + p + k) = b

theorem inHolds_append {r : State} {p : Nat} {xs ys : List Byte} :
    InHolds r p (xs ++ ys) ↔ InHolds r p xs ∧ InHolds r (p + xs.length) ys := by
  constructor
  · intro h
    refine ⟨fun k b hk => h k b ?_, fun k b hk => ?_⟩
    · rwa [List.getElem?_append_left (List.getElem?_eq_some_iff.mp hk).1]
    · rw [show r.inBase + (p + xs.length) + k = r.inBase + p + (xs.length + k) by omega]
      refine h (xs.length + k) b ?_
      rwa [List.getElem?_append_right (Nat.le_add_right _ _), Nat.add_sub_cancel_left]
  · rintro ⟨hx, hy⟩ k b hk
    by_cases inLeft : k < xs.length
    · exact hx k b (by rwa [List.getElem?_append_left inLeft] at hk)
    · rw [List.getElem?_append_right (Nat.le_of_not_lt inLeft)] at hk
      have := hy _ b hk
      rwa [show r.inBase + (p + xs.length) + (k - xs.length) = r.inBase + p + k by omega] at this

/-- A block of the source that stands in the stream, byte by byte. -/
theorem InHolds.source {s r : State} {p a n : Nat} (h : InHolds r p (s.readIn a n)) {k : Nat} (hk : k < n) :
    r.inByte (r.inBase + p + k) = s.inByte (a + k) :=
  h k _ (State.getElem?_readIn s a n k hk)

/-- The decoder reads the bytes that its stream holds, and what follows them. -/
theorem InHolds.readIn {r : State} {p : Nat} {bytes : List Byte} (h : InHolds r p bytes) {n : Nat}
    (hn : bytes.length ≤ n) : ∃ rest, r.readIn (r.inBase + p) n = bytes ++ rest := by
  refine ⟨(r.readIn (r.inBase + p) n).drop bytes.length, ?_⟩
  have front : (r.readIn (r.inBase + p) n).take bytes.length = bytes := by
    refine List.ext_getElem? fun k => ?_
    by_cases hk : k < bytes.length
    · rw [List.getElem?_take_of_lt hk, State.getElem?_readIn r _ n k (by omega), List.getElem?_eq_getElem hk,
        h k _ (List.getElem?_eq_getElem hk)]
    · rw [List.getElem?_eq_none (by simp; omega), List.getElem?_eq_none (Nat.le_of_not_lt hk)]
  conv_lhs => rw [← List.take_append_drop bytes.length (r.readIn (r.inBase + p) n), front]

/-- The decoder's next opcode is byte `p` of its stream, not yet fetched or already in `d.t`, and it is read in table
`c` (42_decoder_fsm.md R187 to R190). -/
structure AtByte (t : State) (c : DecodeTable) (p : Nat) : Prop where
  table : t.d.state.table = some c
  start : c = .start → t.d.ip = 0
  ip : c ≠ .afterTrailing → t.d.ip = p
  held : c = .afterTrailing → t.d.ip = p + 1 ∧ t.d.t = t.inByte (t.inBase + p)

/-- The next step fetches an instruction from the bytes at `p` (42_decoder_fsm.md R187 to R190). -/
theorem AtByte.step_fetches {t : State} {c : DecodeTable} {p : Nat} (h : AtByte t c p) (alone : t.turns = [])
    {op : OpKind} (mode : t.mode = .decompressing op) (bounds : t.decodeBounds = true) (more : p + 1 < t.d.N) :
    ∃ held, step t = (fetchInstr c held t).outcome ∧
      held ++ t.streamRest = t.readIn (t.inBase + p) (t.d.N - p) := by
  obtain ⟨table, start, ip, held⟩ := h
  rw [step_of_engine (.inl ⟨alone, rfl⟩), engineTurn, mode]
  dsimp only
  rw [decoderStep, if_pos bounds]
  cases state : t.d.state <;> rw [state] at table
  case start =>
    cases table
    have zero := start rfl
    refine ⟨[], ?_, by rw [List.nil_append, State.streamRest, ip (by decide)]⟩
    dsimp only
    rw [if_neg (by omega), ← zero]
    rfl
  case expectLiteralOrMatch =>
    cases table
    have here := ip (by decide)
    refine ⟨[], ?_, by rw [List.nil_append, State.streamRest, here]⟩
    dsimp only
    rw [if_neg (by omega)]
  case expectMatch ctx =>
    cases ctx with
    | afterLiteral =>
      cases table
      exact ⟨[], rfl, by rw [List.nil_append, State.streamRest, ip (by decide)]⟩
    | afterTrailing =>
      cases table
      obtain ⟨here, opcode⟩ := held rfl
      refine ⟨[t.d.t], ?_, ?_⟩
      · dsimp only
        rw [if_neg (by omega)]
      · rw [show t.d.N - p = (t.d.N - t.d.ip) + 1 by omega, State.readIn, ← opcode, State.streamRest, here]
        rfl
  all_goals cases table

/-- Where the stream holds an instruction's encoding, the step runs it behind its header (30_encoding.md R81). -/
theorem AtByte.step_runs {t : State} {c : DecodeTable} {p : Nat} (h : AtByte t c p) (alone : t.turns = [])
    {op : OpKind} (mode : t.mode = .decompressing op) (bounds : t.decodeBounds = true) {i : Instr}
    (wf : i.wf = true) (table : i.inTable c = true) (holds : InHolds t p (encode i))
    (fits : p + (encode i).length ≤ t.d.N) (more : p + 1 < t.d.N) :
    step t = exec i (t.setIp (p + (encode i).length)) := by
  obtain ⟨held, fetches, stream⟩ := h.step_fetches alone mode bounds more
  obtain ⟨rest, read⟩ := holds.readIn (n := t.d.N - p) (by omega)
  have length := congrArg List.length read
  rw [State.length_readIn, List.length_append] at length
  have decoded := decodingAnEncodedInstructionGivesItBack i c rest wf table
  rw [← read, ← stream] at decoded
  rw [fetches, fetchInstr, decoded, show p + (encode i).length = t.d.N - rest.length by omega]
  rfl

/-! ## What a decode has written of a source -/

/-- OUT holds the first `n` bytes of the source of `s`, and nothing more is written. -/
structure Wrote (s t : State) (n : Nat) : Prop where
  op : t.d.op = n
  out : ∀ a, a < n → t.outByte a = s.inByte a

theorem Wrote.literalsCopied {s u : State} {n count : Nat} (h : Wrote s u n)
    (literals : ∀ k, k < count → u.inByte (u.inBase + u.d.ip + k) = s.inByte (n + k)) :
    Wrote s (literalsCopied count u) (n + count) := by
  obtain ⟨op, out⟩ := h
  obtain ⟨new, old⟩ := literalsCopied_out count u
  refine ⟨by rw [← op]; rfl, fun a ha => ?_⟩
  by_cases below : a < n
  · rw [old a (.inl (by omega)), out a below]
  · obtain ⟨k, rfl⟩ := Nat.exists_eq_add_of_le (Nat.le_of_not_lt below)
    rw [← literals k (by omega), ← op]
    exact new k (by omega)

/-- The source at `n` repeats, for `len` bytes, what it holds `dist` bytes before (40_match_finder.md R124). -/
structure Repeats (s : State) (n dist len : Nat) : Prop where
  pos : 1 ≤ dist
  near : dist ≤ 49151
  behind : dist ≤ n
  atLeast3 : 3 ≤ len
  agrees : ∀ k, k < len → s.inByte (n + k) = s.inByte (n + k - dist)

theorem Wrote.copyBack {s u : State} {n dist len : Nat} (h : Wrote s u n) (m : Repeats s n dist len) :
    Wrote s (copyBack dist len u) (n + len) := by
  obtain ⟨op, out⟩ := h
  refine ⟨by rw [copyBack_op, op], fun a => ?_⟩
  induction a using Nat.strong_induction_on with
  | _ a ih =>
    intro ha
    by_cases below : a < n
    · rw [copyBack_old _ _ _ _ (.inl (by omega)), out a below]
    · obtain ⟨k, rfl⟩ := Nat.exists_eq_add_of_le (Nat.le_of_not_lt below)
      have pos := m.pos
      have behind := m.behind
      have copied := copyBack_byte dist len u pos (by omega) k (by omega)
      rw [op] at copied
      rw [copied, ih _ (by omega) (by omega), m.agrees k (by omega)]

/-- A decode that was at `r` is now at byte `p` of its stream, read in table `c`, with the first `n` bytes of the source
of `s` written. -/
structure DecodedTo (s r t : State) (c : DecodeTable) (p n : Nat) : Prop where
  still : StillDecoding r t
  atByte : AtByte t c p
  wrote : Wrote s t n

/-- A run of literals that the source holds next (42_decoder_fsm.md R185). -/
theorem literalRun_decodes {s u : State} {n count : Nat} (h : Wrote s u n)
    (literals : ∀ k, k < count → u.inByte (u.inBase + u.d.ip + k) = s.inByte (n + k)) (room : n + count ≤ u.d.C)
    (more : count + 1 ≤ u.d.N - u.d.ip) :
    ∃ t, literalRun count u = .ok t ∧ DecodedTo s u t .afterLiteral (u.d.ip + count) (n + count) := by
  obtain ⟨high, -⟩ | ⟨-, short, -⟩ | ⟨-, -, copies⟩ := copyLiterals_cases count u
  · have := h.op; omega
  · omega
  · obtain ⟨op, out⟩ := h.literalsCopied literals
    have still := (literalsCopied_advance count u (by rw [h.op]; exact room) more).still
    exact ⟨(literalsCopied count u).setDState (.expectMatch .afterLiteral), by rw [literalRun, copies]; rfl,
      still.trans (setDState_advance _ _).still, ⟨rfl, nofun, fun _ => rfl, nofun⟩, ⟨op, out⟩⟩

/-- The opcode at the input cursor is fetched into `d.t` (42_decoder_fsm.md R183, R192). -/
theorem fetchHeld_decodes {s u : State} {n : Nat} (h : Wrote s u n) (more : u.d.ip < u.d.N) :
    ∃ t, fetchHeld u = .ok t ∧ DecodedTo s u t .afterTrailing u.d.ip n := by
  obtain ⟨last, -⟩ | ⟨-, fetches⟩ := fetchHeld_cases u
  · omega
  · exact ⟨_, fetches, ⟨⟨rfl, rfl, rfl, rfl, rfl, rfl, rfl, rfl, rfl, rfl⟩, rfl, rfl⟩,
      ⟨rfl, nofun, fun ne => absurd rfl ne, fun _ => ⟨rfl, rfl⟩⟩, ⟨h.op, h.out⟩⟩

/-- Literals, and the opcode behind them fetched into `d.t` (42_decoder_fsm.md R192). -/
theorem shortRun_decodes {s u : State} {n count : Nat} (h : Wrote s u n)
    (literals : ∀ k, k < count → u.inByte (u.inBase + u.d.ip + k) = s.inByte (n + k)) (room : n + count ≤ u.d.C)
    (more : count + 1 ≤ u.d.N - u.d.ip) :
    ∃ t, (copyLiterals count u).andThen fetchHeld = .ok t ∧
      DecodedTo s u t .afterTrailing (u.d.ip + count) (n + count) := by
  obtain ⟨high, -⟩ | ⟨-, short, -⟩ | ⟨-, -, copies⟩ := copyLiterals_cases count u
  · have := h.op; omega
  · omega
  · have still := (literalsCopied_advance count u (by rw [h.op]; exact room) more).still
    have ip : (literalsCopied count u).d.ip = u.d.ip + count := rfl
    obtain ⟨t, fetches, decoded⟩ := fetchHeld_decodes (h.literalsCopied literals) (by rw [ip, still.frame.N]; omega)
    rw [copies]
    exact ⟨t, fetches, still.trans decoded.still, ip ▸ decoded.atByte, decoded.wrote⟩

/-- A match that the source holds next, with its trailing literals (44_match_instructions.md R230). -/
theorem matchRun_decodes {s u : State} {n dist len count : Nat} (h : Wrote s u n) (m : Repeats s n dist len)
    (literals : ∀ k, k < count → u.inByte (u.inBase + u.d.ip + k) = s.inByte (n + len + k))
    (room : n + len + count ≤ u.d.C) (more : count + 1 ≤ u.d.N - u.d.ip) :
    ∃ t, matchRun dist len count u = .ok t ∧
      DecodedTo s u t (if count = 0 then .literalOrMatch else .afterTrailing) (u.d.ip + count) (n + len + count) := by
  have behind := m.behind
  have op := h.op
  obtain ⟨far, -⟩ | ⟨-, high, -⟩ | ⟨-, fits, copies⟩ := copyMatch_cases dist len u
  · omega
  · omega
  · have still := (copyBack_advance dist len u fits).still
    have ip : (copyBack dist len u).d.ip = u.d.ip := by
      obtain ⟨mem, frame, -⟩ := copyBack_frame dist len u
      rw [frame]
    have wrote := h.copyBack m
    rw [matchRun, copies]
    dsimp only [Phase.andThen]
    unfold finishMatch
    by_cases none : count = 0
    · subst none
      rw [if_pos rfl, if_pos rfl]
      exact ⟨_, rfl, still.trans (setDState_advance _ _).still, ⟨rfl, nofun, fun _ => ip, nofun⟩, ⟨wrote.op, wrote.out⟩⟩
    · rw [if_neg none, if_neg none]
      obtain ⟨t, ok, still', atByte, wrote'⟩ := shortRun_decodes wrote (count := count)
        (fun k hk => by rw [ip, still.inBase, still.frame.inByte, literals k hk])
        (by rw [still.frame.C]; exact room) (by rw [still.frame.N, ip]; exact more)
      exact ⟨t, ok, still.trans still', ip ▸ atByte, wrote'⟩

end Sys2Proof.Machine
end

section
namespace Sys2Proof.Machine

/-! ## Matches with their trailing count -/

/-- The match form of a distance and a length, with its trailing count (41_encoder.md R145, R151). -/
def matchWith (dist len count : Nat) : Instr :=
  if dist ≤ 2048 ∧ len ≤ 8 then .m2 dist len count
  else if dist ≤ 16384 then
    if len ≤ 33 then .m3 dist len count else .m3x dist len count
  else if len ≤ 9 then .m4 dist len count
  else .m4x dist len count

/-- The encoder writes every match with the count 0. -/
theorem matchForm_eq (dist len : Nat) : matchForm dist len = matchWith dist len 0 := rfl

/-- The five match forms and the operands that select each (41_encoder.md R151). -/
theorem matchWith_cases (dist len count : Nat) :
    (dist ≤ 2048 ∧ len ≤ 8 ∧ matchWith dist len count = .m2 dist len count) ∨
    (dist ≤ 16384 ∧ len ≤ 33 ∧ matchWith dist len count = .m3 dist len count) ∨
    (dist ≤ 16384 ∧ 33 < len ∧ matchWith dist len count = .m3x dist len count) ∨
    (16384 < dist ∧ len ≤ 9 ∧ matchWith dist len count = .m4 dist len count) ∨
    (16384 < dist ∧ 9 < len ∧ matchWith dist len count = .m4x dist len count) := by
  unfold matchWith
  split
  · exact .inl ⟨by omega, by omega, rfl⟩
  · split
    · split
      · exact .inr (.inl ⟨by omega, by omega, rfl⟩)
      · exact .inr (.inr (.inl ⟨by omega, by omega, rfl⟩))
    · split
      · exact .inr (.inr (.inr (.inl ⟨by omega, by omega, rfl⟩)))
      · exact .inr (.inr (.inr (.inr ⟨by omega, by omega, rfl⟩)))

theorem matchWith_wf {dist len count : Nat} (h1 : 1 ≤ dist) (h2 : dist ≤ 49151) (h3 : 3 ≤ len) (hc : count ≤ 3) :
    (matchWith dist len count).wf = true := by
  rcases matchWith_cases dist len count with ⟨_, _, e⟩ | ⟨_, _, e⟩ | ⟨_, _, e⟩ | ⟨_, _, e⟩ | ⟨_, _, e⟩ <;> rw [e]
  · exact wf_m2.mpr (by omega)
  · exact wf_m3.mpr (by omega)
  · exact wf_m3x.mpr (by omega)
  · exact wf_m4.mpr (by omega)
  · exact wf_m4x.mpr (by omega)

/-- A match is read wherever the first byte is behind the decoder (30_encoding.md R81). -/
theorem matchWith_inTable (dist len count : Nat) {c : DecodeTable} (hc : c.general) :
    (matchWith dist len count).inTable c = true := by
  rcases matchWith_cases dist len count with ⟨_, _, e⟩ | ⟨_, _, e⟩ | ⟨_, _, e⟩ | ⟨_, _, e⟩ | ⟨_, _, e⟩ <;> rw [e] <;>
    exact decide_eq_true hc

theorem exec_matchWith (dist len count : Nat) (s : State) :
    exec (matchWith dist len count) s = decodeAnswer s (matchRun dist len count s) := by
  rcases matchWith_cases dist len count with ⟨_, _, e⟩ | ⟨_, _, e⟩ | ⟨_, _, e⟩ | ⟨_, _, e⟩ | ⟨_, _, e⟩ <;> rw [e] <;>
    rfl

/-- A count of up to 3 goes into the two low bits of a byte that leaves them free (41_encoder.md R145). -/
theorem byte_mul_four_add (m : Nat) {count : Nat} (h : count ≤ 3) :
    byte (m * 4 + count) = byte (m * 4) ||| byte count := by
  have low : m * 4 + count = m * 4 ||| count := by
    rw [Nat.mul_comm]
    exact Nat.two_pow_add_eq_or_of_lt (i := 2) (by omega) m
  rw [low, byte, BitVec.ofNat_or]
  rfl

/-- Every form but the short one ends in two distance bytes (41_encoder.md R153, R154). -/
theorem encode_matchWith_long {dist len : Nat} (long : ¬(dist ≤ 2048 ∧ len ≤ 8)) :
    ∃ head o, ∀ count, encode (matchWith dist len count) = head ++ distanceBytes o count := by
  by_cases near : dist ≤ 16384
  · by_cases brief : len ≤ 33
    · refine ⟨[byte (0x20 + (len - 2))], dist - 1, fun count => ?_⟩
      rw [matchWith, if_neg long, if_pos near, if_pos brief]
      rfl
    · refine ⟨byte 0x20 :: continuation (len - 33), dist - 1, fun count => ?_⟩
      rw [matchWith, if_neg long, if_pos near, if_neg brief]
      rfl
  · by_cases brief : len ≤ 9
    · refine ⟨[byte (0x10 + 8 * ((dist - 16384) / 16384) + (len - 2))], dist - 16384, fun count => ?_⟩
      rw [matchWith, if_neg long, if_neg near, if_pos brief]
      rfl
    · refine ⟨byte (0x10 + 8 * ((dist - 16384) / 16384)) :: continuation (len - 9), dist - 16384, fun count => ?_⟩
      rw [matchWith, if_neg long, if_neg near, if_neg brief]
      rfl

/-- The count stands in the last byte but one of a match's encoding, and nowhere else (41_encoder.md R145). -/
theorem encode_matchWith (dist len : Nat) :
    ∃ front x y, ∀ count, count ≤ 3 → encode (matchWith dist len count) = front ++ [x ||| byte count, y] := by
  by_cases short : dist ≤ 2048 ∧ len ≤ 8
  · refine ⟨[], byte (((len - 1) * 8 + (dist - 1) % 8) * 4), byte ((dist - 1) / 8), fun count h => ?_⟩
    rw [matchWith, if_pos short, encode, ← byte_mul_four_add _ h, Nat.add_mul, Nat.mul_assoc]
    rfl
  · obtain ⟨head, o, bytes⟩ := encode_matchWith_long short
    refine ⟨head, byte (o % 64 * 4), byte (o / 64 % 256), fun count h => ?_⟩
    rw [bytes, distanceBytes, byte_mul_four_add _ h]

/-! ## Literal runs of 4 bytes and more -/

/-- LIT or LITX, by the length (41_encoder.md R146, R147). -/
def longRun (n : Nat) : Instr := if n ≤ 18 then .lit n else .litx n

theorem longRun_wf {n : Nat} (h : 4 ≤ n) : (longRun n).wf = true := by
  unfold longRun
  split
  · exact wf_lit.mpr (by omega)
  · exact wf_litx.mpr (by omega)

theorem longRun_inTable (n : Nat) : (longRun n).inTable .literalOrMatch = true := by
  unfold longRun
  split <;> rfl

theorem exec_longRun (n : Nat) (s : State) : exec (longRun n) s = decodeAnswer s (literalRun n s) := by
  unfold longRun
  split <;> rfl

/-- Its opcode is below 16, which a decode passes on at its start (42_decoder_fsm.md R187). -/
theorem encode_longRun_head {n : Nat} (h : 4 ≤ n) : ∃ t rest, encode (longRun n) = t :: rest ∧ t.toNat ≤ 17 := by
  unfold longRun
  split
  · exact ⟨_, _, rfl, by rw [toNat_byte (by omega)]; omega⟩
  · exact ⟨_, _, rfl, by decide⟩

theorem lengthBytes_long {s : State} {tail : Bool} {n : Nat} (h : 4 ≤ n) (opens : s.opensStream tail n = false) :
    s.patchCount tail n = 0 ∧ s.lengthBytes tail n = encode (longRun n) := by
  have long : ¬n ≤ 3 := by omega
  rw [State.patchCount, State.lengthBytes, longRun, opens]
  simp only [Bool.false_eq_true, if_false, if_neg long]
  split <;> exact ⟨trivial, rfl⟩

theorem lengthBytes_opens {s : State} {tail : Bool} {n : Nat} (opens : s.opensStream tail n = true) :
    s.patchCount tail n = 0 ∧ s.lengthBytes tail n = encode (firstRun n) := by
  rw [State.patchCount, State.lengthBytes, opens, encode_firstRun, Nat.add_comm]
  exact ⟨rfl, rfl⟩

theorem lengthBytes_patched {s : State} {tail : Bool} {n : Nat} (h : n ≤ 3) (opens : s.opensStream tail n = false) :
    s.patchCount tail n = n ∧ s.lengthBytes tail n = [] := by
  simp [State.patchCount, State.lengthBytes, opens, h]

theorem encode_ne_nil (i : Instr) : encode i ≠ [] := by cases i <;> simp [encode]

/-! ## A decode of what the encoder writes, step by step -/

/-- A decode before its first step, running on its own (42_decoder_fsm.md R182). -/
structure DecodeStarted (r : State) : Prop where
  alone : r.turns = []
  mode : ∃ op, r.mode = .decompressing op
  inBounds : r.inBase + r.d.N ≤ r.cfg.inSize
  outBounds : r.d.C ≤ r.cfg.outSize
  state : r.d.state = .start
  ip : r.d.ip = 0
  op : r.d.op = 0

theorem DecodeStarted.decodedTo {r : State} (hr : DecodeStarted r) (s : State) : DecodedTo s r r .start 0 0 where
  still := .refl r
  atByte := ⟨by rw [hr.state]; rfl, fun _ => hr.ip, fun _ => hr.ip, nofun⟩
  wrote := ⟨hr.op, nofun⟩

theorem StillDecoding.decodeBounds {r t : State} (hr : DecodeStarted r) (h : StillDecoding r t)
    (op : t.d.op ≤ r.d.C) : t.decodeBounds = true := by
  have inBounds := hr.inBounds
  have outBounds := hr.outBounds
  simp [State.decodeBounds, h.inBase, h.frame.N, h.frame.C, h.frame.cfg, inBounds, outBounds, op]

/-- A decode of the stream of `r` that stands behind an instruction's header, at byte `q`, with `n` bytes of the source
of `s` written, and with `count` bytes of the source from `a` up next in the stream. -/
structure BehindHeader (s r u : State) (q n a count : Nat) : Prop where
  still : StillDecoding r u
  bounds : u.decodeBounds = true
  ip : u.d.ip = q
  wrote : Wrote s u n
  literals : ∀ k, k < count → u.inByte (u.inBase + u.d.ip + k) = s.inByte (a + k)

section
variable {s r t : State} {c : DecodeTable} {p n a count : Nat} {i : Instr}

/-- An instruction of the stream is run, behind its header. -/
theorem DecodedTo.step_runs (h : DecodedTo s r t c p n) (hr : DecodeStarted r) (hn : n ≤ r.d.C) (wf : i.wf = true)
    (table : i.inTable c = true) (holds : InHolds r p (encode i ++ s.readIn a count))
    (fits : p + (encode i).length ≤ r.d.N) (more : p + 1 < r.d.N) :
    ∃ u, step t = exec i u ∧ BehindHeader s r u (p + (encode i).length) n a count := by
  obtain ⟨still, atByte, op, out⟩ := h
  obtain ⟨mode, hm⟩ := hr.mode
  have bounds := still.decodeBounds hr (by rw [op]; exact hn)
  obtain ⟨header, source⟩ := inHolds_append.mp holds
  have header : InHolds t p (encode i) := fun k b hk => by
    rw [still.inBase, still.frame.inByte]
    exact header k b hk
  have runs := atByte.step_runs (still.frame.turns.trans hr.alone) (still.mode.trans hm) bounds wf table header
    (by rw [still.frame.N]; exact fits) (by rw [still.frame.N]; exact more)
  refine ⟨_, runs, still.trans ⟨.setIp t _, rfl, rfl⟩, bounds, rfl, ⟨op, out⟩, fun k hk => ?_⟩
  rw [State.setIp_inBase, State.setIp_inByte, still.inBase, still.frame.inByte]
  exact source.source hk

/-- A phase that goes on is the next state of its instruction. -/
theorem BehindHeader.next {u v : State} {q : Nat} {phase : Phase} {c' : DecodeTable} {p' n' : Nat}
    (hu : BehindHeader s r u q n a count) (answer : exec i u = decodeAnswer u phase) (ok : phase = .ok v)
    (hv : DecodedTo s u v c' p' n') : exec i u = .next v ∧ DecodedTo s r v c' p' n' := by
  refine ⟨?_, hu.still.trans hv.still, hv.atByte, hv.wrote⟩
  rw [answer, decodeAnswer, if_pos hu.bounds, ok]
  rfl

/-- A literal run of the stream (43_literal_instructions.md R211, R213, R214). -/
theorem DecodedTo.literals (h : DecodedTo s r t c p n) (hr : DecodeStarted r) (wf : i.wf = true)
    (table : i.inTable c = true) (runs : ∀ u, exec i u = decodeAnswer u (literalRun count u))
    (holds : InHolds r p (encode i ++ s.readIn n count)) (more : p + (encode i).length + count < r.d.N)
    (room : n + count ≤ r.d.C) :
    ∃ v, step t = .next v ∧ DecodedTo s r v .afterLiteral (p + (encode i).length + count) (n + count) := by
  have pos := List.length_pos_of_ne_nil (encode_ne_nil i)
  obtain ⟨u, steps, hu⟩ := h.step_runs hr (by omega) wf table holds (by omega) (by omega)
  obtain ⟨v, ok, hv⟩ := literalRun_decodes hu.wrote hu.literals (by rw [hu.still.frame.C]; exact room)
    (by rw [hu.still.frame.N, hu.ip]; omega)
  rw [hu.ip] at hv
  obtain ⟨next, decoded⟩ := hu.next (runs u) ok hv
  exact ⟨v, steps.trans next, decoded⟩

/-- A first run of 1 to 3 bytes (43_literal_instructions.md R212). -/
theorem DecodedTo.litfs (h : DecodedTo s r t .start p n) (hr : DecodeStarted r) (wf : (Instr.litfs count).wf = true)
    (holds : InHolds r p (encode (.litfs count) ++ s.readIn n count)) (more : p + 1 + count < r.d.N)
    (room : n + count ≤ r.d.C) :
    ∃ v, step t = .next v ∧ DecodedTo s r v .afterTrailing (p + 1 + count) (n + count) := by
  obtain ⟨u, steps, hu⟩ := h.step_runs hr (by omega) wf rfl holds (show p + 1 ≤ _ by omega) (by omega)
  have ip : u.d.ip = p + 1 := hu.ip
  obtain ⟨v, ok, hv⟩ := shortRun_decodes hu.wrote hu.literals (by rw [hu.still.frame.C]; exact room)
    (by rw [hu.still.frame.N, ip]; omega)
  rw [ip] at hv
  obtain ⟨next, decoded⟩ := hu.next (i := .litfs count) rfl ok hv
  exact ⟨v, steps.trans next, decoded⟩

/-- A match of the stream with its trailing literals (44_match_instructions.md R230). -/
theorem DecodedTo.matched {dist len : Nat} (h : DecodedTo s r t c p n) (hr : DecodeStarted r) (hc : c.general)
    (m : Repeats s n dist len) (few : count ≤ 3)
    (holds : InHolds r p (encode (matchWith dist len count) ++ s.readIn (n + len) count))
    (more : p + (encode (matchWith dist len count)).length + count < r.d.N) (room : n + len + count ≤ r.d.C) :
    ∃ v, step t = .next v ∧ DecodedTo s r v (if count = 0 then .literalOrMatch else .afterTrailing)
      (p + (encode (matchWith dist len count)).length + count) (n + len + count) := by
  have pos := List.length_pos_of_ne_nil (encode_ne_nil (matchWith dist len count))
  obtain ⟨u, steps, hu⟩ := h.step_runs hr (by omega) (matchWith_wf m.pos m.near m.atLeast3 few)
    (matchWith_inTable dist len count hc) holds (by omega) (by omega)
  obtain ⟨v, ok, hv⟩ := matchRun_decodes hu.wrote m hu.literals (by rw [hu.still.frame.C]; exact room)
    (by rw [hu.still.frame.N, hu.ip]; omega)
  rw [hu.ip] at hv
  obtain ⟨next, decoded⟩ := hu.next (exec_matchWith dist len count u) ok hv
  exact ⟨v, steps.trans next, decoded⟩

/-- A first byte of 0 to 17 is passed on to the general table (42_decoder_fsm.md R187). -/
theorem DecodeStarted.passesOn (hr : DecodeStarted r) (s : State) {b : Byte} {rest : List Byte} (small : b.toNat ≤ 17)
    (holds : InHolds r 0 (b :: rest)) (more : 1 < r.d.N) :
    ∃ v, step r = .next v ∧ DecodedTo s r v .literalOrMatch 0 0 := by
  obtain ⟨mode, hm⟩ := hr.mode
  have start := hr.decodedTo s
  obtain ⟨held, fetches, stream⟩ := start.atByte.step_fetches hr.alone hm
    (start.still.decodeBounds hr (by rw [hr.op]; exact Nat.zero_le _)) more
  obtain ⟨after, read⟩ := InHolds.readIn (p := 0) (bytes := [b]) (n := r.d.N - 0)
    (fun k x hk => holds k x (by
      cases k with
      | zero => exact hk
      | succ k => cases hk)) (by simp; omega)
  have passed : decode .start (held ++ r.streamRest) = .reject .notFirstByteRun := by
    rw [stream, read]
    exact decode_start_passedOn small after
  refine ⟨r.setDState .expectLiteralOrMatch, ?_, ⟨⟨rfl, rfl, rfl, rfl, rfl, rfl, rfl, rfl, rfl, rfl⟩, rfl, rfl⟩,
    ⟨rfl, nofun, fun _ => hr.ip, nofun⟩, ⟨hr.op, nofun⟩⟩
  rw [fetches, fetchInstr, passed]
  rfl

/-- The terminator at the end of the stream ends the decode with the source as its result
(42_decoder_fsm.md R193, R194). -/
theorem DecodedTo.eos (h : DecodedTo s r t c p n) (hr : DecodeStarted r) (hc : c.general)
    (holds : InHolds r p [0x11, 0x00, 0x00]) (last : p + 3 = r.d.N) (room : n ≤ r.d.C) :
    ∃ v, step t = .next v ∧ v.mode = .idle ∧ v.regs.status.done = true ∧ v.regs.outLen = reg32 n ∧
      ∀ a, a < n → v.outByte a = s.inByte a := by
  obtain ⟨u, steps, hu⟩ := h.step_runs (i := canonicalEos) (a := 0) (count := 0) hr room (by decide)
    (decide_eq_true hc) holds (show p + 3 ≤ _ by omega) (by omega)
  obtain ⟨still, bounds, ip, ⟨op, out⟩, -⟩ := hu
  have atEnd : u.d.ip = u.d.N := by rw [still.frame.N, ← last]; exact ip
  refine ⟨u.endDecode, steps.trans ?_, rfl, rfl, by rw [← op]; rfl, fun a ha => ?_⟩
  · exact (if_pos bounds).trans (if_pos atEnd)
  · rw [← out a ha]
    exact State.outByte_keepOut (u.setDState .ended) u.d.op a (by rw [op]; exact ha)

end

end Sys2Proof.Machine
end

section
namespace Sys2Proof.Machine

/-! ## Streams that decode to a source -/

/-- Whatever follows `q` in its stream, a decode reads `q`, writes the first `n` bytes of the source of `s`, and expects
an instruction of the general tables next. -/
def Decodes (s : State) (q : List Byte) (n : Nat) : Prop :=
  ∀ r, DecodeStarted r → InHolds r 0 q → q.length < r.d.N → n ≤ r.d.C →
    ∃ k t c, RunsIn k r t ∧ DecodedTo s r t c q.length n ∧ c.general

/-- A decode of the whole stream `p` ends with the first `n` bytes of the source of `s`. -/
def DecodesFully (s : State) (p : List Byte) (n : Nat) : Prop :=
  ∀ r, DecodeStarted r → InHolds r 0 p → r.d.N = p.length → n ≤ r.d.C →
    ∃ k t, RunsIn k r t ∧ t.mode = .idle ∧ t.regs.status.done = true ∧ t.regs.outLen = reg32 n ∧
      ∀ a, a < n → t.outByte a = s.inByte a

section
variable {s : State} {q : List Byte} {n dist len count : Nat}

/-- A first run of 1 to 238 bytes (41_encoder.md R148, R149). -/
theorem Decodes.firstRun (pos : 1 ≤ count) (short : count ≤ 238) :
    Decodes s (encode (firstRun count) ++ s.readIn 0 count) count := by
  intro r hr holds more room
  simp only [List.length_append, State.length_readIn] at more
  rw [List.length_append, State.length_readIn]
  have start := hr.decodedTo s
  unfold Machine.firstRun at holds more ⊢
  split at holds
  next tiny =>
    rw [if_pos tiny] at more ⊢
    obtain ⟨v, next, decoded⟩ := start.litfs hr (wf_litfs.mpr ⟨pos, tiny⟩) holds
      (show 0 + 1 + count < _ by simpa [encode] using more) (by omega)
    rw [Nat.zero_add] at decoded
    exact ⟨1, v, _, .step next, by simpa [encode] using decoded, by decide⟩
  next large =>
    rw [if_neg large] at more ⊢
    obtain ⟨v, next, decoded⟩ := start.literals hr (wf_litf.mpr ⟨by omega, short⟩) rfl (fun _ => rfl) holds
      (by omega) (by omega)
    rw [Nat.zero_add, Nat.zero_add] at decoded
    exact ⟨1, v, _, .step next, decoded, by decide⟩

/-- A run that opens the stream in a general form: its opcode is passed on first (42_decoder_fsm.md R187). -/
theorem Decodes.openingRun (long : 4 ≤ count) : Decodes s (encode (longRun count) ++ s.readIn 0 count) count := by
  intro r hr holds more room
  simp only [List.length_append, State.length_readIn] at more
  rw [List.length_append, State.length_readIn]
  obtain ⟨t, rest, head, small⟩ := encode_longRun_head long
  obtain ⟨u, passed, general⟩ := hr.passesOn s small (rest := rest ++ s.readIn 0 count) (by rwa [head] at holds)
    (by omega)
  obtain ⟨v, next, decoded⟩ := general.literals hr (longRun_wf long) (longRun_inTable count) (exec_longRun count) holds
    (by omega) (by omega)
  rw [Nat.zero_add, Nat.zero_add] at decoded
  exact ⟨1 + 1, v, _, (RunsIn.step passed).trans (.step next), decoded, by decide⟩

/-- A match with up to 3 trailing literals (41_encoder.md R145). -/
theorem Decodes.matched (h : Decodes s q n) (m : Repeats s n dist len) (few : count ≤ 3) :
    Decodes s (q ++ encode (matchWith dist len count) ++ s.readIn (n + len) count) (n + len + count) := by
  intro r hr holds more room
  simp only [List.length_append, State.length_readIn] at more ⊢
  rw [List.append_assoc] at holds
  obtain ⟨before, here⟩ := inHolds_append.mp holds
  rw [Nat.zero_add] at here
  obtain ⟨k, t, c, run, reached, hc⟩ := h r hr before (by omega) (by omega)
  obtain ⟨v, next, decoded⟩ := reached.matched hr hc m few here (by omega) room
  refine ⟨k + 1, v, _, run.trans (.step next), decoded, ?_⟩
  split <;> decide

/-- A match, and a literal run behind it (41_encoder.md R146, R147). -/
theorem Decodes.matchThenRun (h : Decodes s q n) (m : Repeats s n dist len) (long : 4 ≤ count) :
    Decodes s (q ++ encode (matchWith dist len 0) ++ (encode (longRun count) ++ s.readIn (n + len) count))
      (n + len + count) := by
  intro r hr holds more room
  simp only [List.length_append, State.length_readIn] at more ⊢
  rw [List.append_assoc] at holds
  obtain ⟨before, here⟩ := inHolds_append.mp holds
  obtain ⟨isMatch, literals⟩ := inHolds_append.mp here
  rw [Nat.zero_add] at isMatch literals
  obtain ⟨k, t, c, run, reached, hc⟩ := h r hr before (by omega) (by omega)
  obtain ⟨u, matched, behind⟩ := reached.matched hr hc m (Nat.zero_le 3)
    (by rw [State.readIn, List.append_nil]; exact isMatch) (by omega) (by omega)
  obtain ⟨v, next, decoded⟩ := behind.literals hr (longRun_wf long) (longRun_inTable count) (exec_longRun count)
    literals (by omega) room
  exact ⟨k + 1 + 1, v, _, (run.trans (.step matched)).trans (.step next), by rwa [← Nat.add_assoc], by decide⟩

/-- The terminator ends a stream (41_encoder.md R157). -/
theorem Decodes.fully (h : Decodes s q n) : DecodesFully s (q ++ [0x11, 0x00, 0x00]) n := by
  intro r hr holds length room
  obtain ⟨before, terminator⟩ := inHolds_append.mp holds
  rw [List.length_append] at length
  rw [Nat.zero_add] at terminator
  obtain ⟨k, t, c, run, reached, hc⟩ := h r hr before (by simp at length; omega) room
  obtain ⟨v, next, result⟩ := reached.eos hr hc terminator length.symm room
  exact ⟨k + 1, v, run.trans (.step next), result⟩

/-- The terminator alone is the stream of an empty source (41_encoder.md R142). -/
theorem decodesFully_empty (s : State) : DecodesFully s [0x11, 0x00, 0x00] 0 := by
  intro r hr holds length room
  have N : r.d.N = 3 := length
  obtain ⟨u, passed, general⟩ := hr.passesOn s (b := 0x11) (by decide) holds (by omega)
  obtain ⟨v, next, result⟩ := general.eos hr (by decide) holds (by omega) room
  exact ⟨1 + 1, v, (RunsIn.step passed).trans (.step next), result⟩

end

/-! ## What the encoder has written so far -/

/-- An emission behind an empty output is the whole stream. -/
theorem Emitted.readOut_opening {u t : State} {out : List Byte} (h : Emitted u t 0 out) (empty : u.e.op = 0) :
    t.readOut u.outBase t.e.op = out := by
  refine State.readOut_eq (by rw [h.op, empty, Nat.zero_add]) fun k b hk => ?_
  have := h.bytes k b hk
  rwa [empty] at this

/-- An emission changes the last byte but one of the stream before it, by the count it patches (41_encoder.md R145). -/
theorem Emitted.readOut_behind {u t : State} {count : Nat} {q out : List Byte} {x y : Byte} (h : Emitted u t count out)
    (before : u.readOut u.outBase u.e.op = q ++ [x, y]) :
    t.readOut u.outBase t.e.op = q ++ [x ||| byte count, y] ++ out := by
  have op : u.e.op = q.length + 2 := by simpa using congrArg List.length before
  have old : ∀ k b, (q ++ [x, y])[k]? = some b → u.outByte (u.outBase + k) = b := fun k b hk => by
    have inside := (List.getElem?_eq_some_iff.mp hk).1
    rw [← before, State.length_readOut] at inside
    rw [← before, State.getElem?_readOut u _ _ k inside] at hk
    exact Option.some.inj hk
  refine State.readOut_eq (by rw [h.op, op]; simp; omega) fun k b hk => ?_
  by_cases new : k < q.length + 2
  · rw [List.getElem?_append_left (by simpa using new)] at hk
    by_cases patch : k = q.length
    · subst patch
      have xy : u.outByte (u.outBase + q.length) = x := old _ _ (by simp)
      have hb : x ||| byte count = b := by simpa using hk
      rw [← hb, ← xy]
      by_cases none : count = 0
      · rw [h.below _ (by omega) (.inl none), none]
        simp [byte]
      · have := h.patched none
        rwa [show u.outBase + u.e.op - 2 = u.outBase + q.length by omega] at this
    · rw [h.below _ (by omega) (.inr (by omega))]
      refine old k b ?_
      by_cases inFront : k < q.length
      · rwa [List.getElem?_append_left inFront] at hk ⊢
      · obtain rfl : k = q.length + 1 := by omega
        simpa using hk
  · rw [List.getElem?_append_right (by simpa using new)] at hk
    have := h.bytes _ b hk
    rwa [show u.outBase + u.e.op + (k - (q ++ [x ||| byte count, y]).length) = u.outBase + k by simp; omega] at this

/-- A compression of the source of `s` in `u`: nothing is written yet, or the stream ends in a match whose count is
still 0, and what is before the match decodes. -/
structure StreamInv (s u : State) : Prop where
  source : ∀ a, u.inByte a = s.inByte a
  stream : u.e.op = 0 ∨ ∃ q n dist len, u.readOut u.outBase u.e.op = q ++ encode (matchWith dist len 0) ∧
    Decodes s q n ∧ Repeats s n dist len ∧ u.e.ii = n + len

theorem StreamInv.readIn {s u : State} (h : StreamInv s u) (a n : Nat) : u.readIn a n = s.readIn a n :=
  State.readIn_congr s u a n fun _ _ => h.source _

/-- With the pending run written, the stream decodes up to the end of the run. -/
theorem StreamInv.run_decodes {s u t : State} {tail : Bool} {n : Nat} {more : List Byte} (h : StreamInv s u)
    (cursors : EncodeInv u)
    (emitted : Emitted u t (u.patchCount tail n) (u.lengthBytes tail n ++ u.readIn u.e.ii n ++ more))
    (opening : u.e.op = 0 → 1 ≤ n ∧ (tail = false → 4 ≤ n)) :
    ∃ q, t.readOut u.outBase t.e.op = q ++ more ∧ Decodes s q (u.e.ii + n) := by
  rw [h.readIn] at emitted
  by_cases empty : u.e.op = 0
  · have start : u.e.ii = 0 := by have := cursors.opened; omega
    obtain ⟨pos, scanned⟩ := opening empty
    rw [start] at emitted ⊢
    rw [Nat.zero_add]
    cases opens : u.opensStream tail n with
    | true =>
      obtain ⟨-, -, short, -⟩ := State.opensStream_eq_true.mp opens
      obtain ⟨count, length⟩ := lengthBytes_opens opens
      rw [count, length] at emitted
      exact ⟨_, emitted.readOut_opening empty, .firstRun pos short⟩
    | false =>
      have long : 4 ≤ n := by
        cases tail with
        | false => exact scanned rfl
        | true =>
          by_contra small
          have : u.opensStream true n = true :=
            State.opensStream_eq_true.mpr ⟨empty, pos, by omega, .inl rfl⟩
          rw [opens] at this
          cases this
      obtain ⟨count, length⟩ := lengthBytes_long long opens
      rw [count, length] at emitted
      exact ⟨_, emitted.readOut_opening empty, .openingRun long⟩
  · obtain ⟨q, m, dist, len, before, decodes, repeats, start⟩ := h.stream.resolve_left empty
    have opens : u.opensStream tail n = false := by
      rw [← Bool.not_eq_true, State.opensStream_eq_true]
      exact fun ⟨isEmpty, _⟩ => empty isEmpty
    obtain ⟨front, x, y, bytes⟩ := encode_matchWith dist len
    have patched : ∀ {c}, c ≤ 3 → q ++ front ++ [x ||| byte c, y] = q ++ encode (matchWith dist len c) := fun hc => by
      rw [bytes _ hc, List.append_assoc]
    have zero : x ||| byte 0 = x := by simp [byte]
    have before : u.readOut u.outBase u.e.op = (q ++ front) ++ [x, y] := by
      rw [before, bytes 0 (Nat.zero_le 3), zero, List.append_assoc]
    have after := emitted.readOut_behind before
    rw [start] at after ⊢
    by_cases few : n ≤ 3
    · obtain ⟨count, length⟩ := lengthBytes_patched few opens
      rw [count, length, patched few, List.nil_append, ← List.append_assoc] at after
      exact ⟨_, after, decodes.matched repeats few⟩
    · obtain ⟨count, length⟩ := lengthBytes_long (by omega) opens
      rw [count, length, patched (Nat.zero_le 3), ← List.append_assoc] at after
      exact ⟨_, after, decodes.matchThenRun repeats (by omega)⟩

end Sys2Proof.Machine
end

section
namespace Sys2Proof.Machine

/-! ## A compression writes a stream that decodes to its source -/

/-- Two states that agree on bytes of OUT read the same block of it. -/
theorem State.readOut_congr {s t : State} {a n : Nat} (h : ∀ k, k < n → t.outByte (a + k) = s.outByte (a + k)) :
    t.readOut a n = s.readOut a n := by
  refine State.readOut_eq (s.length_readOut a n) fun k b hk => ?_
  have inside : k < n := by simpa using (List.getElem?_eq_some_iff.mp hk).1
  rw [State.getElem?_readOut s a n k inside] at hk
  rw [h k inside]
  exact Option.some.inj hk

/-- The source of a match that a probe reports repeats what it holds at the match's distance
(40_match_finder.md R124). -/
theorem StreamInv.repeats {s u : State} {slot dist len : Nat} (h : StreamInv s u) (running : u.scanDone = false)
    (found : u.probe u.e.ip = (slot, .hit dist len)) : Repeats s u.e.ip dist len := by
  have scan := scanDone_false running
  obtain ⟨atLeast3, -, pos, near, behind, -, -, agrees⟩ :=
    everyMatchFoundAgreesWithTheSource u u.e.ip slot dist len (by omega) found
  refine ⟨pos, near, behind, atLeast3, fun k hk => ?_⟩
  rw [← h.source, ← h.source, agrees k hk, Nat.sub_add_comm behind]

theorem EncodeNext.streamInv {s u t : State} (hn : EncodeNext u t) (h : StreamInv s u) (cursors : EncodeInv u)
    (running : u.scanDone = false) : StreamInv s t := by
  obtain ⟨-, inMem, inGen, -⟩ := hn.commandFrame
  have source : ∀ a, t.inByte a = s.inByte a := fun a => by
    rw [← h.source]
    simp only [State.inByte, inMem, inGen]
  cases hn with
  | @missed slot =>
    have same : (probeMissed u slot).readOut u.outBase u.e.op = u.readOut u.outBase u.e.op :=
      State.readOut_congr fun _ _ => rfl
    exact ⟨source, h.stream.imp_right fun ⟨q, n, dist, len, before, rest⟩ =>
      ⟨q, n, dist, len, same.trans before, rest⟩⟩
  | @emitted slot dist len s1 _ found run =>
    have opened := cursors.opened
    obtain ⟨four, start, -⟩ := cursors.scan (scanDone_false running).1
    obtain ⟨q, stream, decodes⟩ := h.run_decodes cursors (cursors.match_emitted running run dist len)
      fun empty => ⟨by omega, fun _ => by omega⟩
    have base : (matchEmitted u s1 dist len).outBase = u.outBase := (EmitsTo.emitLiterals run).outBase
    rw [Nat.add_sub_cancel' start] at decodes
    exact ⟨source, .inr ⟨q, u.e.ip, dist, len, base ▸ stream, decodes, h.repeats running found, rfl⟩⟩
  | ends done => simp [running] at done

/-- The final step completes a stream that decodes to the source (41_encoder.md R164). -/
theorem EncodeNext.decodesFully {s u t : State} (hn : EncodeNext u t) (h : StreamInv s u) (cursors : EncodeInv u)
    (done : u.scanDone = true) : DecodesFully s (t.readOut u.outBase t.e.op) u.e.L := by
  cases hn with
  | missed running => simp [done] at running
  | emitted running => simp [done] at running
  | @ends s1 _ run =>
    have emitted := (cursors.end_exact run).endEncode
    have start := cursors.runStart_le
    have opened := cursors.opened
    by_cases nothing : u.e.op = 0 ∧ u.e.L = 0
    · obtain ⟨empty, none⟩ := nothing
      obtain ⟨count, length⟩ := openingTail (s := u) empty (n := 0) (by omega)
      rw [none, Nat.zero_sub, count, length] at emitted
      rw [emitted.readOut_opening empty, none]
      exact decodesFully_empty s
    · obtain ⟨q, stream, decodes⟩ := h.run_decodes cursors emitted fun empty => ⟨by omega, nofun⟩
      rw [Nat.add_sub_cancel' start] at decodes
      rw [stream]
      exact decodes.fully

/-- An emission leaves what stands in front of the stream. -/
theorem Emitted.header {u t : State} {count : Nat} {out : List Byte} (h : Emitted u t count out)
    (early : count ≠ 0 → 2 ≤ u.e.op) {x : Nat} (hx : x < u.outBase) : t.outByte x = u.outByte x := by
  refine h.below x (by omega) ?_
  by_cases none : count = 0
  · exact .inl none
  · have := early none
    exact .inr (by omega)

theorem EncodeNext.header {u t : State} (hn : EncodeNext u t) (cursors : EncodeInv u) {x : Nat}
    (hx : x < u.outBase) : t.outByte x = u.outByte x := by
  cases hn with
  | missed => rfl
  | emitted running _ run => exact (cursors.match_emitted running run _ _).header (cursors.patch_early running) hx
  | ends _ run => exact (cursors.end_exact run).endEncode.header cursors.tail_early hx

/-! ## A whole compression -/

/-- A compression of the source of `s` that has not ended. -/
structure Compressing (s : State) (op : OpKind) (u : State) : Prop where
  inv : u.Inv
  mode : u.mode = .compressing op
  alone : u.turns = []
  length : u.e.L = s.regs.inLen.toNat
  stream : StreamInv s u
  header : ∀ k b, (frameHeader op s.regs.inLen.toNat)[k]? = some b → u.outByte k = b

/-- The result of a compression of the source of `s`: the header, and a stream that decodes to the source. -/
structure Compressed (s : State) (op : OpKind) (u : State) (stream : List Byte) : Prop where
  mode : u.mode = .idle
  alone : u.turns = []
  decodes : DecodesFully s stream s.regs.inLen.toNat
  bound : stream.length ≤ outBound s.regs.inLen.toNat
  outLen : u.regs.outLen = reg32 ((frameHeader op s.regs.inLen.toNat).length + stream.length)
  bytes : ∀ k b, (frameHeader op s.regs.inLen.toNat ++ stream)[k]? = some b → u.outByte k = b

theorem Compressing.step {s u t : State} {op : OpKind} (h : Compressing s op u) (next : step u = .next t) :
    Compressing s op t ∨ ∃ stream, Compressed s op t stream := by
  obtain ⟨inv, mode, alone, length, stream, header⟩ := h
  have hu : EngineNext u u := .inl ⟨alone, rfl⟩
  have hn := EncodeNext.of_step hu mode next
  have cursors := (inv.encode op mode).2
  have base := outBase_of_mode mode s.regs.inLen.toNat
  have kept : ∀ k b, (frameHeader op s.regs.inLen.toNat)[k]? = some b → t.outByte k = b := fun k b hk => by
    rw [hn.header cursors (by rw [base]; exact (List.getElem?_eq_some_iff.mp hk).1)]
    exact header k b hk
  cases done : u.scanDone with
  | false =>
    obtain ⟨mode', length', -⟩ := hn.scanning done
    exact .inl ⟨everyStepKeepsTheInvariant u t inv next, mode'.trans mode, hn.commandFrame.turns.trans alone,
      length'.trans length, hn.streamInv stream cursors done, kept⟩
  | true =>
    obtain ⟨v, next', -, within, -, frame, -, -, stopped, -, outLen, -⟩ :=
      theFinalStepCompletesTheCommand u u op hu mode inv done
    obtain rfl : t = v := by
      rw [next] at next'
      exact Host.Outcome.next.inj next'
    refine .inr ⟨_, stopped, frame.turns.trans alone, length ▸ hn.decodesFully stream cursors done, ?_, ?_,
      fun k b hk => ?_⟩
    · rw [State.length_readOut, ← length]
      exact within
    · rw [State.length_readOut, ← base]
      exact outLen
    · by_cases inHeader : k < (frameHeader op s.regs.inLen.toNat).length
      · exact kept k b (by rwa [List.getElem?_append_left inHeader] at hk)
      · rw [List.getElem?_append_right (Nat.le_of_not_lt inHeader)] at hk
        have inside := (List.getElem?_eq_some_iff.mp hk).1
        rw [State.length_readOut] at inside
        rw [State.getElem?_readOut t _ _ _ inside] at hk
        rw [← Option.some.inj hk, base, Nat.add_sub_cancel' (Nat.le_of_not_lt inHeader)]

/-- A block whose operation has stopped stays as it is (60_exceptions.md R317). -/
theorem eq_of_runsIn_idle {k : Nat} {u v : State} (mode : u.mode = .idle) (alone : u.turns = [])
    (run : RunsIn k u v) : v = u := by
  induction k with
  | zero =>
    cases run
    rfl
  | succ k ih =>
    obtain ⟨w, next, rest⟩ := runsIn_succ.mp run
    rw [step_of_engine (.inl ⟨alone, rfl⟩), engineTurn, mode] at next
    cases next
    exact ih rest

theorem Compressing.result {s u v : State} {op : OpKind} {k : Nat} (h : Compressing s op u) (run : RunsIn k u v)
    (stopped : v.mode = .idle) : ∃ stream, Compressed s op v stream := by
  induction k generalizing u with
  | zero =>
    cases run
    rw [h.mode] at stopped
    cases stopped
  | succ k ih =>
    obtain ⟨w, next, rest⟩ := runsIn_succ.mp run
    obtain goesOn | ⟨stream, ended⟩ := h.step next
    · exact ih goesOn rest
    · obtain rfl := eq_of_runsIn_idle ended.mode ended.alone rest
      exact ⟨stream, ended⟩

/-- An accepted compression has written nothing but its header. -/
theorem compressing_of_exec {i : Instr} {op : OpKind} (hi : StartsCompression i op) {s t : State} (h : s.Inv)
    (idle : s.regs.status.busy = false) (alone : s.turns = []) (ht : exec i s = .next t)
    (hm : t.mode = .compressing op) : Compressing s op t := by
  have inv := compression_inv hi h idle ht
  obtain rfl := eq_compressionStarted hi idle ht hm
  obtain ⟨source, -, empty, -⟩ := compressionStarted_e op (frameHeader op s.regs.inLen.toNat) s
  exact ⟨inv, hm, by simpa using alone, source, ⟨fun a => by simp, .inl empty⟩,
    fun k b hk => compressionStarted_header op _ s hk⟩

/-! ## The decode of the result -/

theorem acceptDecompress_of_mode {r : State} (hm : (acceptDecompress r).mode ≠ .idle) :
    acceptDecompress r =
      (r.clearResults.begin (.decompressing .decompress)).startDecode r.regs.inLen.toNat r.regs.dstCap.toNat := by
  unfold acceptDecompress at hm ⊢
  dsimp only at hm ⊢
  split
  next refused =>
    rw [if_pos refused] at hm
    exact absurd rfl hm
  next => rfl

theorem acceptDecompressFramed_of_mode {r : State} (hm : (acceptDecompressFramed r).mode ≠ .idle) :
    acceptDecompressFramed r =
      (r.clearResults.begin (.decompressing .decompressFramed)).startDecode (r.regs.inLen.toNat - 4)
        r.headerCapacity := by
  unfold acceptDecompressFramed at hm ⊢
  dsimp only at hm ⊢
  split
  next refused =>
    rw [if_pos refused] at hm
    exact absurd rfl hm
  next fits =>
    rw [if_neg fits] at hm
    split
    next short =>
      rw [if_pos short] at hm
      exact absurd rfl hm
    next four =>
      rw [if_neg four] at hm
      split
      next refused =>
        rw [if_pos refused] at hm
        exact absurd rfl hm
      next => rfl

/-- A decode that was just accepted, on its own, has the bounds of the invariant. -/
theorem decodeStarted_of_inv {r : State} {op : OpKind} {N C : Nat}
    (h : ((r.clearResults.begin (.decompressing op)).startDecode N C).Inv) (alone : r.turns = []) :
    DecodeStarted ((r.clearResults.begin (.decompressing op)).startDecode N C) := by
  obtain ⟨-, inBounds, outBounds, -⟩ := h.decode op rfl
  exact ⟨alone, ⟨op, rfl⟩, inBounds, outBounds, rfl, rfl, rfl⟩

/-- A register that holds a length shows it. -/
theorem reg32_toNat (w : Word) : reg32 w.toNat = w := by
  rw [reg32, if_pos w.isLt, BitVec.ofNat_toNat, BitVec.setWidth_eq]

/-- A number of 32 bits is its four bytes (20_memory.md R61). -/
theorem le32_leBytes {n : Nat} (h : n < 2 ^ 32) :
    le32 (byte n) (byte (n / 256)) (byte (n / 256 / 256)) (byte (n / 256 / 256 / 256)) = n := by
  simp only [le32, byte, BitVec.toNat_ofNat]
  omega

/-- Settles O58: the encoder's stream, up to its pending match, decodes to the source so far, through every step. -/
theorem decompressUndoesCompress : Obligations.DecompressUndoesCompress := by
  intro s s1 s2 r r1 k h idle alone hs1 hm1 small run stopped hr idleR aloneR inLen dstCap stream hr1 hmr
  obtain ⟨p, result⟩ := (compressing_of_exec (.inl ⟨rfl, rfl⟩) h idle alone hs1 hm1).result run stopped
  have outLen : s2.regs.outLen = reg32 p.length := by rw [result.outLen]; simp [frameHeader]
  have length : s2.regs.outLen.toNat = p.length := by
    rw [outLen, toNat_reg32 (Nat.lt_of_le_of_lt result.bound small)]
  obtain rfl : acceptDecompress r = r1 := by
    rw [show exec .decompress r = _ from unlessBusy_of_idle idleR _] at hr1
    exact Host.Outcome.next.inj hr1
  have inv := acceptDecompress_inv hr
  rw [acceptDecompress_of_mode (by rw [hmr]; nofun)] at inv ⊢
  obtain ⟨j, r2, runs, idle2, done, outLen2, out⟩ := result.decodes _ (decodeStarted_of_inv inv aloneR)
    (fun k b hk => by
      have inside := (List.getElem?_eq_some_iff.mp hk).1
      show r.inByte (0 + 0 + k) = b
      rw [Nat.zero_add, stream k (by rw [length]; exact inside)]
      exact result.bytes k b hk)
    (by rw [← length, ← inLen]; rfl) (by rw [← dstCap]; exact le_rfl)
  exact ⟨j, r2, runs, idle2, done, outLen2.trans (reg32_toNat _), out⟩

/-- Settles O59: the header gives the capacity back, and the stream behind it decodes as in O58. -/
theorem decompressFramedUndoesCompressFramed : Obligations.DecompressFramedUndoesCompressFramed := by
  intro s s1 s2 r r1 k h idle alone hs1 hm1 small run stopped hr idleR aloneR inLen stream hr1 hmr
  obtain ⟨p, result⟩ := (compressing_of_exec (.inr ⟨rfl, rfl⟩) h idle alone hs1 hm1).result run stopped
  have bound := result.bound
  have length : s2.regs.outLen.toNat = 4 + p.length := by
    rw [result.outLen, toNat_reg32]
    · rfl
    · exact Nat.lt_of_le_of_lt (Nat.add_le_add_left bound 4) small
  have container : ∀ k b, (leBytes 4 s.regs.inLen.toNat ++ p)[k]? = some b → r.inByte k = b := fun k b hk => by
    have inside := (List.getElem?_eq_some_iff.mp hk).1
    rw [List.length_append] at inside
    rw [stream k (by rw [length]; exact inside)]
    exact result.bytes k b hk
  have capacity : r.headerCapacity = s.regs.inLen.toNat := by
    rw [State.headerCapacity, container 0 _ rfl, container 1 _ rfl, container 2 _ rfl, container 3 _ rfl]
    exact le32_leBytes s.regs.inLen.isLt
  obtain rfl : acceptDecompressFramed r = r1 := by
    rw [show exec .decompressFramed r = _ from unlessBusy_of_idle idleR _] at hr1
    exact Host.Outcome.next.inj hr1
  have inv := acceptDecompressFramed_inv hr
  rw [acceptDecompressFramed_of_mode (by rw [hmr]; nofun)] at inv ⊢
  obtain ⟨j, r2, runs, idle2, done, outLen2, out⟩ := result.decodes _ (decodeStarted_of_inv inv aloneR)
    (fun k b hk => by
      show r.inByte (4 + 0 + k) = b
      refine container _ b ?_
      rw [List.getElem?_append_right (by simp [leBytes])]
      simpa [leBytes] using hk)
    (by
      show r.regs.inLen.toNat - 4 = _
      rw [inLen, length, Nat.add_sub_cancel_left])
    (by rw [← capacity]; exact le_rfl)
  exact ⟨j, r2, runs, idle2, done, outLen2.trans (reg32_toNat _), out⟩

end Sys2Proof.Machine
end

section
namespace Sys2Proof.Machine

/-! ## The shift formulas of a match -/

/-- A field put above a number of `i` bits by OR is put there by addition. -/
theorem shiftLeft_or_of_lt {i b : Nat} (a : Nat) (h : b < 2 ^ i) : a <<< i ||| b = a * 2 ^ i + b := by
  rw [Nat.shiftLeft_eq, Nat.mul_comm, Nat.two_pow_add_eq_or_of_lt h]

/-- The distance bytes by masks and shifts (41_encoder.md R156). -/
theorem distanceBytes_shifts (o : Nat) :
    distanceBytes o 0 = [byte ((o &&& 0x3F) <<< 2), byte ((o >>> 6) &&& 0xFF)] := by
  have low : o &&& 0x3F = o % 64 := Nat.and_two_pow_sub_one_eq_mod o 6
  have high : o >>> 6 &&& 0xFF = o >>> 6 % 256 := Nat.and_two_pow_sub_one_eq_mod _ 8
  rw [low, high, Nat.shiftLeft_eq, Nat.shiftRight_eq_div_pow]
  rfl

/-- The short form (41_encoder.md R152). -/
theorem encode_m2_shifts {dist len : Nat} :
    encode (.m2 dist len 0) = [byte (((len - 1) <<< 5) ||| (((dist - 1) &&& 7) <<< 2)), byte ((dist - 1) >>> 3)] := by
  have low : (dist - 1) &&& 7 = (dist - 1) % 8 := Nat.and_two_pow_sub_one_eq_mod _ 3
  rw [low, Nat.shiftLeft_eq _ 2, shiftLeft_or_of_lt (i := 5) _ (by omega), Nat.shiftRight_eq_div_pow]
  rfl

/-- The opcode of a near match holds its length below the bit that marks it (41_encoder.md R153). -/
theorem nearOpcode_or {l : Nat} (h : l ≤ 31) : 0x20 + l = 0x20 ||| l :=
  Nat.two_pow_add_eq_or_of_lt (i := 5) (by omega) 1

/-- The opcode of a far match holds the top bit of its offset in bit 3 (41_encoder.md R154). -/
theorem farOpcode_or {o : Nat} (h : o < 32768) : 0x10 + 8 * (o / 16384) = 0x10 ||| (o &&& 0x4000) >>> 11 := by
  have top : (o &&& 0x4000) >>> 11 = 8 * (o / 16384) := by
    have bit : o &&& 0x4000 = o / 16384 % 2 * 16384 := by
      rw [← Nat.toNat_testBit o 14]
      exact Nat.and_two_pow o 14
    rw [bit, Nat.shiftRight_eq_div_pow]
    omega
  rw [top]
  exact Nat.two_pow_add_eq_or_of_lt (i := 4) (by omega) 1

/-- The length of a far match stands below bit 3 (41_encoder.md R154). -/
theorem farOpcode_length_or {h l : Nat} (hl : l ≤ 7) : 0x10 + 8 * h + l = (0x10 + 8 * h) ||| l := by
  rw [show 0x10 + 8 * h = 2 ^ 3 * (2 + h) by omega]
  exact Nat.two_pow_add_eq_or_of_lt (by omega) _

/-- Settles O47: each form's fields do not overlap, so that OR is addition. -/
theorem aMatchIsWrittenByTheShiftFormulas : Obligations.AMatchIsWrittenByTheShiftFormulas := by
  intro dist len pos near atLeast3
  rw [matchForm_eq]
  refine ⟨fun short brief => ?_, fun inM3 notShort => ?_, fun far => ?_⟩
  · rw [matchWith, if_pos ⟨short, brief⟩, encode_m2_shifts]
  · rw [matchWith, if_neg notShort, if_pos inM3, ← distanceBytes_shifts]
    split
    · rw [encode, nearOpcode_or (by omega)]
      rfl
    · rfl
  · rw [matchWith, if_neg (by omega), if_neg (by omega), ← distanceBytes_shifts, ← farOpcode_or (by omega)]
    split
    · rw [encode, farOpcode_length_or (by omega)]
      rfl
    · rfl

end Sys2Proof.Machine
end

section
namespace Sys2Proof.Machine

/-! ## What a step of a compression depends on -/

/-- Two blocks agree on the source, the encoder's registers and table, the two encoder parameters, the output base and
the bytes written so far (41_encoder.md R164). -/
structure SameCompression (u u' : State) : Prop where
  e : u.e = u'.e
  table : u.table = u'.table
  updateSlot : u.cfg.updateSlot = u'.cfg.updateSlot
  firstRunForm : u.cfg.firstRunForm = u'.cfg.firstRunForm
  source : ∀ a, a < u.e.L → u.inByte a = u'.inByte a
  base : u.outBase = u'.outBase
  out : ∀ a, a < u.outBase + u.e.op → u.outByte a = u'.outByte a

section
variable {u u' : State} (h : SameCompression u u')
include h

theorem SameCompression.candidate (k p : Nat) : u.candidate k p = u'.candidate k p := by
  simp only [State.candidate, State.slot, h.table]

theorem SameCompression.indexAt {p : Nat} (hp : p + 3 < u.e.L) : u.indexAt p = u'.indexAt p := by
  rw [State.indexAt, h.source p (by omega), h.source (p + 1) (by omega), h.source (p + 2) (by omega),
    h.source (p + 3) hp, State.indexAt]

theorem SameCompression.goesOn {c p : Nat} (hc : c < p) (hp : p + 3 < u.e.L) : u.goesOn c p = u'.goesOn c p := by
  rw [State.goesOn, h.source (c + 3) (by omega), h.source (p + 3) hp, State.goesOn]

theorem SameCompression.lookup {p : Nat} (hp : p + 3 < u.e.L) : u.lookup p = u'.lookup p := by
  have goes : ∀ k c, u'.candidate k p = some c → u.goesOn c p = u'.goesOn c p := fun _ _ hc =>
    h.goesOn (candidate_range hc).1 hp
  simp only [State.lookup, h.indexAt hp, h.candidate, h.updateSlot]
  cases hc : u'.candidate (u'.indexAt p) p with
  | none => rfl
  | some c =>
    dsimp only
    rw [goes _ c hc]
    cases hc2 : u'.candidate (rehash (u'.indexAt p)) p with
    | none => rfl
    | some c2 =>
      dsimp only
      rw [goes _ c2 hc2]

theorem SameCompression.confirmed {m p : Nat} (hm : m < p) (hp : p + 3 < u.e.L) :
    u.confirmed m p = u'.confirmed m p := by
  rw [State.confirmed, h.source m (by omega), h.source (m + 1) (by omega), h.source (m + 2) (by omega),
    h.source p (by omega), h.source (p + 1) (by omega), h.source (p + 2) (by omega), State.confirmed]

theorem SameCompression.agreeFrom {m p k fuel : Nat} (hm : m < p) (hp : p + k + fuel ≤ u.e.L) :
    u.agreeFrom m p k fuel = u'.agreeFrom m p k fuel := by
  induction fuel generalizing k with
  | zero => rfl
  | succ fuel ih =>
    rw [State.agreeFrom, h.source (m + k) (by omega), h.source (p + k) (by omega), ih (by omega), State.agreeFrom]

theorem SameCompression.matchLength {m p : Nat} (hm : m < p) (hp : p + 9 ≤ u.e.L) :
    u.matchLength m p = u'.matchLength m p := by
  rw [State.matchLength, h.agreeFrom hm hp, h.agreeFrom hm (by omega), h.e, State.matchLength]

/-- A probe depends on the source below `L`, the table and the parameter (40_match_finder.md R125). -/
theorem SameCompression.probe {p : Nat} (hp : p + 9 ≤ u.e.L) : u.probe p = u'.probe p := by
  simp only [State.probe, h.lookup (show p + 3 < u.e.L by omega)]
  cases hl : u'.lookup p with
  | mk slot found =>
    cases found with
    | none => rfl
    | some m =>
      have below : m < p := (lookup_candidate (by rw [hl])).1
      dsimp only
      rw [h.confirmed below (by omega), h.matchLength below hp]

theorem SameCompression.scanDone : u.scanDone = u'.scanDone := by
  rw [State.scanDone, h.e, State.scanDone]

theorem SameCompression.opensStream (tail : Bool) (n : Nat) : u.opensStream tail n = u'.opensStream tail n := by
  rw [State.opensStream, h.e, h.firstRunForm, State.opensStream]

theorem SameCompression.patchCount (tail : Bool) (n : Nat) : u.patchCount tail n = u'.patchCount tail n := by
  rw [State.patchCount, h.opensStream, State.patchCount]

theorem SameCompression.lengthBytes (tail : Bool) (n : Nat) : u.lengthBytes tail n = u'.lengthBytes tail n := by
  rw [State.lengthBytes, h.opensStream, State.lengthBytes]

theorem SameCompression.readIn {a n : Nat} (hn : a + n ≤ u.e.L) : u.readIn a n = u'.readIn a n :=
  State.readIn_congr u' u a n fun _ _ => h.source _ (by omega)

/-- The same emission writes the same stream behind the same bytes. -/
theorem SameCompression.emitted {t t' : State} {count : Nat} {out : List Byte} (ht : Emitted u t count out)
    (ht' : Emitted u' t' count out) (early : count ≠ 0 → 2 ≤ u.e.op) :
    t.e.op = t'.e.op ∧ ∀ a, a < u.outBase + t.e.op → t.outByte a = t'.outByte a := by
  obtain ⟨op, bytes, patched, below⟩ := ht
  obtain ⟨op', bytes', patched', below'⟩ := ht'
  rw [← h.base, ← h.e] at bytes' patched' below'
  rw [← h.e] at op'
  refine ⟨op.trans op'.symm, fun a ha => ?_⟩
  by_cases new : u.outBase + u.e.op ≤ a
  · obtain ⟨k, rfl⟩ := Nat.exists_eq_add_of_le new
    have inside : k < out.length := by omega
    rw [bytes k _ (List.getElem?_eq_getElem inside), bytes' k _ (List.getElem?_eq_getElem inside)]
  · by_cases patch : count ≠ 0 ∧ a = u.outBase + u.e.op - 2
    · obtain ⟨some, rfl⟩ := patch
      have := early some
      rw [patched some, patched' some, h.out _ (by omega)]
    · have other : count = 0 ∨ a ≠ u.outBase + u.e.op - 2 := by omega
      rw [below a (by omega) other, below' a (by omega) other, h.out a (by omega)]

end

/-- A probe without a match has one next state. -/
theorem EncodeNext.eq_probeMissed {s t : State} {slot : Nat} (hn : EncodeNext s t) (running : s.scanDone = false)
    (found : s.probe s.e.ip = (slot, .noMatch)) : t = probeMissed s slot := by
  cases hn with
  | missed _ found' =>
    rw [found] at found'
    cases found'
    rfl
  | emitted _ found' =>
    rw [found] at found'
    cases found'
  | ends done => simp [running] at done

/-- What a probe with a match leaves: its emission, the table with the position stored, and the scan behind the
match (41_encoder.md R143, R158). -/
theorem EncodeNext.of_hit {s t : State} {slot dist len : Nat} (hn : EncodeNext s t) (running : s.scanDone = false)
    (found : s.probe s.e.ip = (slot, .hit dist len)) (cursors : EncodeInv s) :
    Emitted s t (s.patchCount false (s.e.ip - s.e.ii))
        (s.lengthBytes false (s.e.ip - s.e.ii) ++ s.readIn s.e.ii (s.e.ip - s.e.ii) ++
          encode (matchForm dist len)) ∧
      t.table = (s.storePosition slot).table ∧ t.mode = s.mode ∧ t.regs = s.regs ∧
      t.e = { L := s.e.L, ip := s.e.ip + len, ii := s.e.ip + len, op := t.e.op } := by
  cases hn with
  | missed _ found' =>
    rw [found] at found'
    cases found'
  | @emitted slot' dist' len' s1 _ found' run =>
    rw [found] at found'
    cases found'
    have emits := EmitsTo.emitLiterals run
    refine ⟨cursors.match_emitted running run dist len, emits.table, emits.mode, emits.regs, ?_⟩
    rw [← show s1.e.L = s.e.L from emits.source]
    rfl
  | ends done => simp [running] at done

/-- What two blocks that agree on a compression agree on after a step of it. -/
structure SameStep (u t t' : State) : Prop where
  e : t.e = t'.e
  table : t.table = t'.table
  mode : t.mode = t'.mode
  outLen : t.regs.outLen = t'.regs.outLen
  out : ∀ a, a < u.outBase + t.e.op → t.outByte a = t'.outByte a

section
variable {s u s' u' t t' : State} {op : OpKind} (h : SameCompression u u') (inv : u.Inv) (inv' : u'.Inv)
  (hm : u.mode = .compressing op) (hm' : u'.mode = .compressing op)
include h inv inv' hm hm'

/-- The final steps write the same tail and the same terminator. -/
theorem SameCompression.final (hu : EngineNext s u) (hu' : EngineNext s' u') (ht : step s = .next t)
    (ht' : step s' = .next t') (done : u.scanDone = true) : SameStep u t t' := by
  have early : u.patchCount true (u.e.L - u.e.ii) ≠ 0 → 2 ≤ u.e.op := (inv.encode op hm).2.tail_early
  have start := (inv.encode op hm).2.runStart_le
  obtain ⟨_, next, emitted, -, cursors, -, -, table, mode, -, outLen, -⟩ :=
    theFinalStepCompletesTheCommand s u op hu hm inv done
  obtain rfl := Host.Outcome.next.inj (ht.symm.trans next)
  obtain ⟨_, next', emitted', -, cursors', -, -, table', mode', -, outLen', -⟩ :=
    theFinalStepCompletesTheCommand s' u' op hu' hm' inv' (h.scanDone ▸ done)
  obtain rfl := Host.Outcome.next.inj (ht'.symm.trans next')
  rw [← h.e, ← h.patchCount, ← h.lengthBytes, ← h.readIn (by omega)] at emitted'
  obtain ⟨cursor, out⟩ := h.emitted emitted emitted' early
  exact ⟨by rw [cursors, cursors', cursor, h.e], by rw [table, table', h.table], by rw [mode, mode'],
    by rw [outLen, outLen', cursor, h.base], out⟩

/-- The probes find the same, store the same position and emit the same bytes. -/
theorem SameCompression.scanning (hn : EncodeNext u t) (hn' : EncodeNext u' t') (running : u.scanDone = false) :
    SameStep u t t' := by
  have running' : u'.scanDone = false := h.scanDone ▸ running
  have cursors := (inv.encode op hm).2
  have inSource := scanDone_false running
  obtain ⟨-, start, inside⟩ := cursors.scan inSource.1
  have result : u.regs.outLen = u'.regs.outLen := by
    rw [(inv.status.busyRegs (inv.status.busy.mpr (by rw [hm]; nofun))).1,
      (inv'.status.busyRegs (inv'.status.busy.mpr (by rw [hm']; nofun))).1]
  have stored : ∀ slot, (u.storePosition slot).table = (u'.storePosition slot).table := fun slot => by
    rw [State.storePosition_table, State.storePosition_table, inv.slotPosition hm running,
      inv'.slotPosition hm' running', h.table, h.e]
  have found' : u.probe u.e.ip = u'.probe u'.e.ip := h.e ▸ h.probe (by omega)
  cases found : u.probe u.e.ip with
  | mk slot r =>
    rw [found] at found'
    cases r with
    | noMatch =>
      rw [hn.eq_probeMissed running found, hn'.eq_probeMissed running' found'.symm]
      exact ⟨congrArg (fun e : EncRegs => { e with ip := e.ip + 1 }) h.e, stored slot, hm.trans hm'.symm, result, h.out⟩
    | hit dist len =>
      obtain ⟨emitted, table, mode, regs, moved⟩ := hn.of_hit running found cursors
      obtain ⟨emitted', table', mode', regs', moved'⟩ := hn'.of_hit running' found'.symm (inv'.encode op hm').2
      rw [← h.e, ← h.patchCount, ← h.lengthBytes, ← h.readIn (by omega)] at emitted'
      obtain ⟨cursor, out⟩ := h.emitted emitted emitted' (cursors.patch_early running)
      exact ⟨by rw [moved, moved', cursor, h.e], by rw [table, table', stored], by rw [mode, mode', hm, hm'],
        by rw [regs, regs', result], out⟩

end

/-- Settles O51: the two blocks probe alike, and what they emit is the same list of bytes. -/
theorem theStreamDependsOnTheSourceAlone : Obligations.TheStreamDependsOnTheSourceAlone := by
  intro s u s' u' t t' op hu hu' inv inv' hm hm' e table updateSlot firstRunForm source out ht ht'
  have base : u.outBase = u'.outBase := by simp only [State.outBase, hm, hm']
  have same : SameCompression u u' := ⟨e, table, updateSlot, firstRunForm, source, base, out⟩
  obtain ⟨e, table, mode, outLen, out⟩ : SameStep u t t' := by
    cases done : u.scanDone with
    | true => exact same.final inv inv' hm hm' hu hu' ht ht' done
    | false => exact same.scanning inv inv' hm hm' (.of_step hu hm ht) (.of_step hu' hm' ht') done
  exact ⟨e, table, mode, outLen, out⟩

end Sys2Proof.Machine
end

section
namespace Sys2Proof.Machine

/-! ## A decode's step -/

/-- While a decode runs, the engine's step is a decoder step. -/
theorem step_of_decompressing {s u : State} {op : OpKind} (hu : EngineNext s u) (hm : u.mode = .decompressing op) :
    step s = (decoderStep u).outcome := by
  rw [step_of_engine hu, engineTurn, hm]

/-- An opcode table fixes the decoder state it is read in (30_encoding.md R81). -/
theorem DState.stateOfTable_of_table {x : DState} {c : DecodeTable} (h : x.table = some c) :
    stateOfTable c = some x := by
  rcases x with _ | _ | (_ | _) | _ | _ | _ <;> cases h <;> rfl

theorem StillDecoding.setIp (s : State) (ip : Nat) : StillDecoding s (s.setIp ip) := ⟨.setIp s ip, rfl, rfl⟩

/-- The decoder reads its next opcode in table `c`, behind the opcode byte that it holds after trailing literals, and
input is left (42_decoder_fsm.md R187 to R190). -/
structure Fetches (u : State) (c : DecodeTable) (held : List Byte) : Prop where
  bounds : u.decodeBounds = true
  table : u.d.state.table = some c
  start : c = .start → u.d.ip = 0
  holds : c = .afterTrailing → held = [u.d.t]
  holdsNone : c ≠ .afterTrailing → held = []
  more : u.d.ip < u.d.N

section
variable {u : State} {c : DecodeTable} {held rest : List Byte} {i : Instr}

theorem Fetches.ne_ctrl (h : Fetches u c held) : c ≠ .ctrl := by
  rintro rfl
  cases DState.stateOfTable_of_table h.table

theorem Fetches.state_start (h : Fetches u .start held) : u.d.state = .start :=
  (Option.some.inj (DState.stateOfTable_of_table h.table)).symm

/-- With input left, the decoder step is the fetch of an instruction. -/
theorem Fetches.decoderStep_eq (h : Fetches u c held) : decoderStep u = fetchInstr c held u := by
  obtain ⟨bounds, table, start, holds, holdsNone, more⟩ := h
  have state := DState.stateOfTable_of_table table
  rw [decoderStep, if_pos bounds]
  cases c with
  | start =>
    rw [← Option.some.inj state, holdsNone (by decide)]
    have zero : u.setIp 0 = u := congrArg u.setIp (start rfl).symm
    exact (if_neg (by omega)).trans (congrArg _ zero)
  | literalOrMatch =>
    rw [← Option.some.inj state, holdsNone (by decide)]
    exact if_neg (by omega)
  | afterLiteral => rw [← Option.some.inj state, holdsNone (by decide)]
  | afterTrailing =>
    rw [← Option.some.inj state, holds rfl]
    exact if_neg (by omega)
  | ctrl => cases state

/-- The cursor is put behind the header, of which the held byte was fetched before. -/
theorem Fetches.ip_behind_header (h : Fetches u c held) (ok : decode c (held ++ u.streamRest) = .ok i rest) :
    u.d.N - rest.length = u.d.ip + i.headerLength - held.length := by
  have length := length_of_decode _ _ _ _ ok
  have more := h.more
  rw [List.length_append, State.streamRest, State.length_readIn] at length
  omega

end

/-- Settles O6: the fetch hands on the decoded instruction, and the bytes left behind its header give the cursor. -/
theorem aStepRunsTheDecodedInstruction : Obligations.AStepRunsTheDecodedInstruction := by
  intro s u op c held rest i hu hm bounds table start holds holdsNone ok
  have more : u.d.ip < u.d.N := by
    by_cases trailing : c = .afterTrailing
    · exact (holds trailing).2
    · by_contra spent
      rw [holdsNone trailing, State.streamRest, Nat.sub_eq_zero_of_le (Nat.le_of_not_lt spent)] at ok
      exact decode_nil_ne_ok ok
  have fetches : Fetches u c held := ⟨bounds, table, start, fun e => (holds e).1, holdsNone, more⟩
  rw [step_of_decompressing hu hm, fetches.decoderStep_eq, fetchInstr, ok, ← fetches.ip_behind_header ok]
  rfl

/-- Settles O8: the fetch at the start of a stream, where the table of first bytes rejects the byte. -/
theorem aSmallFirstByteIsPassedOn : Obligations.ASmallFirstByteIsPassedOn := by
  intro s u op hu hm bounds state ip more small
  have fetches : Fetches u .start [] :=
    ⟨bounds, by rw [state]; rfl, fun _ => ip, nofun, fun _ => rfl, by omega⟩
  have stream : u.streamRest = u.inByte u.inBase :: u.readIn (u.inBase + 1) (u.d.N - 1) := by
    rw [State.streamRest, ip, show u.d.N - 0 = u.d.N - 1 + 1 by omega]
    rfl
  rw [step_of_decompressing hu hm, fetches.decoderStep_eq, fetchInstr, List.nil_append, stream,
    decode_start_passedOn small]
  rfl

/-- Settles O9: the fetch of a truncated header, which moves the cursor to the end of the input. -/
theorem aHeaderCutShortRaisesInputOverrun : Obligations.AHeaderCutShortRaisesInputOverrun := by
  intro s u op c held hu hm bounds table notStart more holds holdsNone truncated
  have fetches : Fetches u c held := ⟨bounds, table, fun e => absurd e notStart, holds, holdsNone, more⟩
  have stopped := raiseError_stopped (.setIp u (max u.d.ip u.d.N)) .inputOverrun
  rw [State.setIp_d, Nat.max_eq_right more.le] at stopped
  refine ⟨_, ?_, stopped⟩
  rw [step_of_decompressing hu hm, fetches.decoderStep_eq, fetchInstr, truncated, Nat.max_eq_right more.le]
  rfl

/-! ## The first check of an instruction -/

/-- An instruction whose first phase fails stops in place (60_exceptions.md R303, R309). -/
theorem exec_stops_in_place {i : Instr} {s : State} {p : Phase} {f : State → Phase} {kind : ErrKind}
    (answer : exec i s = decodeAnswer s (p.andThen f)) (bounds : s.decodeBounds = true) (fails : p = .err kind s) :
    ∃ t, exec i s = .next t ∧ StoppedBy s t kind s.d.ip s.d.op := by
  refine ⟨s.raiseError kind, ?_, raiseError_stopped (.refl s) kind⟩
  rw [answer, decodeAnswer, if_pos bounds, fails]
  rfl

/-- Every literal instruction begins with the copy of its run (43_literal_instructions.md R211 to R214). -/
theorem exec_literal {i : Instr} {n : Nat} (hi : i = .litfs n ∨ i = .litf n ∨ i = .lit n ∨ i = .litx n) (s : State) :
    ∃ f, exec i s = decodeAnswer s ((copyLiterals n s).andThen f) := by
  rcases hi with rfl | rfl | rfl | rfl <;> exact ⟨_, rfl⟩

/-- Settles O13: the run's copy is the first phase, and it fails at its output check or at its input check. -/
theorem aLiteralRunChecksOutputThenInput : Obligations.ALiteralRunChecksOutputThenInput := by
  intro s i n hi bounds
  obtain ⟨f, answer⟩ := exec_literal hi s
  refine ⟨fun full => ?_, fun room short => ?_⟩
  · exact exec_stops_in_place answer bounds (by rw [copyLiterals, if_pos full])
  · exact exec_stops_in_place answer bounds (by rw [copyLiterals, if_neg (Nat.not_lt.mpr room), if_pos short])

/-- Every match but EOS runs by its distance, length and trailing count (44_match_instructions.md R230). -/
theorem exec_match {i : Instr} {dist len count : Nat}
    (hi : i = .m1l dist count ∧ len = 3 ∨ i = .m1 dist count ∧ len = 2 ∨ i = .m2 dist len count ∨
      i = .m3 dist len count ∨ i = .m3x dist len count ∨ i = .m4 dist len count ∨ i = .m4x dist len count)
    (s : State) : exec i s = decodeAnswer s (matchRun dist len count s) := by
  rcases hi with ⟨rfl, rfl⟩ | ⟨rfl, rfl⟩ | rfl | rfl | rfl | rfl | rfl <;> rfl

/-- Settles O16: the match's copy is the first phase, and it fails at its lookbehind check or at its output check. -/
theorem aMatchChecksLookbehindThenOutput : Obligations.AMatchChecksLookbehindThenOutput := by
  intro s i dist len count hi bounds
  have answer := exec_match hi s
  refine ⟨fun far => ?_, fun near full => ?_⟩
  · exact exec_stops_in_place answer bounds (by rw [copyMatch, if_pos far])
  · exact exec_stops_in_place answer bounds (by rw [copyMatch, if_neg (Nat.not_lt.mpr near), if_pos full])

/-! ## Terminal states -/

theorem EmitsTo.d {s t : State} (h : EmitsTo s t) : t.d = s.d := by rw [h.frame]

/-- A compression leaves the decoder registers alone. -/
theorem EncodeNext.d {s t : State} (h : EncodeNext s t) : t.d = s.d := by
  cases h with
  | missed => rfl
  | emitted _ _ run _ => exact (EmitsTo.emitLiterals run).d
  | ends _ run _ => exact (EmitsTo.emitLiterals run).d

/-- Settles O39: an idle engine changes nothing, a compression keeps the decoder registers, and a running decode is in
no terminal state. -/
theorem noEngineStepLeavesATerminalState : Obligations.NoEngineStepLeavesATerminalState := by
  intro s u t inv terminal hu ht
  rw [step_of_engine hu] at ht
  rcases engineTurn_cases ht with ⟨-, rfl⟩ | ⟨op, -, hn⟩ | ⟨op, hm, -⟩
  · rfl
  · exact hn.d
  · have running := (inv.decode op hm).2.running
    rcases terminal with ended | ⟨kind, stopped⟩
    · rw [ended] at running
      cases running
    · rw [stopped] at running
      cases running

end Sys2Proof.Machine
end

section
namespace Sys2Proof.Machine

/-! ## How long a decode runs -/

/-- The operation is over, in DONE or in ERROR. -/
def Stopped (t : State) : Prop := t.mode = .idle ∧ (t.regs.status.done = true ∨ t.regs.status.error = true)

theorem Stopped.raiseError (s : State) (kind : ErrKind) : Stopped (s.raiseError kind) := ⟨rfl, .inr rfl⟩

theorem Stopped.endDecode (s : State) : Stopped s.endDecode := ⟨rfl, .inl rfl⟩

/-- How many steps a decode has left at most: one for each byte it has not fetched, one more to stop at the end of its
input, and one to pass its first byte on (42_decoder_fsm.md R187, R199). -/
def stepsLeft (s : State) : Nat := s.d.N - s.d.ip + if s.d.state = .start then 2 else 1

theorem stepsLeft_start {s : State} (h : s.d.state = .start) : stepsLeft s = s.d.N - s.d.ip + 2 := by
  rw [stepsLeft, if_pos h]

theorem stepsLeft_of_ne_start {s : State} (h : s.d.state ≠ .start) : stepsLeft s = s.d.N - s.d.ip + 1 := by
  rw [stepsLeft, if_neg h]

theorem stepsLeft_bounds (s : State) : s.d.N - s.d.ip + 1 ≤ stepsLeft s ∧ stepsLeft s ≤ s.d.N + 2 := by
  unfold stepsLeft
  split <;> omega

theorem headerLength_pos (i : Instr) : 0 < i.headerLength := by
  cases i with
  | litx | m3x | m4x => simp only [Instr.headerLength]; omega
  | eos => simp only [Instr.headerLength]; split <;> omega
  | _ => exact Nat.succ_pos _

/-- After trailing literals an instruction has a byte behind its opcode (30_encoding.md R84 to R88). -/
theorem two_le_headerLength {i : Instr} (h : i.inTable .afterTrailing = true) : 2 ≤ i.headerLength := by
  cases i with
  | m1 | m2 | m3 | m4 | m3x | m4x => simp only [Instr.headerLength]; omega
  | eos => simp only [Instr.headerLength]; split <;> omega
  | _ => cases h

section
variable {u t : State} {c : DecodeTable} {held rest : List Byte} {i : Instr}

/-- A header has more bytes than the one that may be held. -/
theorem Fetches.held_lt_headerLength (h : Fetches u c held) (ok : decode c (held ++ u.streamRest) = .ok i rest) :
    held.length < i.headerLength := by
  by_cases trailing : c = .afterTrailing
  · obtain ⟨-, table, -⟩ := everyStreamInstructionHasOneEncoding c _ i rest h.ne_ctrl ok
    rw [h.holds trailing]
    exact two_le_headerLength (trailing ▸ table)
  · rw [h.holdsNone trailing]
    exact headerLength_pos i

/-- Only the table of first bytes passes a byte on (42_decoder_fsm.md R187). -/
theorem Fetches.start_of_passedOn (h : Fetches u c held)
    (passed : decode c (held ++ u.streamRest) = .reject .notFirstByteRun) : u.d.state = .start := by
  by_contra notStart
  have input : held ++ u.streamRest ≠ [] := by
    have more := h.more
    rw [← List.length_pos_iff, List.length_append, State.streamRest, State.length_readIn]
    omega
  obtain ⟨b, bytes, stream⟩ := List.exists_cons_of_ne_nil input
  have behindFirst : c = .literalOrMatch ∨ c = .afterLiteral ∨ c = .afterTrailing := by
    cases c with
    | start => exact absurd h.state_start notStart
    | ctrl => exact absurd rfl h.ne_ctrl
    | literalOrMatch => exact .inl rfl
    | afterLiteral => exact .inr (.inl rfl)
    | afterTrailing => exact .inr (.inr rfl)
  rw [stream] at passed
  rcases (opens_of_stream behindFirst b).1 bytes with ⟨i, rest, ok⟩ | truncated
  · rw [ok] at passed; cases passed
  · rw [truncated] at passed; cases passed

/-- An instruction that does not stop the decode moves the cursor on; a first byte passed on leaves `Start`. -/
theorem Fetches.stops_or_decreases (h : Fetches u c held) (ht : (fetchInstr c held u).outcome = .next t) :
    Stopped t ∨ StillDecoding u t ∧ stepsLeft t < stepsLeft u := by
  have more := h.more
  rcases fetchInstr_cases c held u with ⟨i, rest, ok, e⟩ | ⟨passed, e⟩ | ⟨r, -, -, e⟩ <;> rw [e] at ht
  · have forward := h.held_lt_headerLength ok
    rw [h.ip_behind_header ok] at ht
    cases (DecodeNext.of_exec (inTable_ctrl_of_decode h.ne_ctrl ok) ht).2 with
    | goesOn adv boundary =>
      have still := (StillDecoding.setIp u _).trans adv.still
      have ipUp : u.d.ip + i.headerLength - held.length ≤ t.d.ip := adv.ipUp
      have left := (stepsLeft_bounds u).1
      obtain ⟨-, notStart, -⟩ := boundary
      refine .inr ⟨still, ?_⟩
      rw [stepsLeft_of_ne_start notStart, still.frame.N]
      omega
    | error _ kind => exact .inl (.raiseError _ kind)
    | ends => exact .inl (.endDecode _)
  · cases ht
    have left : stepsLeft (u.setDState .expectLiteralOrMatch) = u.d.N - u.d.ip + 1 := stepsLeft_of_ne_start nofun
    refine .inr ⟨(setDState_advance u _).still, ?_⟩
    rw [left, stepsLeft_start (h.start_of_passedOn passed)]
    exact Nat.lt_succ_self _
  · cases ht
    exact .inl (.raiseError _ _)

end

theorem DState.exists_table {x : DState} (h : x.running = true) : ∃ c, x.table = some c := by
  cases x with
  | start | expectLiteralOrMatch => exact ⟨_, rfl⟩
  | expectMatch ctx => cases ctx <;> exact ⟨_, rfl⟩
  | copyingMatch | ended | error => cases h

/-- A running decode fetches an instruction, or it needs one where no input is left (42_decoder_fsm.md R187 to
R190). -/
theorem DecodeInv.fetches_or_stops {u : State} (h : DecodeInv u) :
    (∃ c held, Fetches u c held) ∨ decoderStep u = .answer (.next (u.raiseError .eofMarkerNotFound)) := by
  obtain ⟨c, table⟩ := DState.exists_table h.running
  have state := DState.stateOfTable_of_table table
  by_cases more : u.d.ip < u.d.N
  · refine .inl ⟨c, if c = .afterTrailing then [u.d.t] else [], h.decodeBounds, table, ?_, fun e => if_pos e,
      fun e => if_neg e, more⟩
    rintro rfl
    exact (h.start (Option.some.inj state).symm).1
  · right
    have spent : u.d.N ≤ u.d.ip := Nat.le_of_not_lt more
    rw [decoderStep, if_pos h.decodeBounds]
    cases c with
    | start =>
      have ip := (h.start (Option.some.inj state).symm).1
      rw [← Option.some.inj state]
      exact if_pos (by omega)
    | literalOrMatch =>
      rw [← Option.some.inj state]
      exact if_pos spent
    | afterLiteral => exact absurd (h.afterLiteral (Option.some.inj state).symm) more
    | afterTrailing =>
      rw [← Option.some.inj state]
      exact if_pos spent
    | ctrl => cases state

/-- Each step of a running decode stops it or leaves it fewer steps (42_decoder_fsm.md R199). -/
theorem DecodeInv.stops_or_decreases {u t : State} (h : DecodeInv u) (ht : (decoderStep u).outcome = .next t) :
    Stopped t ∨ StillDecoding u t ∧ stepsLeft t < stepsLeft u := by
  obtain ⟨c, held, fetches⟩ | eof := h.fetches_or_stops
  · exact fetches.stops_or_decreases (fetches.decoderStep_eq ▸ ht)
  · rw [eof] at ht
    cases ht
    exact .inl (.raiseError u _)

/-- A decode that runs on its own stops within the steps it has left. -/
theorem decode_stops_within {n : Nat} {s : State} {op : OpKind} (inv : s.Inv) (hm : s.mode = .decompressing op)
    (alone : s.turns = []) (hn : stepsLeft s ≤ n) : ∃ k t, k ≤ n ∧ RunsIn k s t ∧ Stopped t := by
  induction n generalizing s with
  | zero =>
    have left := (stepsLeft_bounds s).1
    omega
  | succ n ih =>
    have decode := (inv.decode op hm).2
    obtain ⟨t, next⟩ := decode.decoderStep_next
    have steps : step s = .next t := (step_of_decompressing (.inl ⟨alone, rfl⟩) hm).trans next
    obtain stopped | ⟨still, fewer⟩ := decode.stops_or_decreases next
    · exact ⟨1, t, Nat.le_add_left 1 n, .step steps, stopped⟩
    · obtain ⟨k, v, hk, run, stopped⟩ := ih (decoderStep_inv inv hm next) (still.mode.trans hm)
        (still.frame.turns.trans alone) (by omega)
      exact ⟨k + 1, v, Nat.succ_le_succ hk, runsIn_succ.mpr ⟨t, steps, run⟩, stopped⟩

/-- Settles O56: every step that goes on uses one of the steps left, of which a decode has at most `N + 2`. -/
theorem everyDecodeStopsWithinItsInput : Obligations.EveryDecodeStopsWithinItsInput :=
  fun s _ inv hm alone => decode_stops_within inv hm alone (stepsLeft_bounds s).2

end Sys2Proof.Machine
end

section
namespace Sys2Proof.Machine

/-! ## The frame of the stream instructions -/

/-- None of the twelve stream instructions is a host command (30_encoding.md R81). -/
theorem inTable_ctrl_of_stream {i : Instr} {n dist len count l3 ext : Nat}
    (hi : i = .litfs n ∨ i = .litf n ∨ i = .lit n ∨ i = .litx n ∨ i = .m1l dist count ∨ i = .m1 dist count ∨
      i = .m2 dist len count ∨ i = .m3 dist len count ∨ i = .m3x dist len count ∨ i = .m4 dist len count ∨
      i = .m4x dist len count ∨ i = .eos l3 ext count) : i.inTable .ctrl = false := by
  rcases hi with rfl | rfl | rfl | rfl | rfl | rfl | rfl | rfl | rfl | rfl | rfl | rfl <;> rfl

/-- A decode that did not stop has advanced: an error and the end of the stream leave the engine idle. -/
theorem DecodeNext.advance {s t : State} (h : DecodeNext s t) (running : t.mode ≠ .idle) : Advance s t := by
  cases h with
  | goesOn adv _ => exact adv
  | error _ _ => exact absurd rfl running
  | ends => exact absurd rfl running

/-- Settles O21: every next state of a decode keeps the frame, and one that goes on is an advance. -/
theorem streamInstructionsKeepEverythingElse : Obligations.StreamInstructionsKeepEverythingElse := by
  intro s t i n dist len count l3 ext hi ht
  obtain ⟨-, next⟩ := DecodeNext.of_exec (inTable_ctrl_of_stream hi) ht
  refine ⟨next.frame, fun running => ?_⟩
  have adv := next.advance running
  exact ⟨adv.still.regs, adv.still.mode, adv.outGen, adv.opUp, adv.old⟩

end Sys2Proof.Machine
end

section
namespace Sys2Proof.Machine

/-! ## Literal runs that fit -/

/-- A stream instruction whose phases all go on answers with their last state. -/
theorem decodeAnswer_ok {s t : State} {p : Phase} (bounds : s.decodeBounds = true) (ok : p = .ok t) :
    decodeAnswer s p = .next t := by
  rw [decodeAnswer, if_pos bounds, ok]
  rfl

theorem Advance.of_ok {s t : State} {p : Phase} (adv : Advance s p.last) (ok : p = .ok t) : Advance s t := by
  rw [ok] at adv
  exact adv

/-- A run that passes both checks is copied (42_decoder_fsm.md R185). -/
theorem copyLiterals_ok {n : Nat} {s : State} (room : s.d.op + n ≤ s.d.C) (input : n + 1 ≤ s.d.N - s.d.ip) :
    copyLiterals n s = .ok (literalsCopied n s) := by
  rw [copyLiterals, if_neg (Nat.not_lt.mpr room), if_neg (Nat.not_lt.mpr input)]
  rfl

/-- LITF, LIT and LITX have one meaning (43_literal_instructions.md R211, R213, R214). -/
theorem exec_literalRun {i : Instr} {n : Nat} (hi : i = .litf n ∨ i = .lit n ∨ i = .litx n) (s : State) :
    exec i s = decodeAnswer s (literalRun n s) := by
  rcases hi with rfl | rfl | rfl <;> rfl

/-- Settles O11: the run's copy passes both checks, and the state is set behind it. -/
theorem litfLitAndLitxCopyTheirRun : Obligations.LitfLitAndLitxCopyTheirRun := by
  intro s i n hi bounds room input
  have ok : literalRun n s = .ok ((literalsCopied n s).setDState (.expectMatch .afterLiteral)) := by
    rw [literalRun, copyLiterals_ok room input]
    rfl
  have adv := (literalRun_advance n s).of_ok ok
  exact ⟨_, (exec_literalRun hi s).trans (decodeAnswer_ok bounds ok), adv.still, literalsCopied_out n s,
    rfl, rfl, rfl, rfl⟩

/-- The state after the next opcode was fetched into `d.t` (42_decoder_fsm.md R183, R192). -/
def heldFetched (s : State) : State :=
  ((s.setT (s.inByte (s.inBase + s.d.ip))).setIp (s.d.ip + 1)).setDState (.expectMatch .afterTrailing)

theorem fetchHeld_ok {s : State} (more : s.d.ip < s.d.N) : fetchHeld s = .ok (heldFetched s) :=
  if_neg (Nat.not_le.mpr more)

/-- Settles O12: the run's copy passes both checks, and its input check leaves a byte for the fetch behind it. -/
theorem litfsCopiesItsRunAndHoldsTheNextOpcode : Obligations.LitfsCopiesItsRunAndHoldsTheNextOpcode := by
  intro s n bounds room input
  have more : (literalsCopied n s).d.ip < (literalsCopied n s).d.N := by
    show s.d.ip + n < s.d.N
    omega
  have ok : (copyLiterals n s).andThen fetchHeld = .ok (heldFetched (literalsCopied n s)) := by
    rw [copyLiterals_ok room input]
    exact fetchHeld_ok more
  have adv := (shortRun_advance n s).of_ok ok
  refine ⟨_, decodeAnswer_ok bounds ok, adv.still, literalsCopied_out n s, rfl, rfl, rfl, ?_⟩
  show s.inByte (s.inBase + (s.d.ip + n)) = _
  rw [Nat.add_assoc]

end Sys2Proof.Machine
end

section
namespace Sys2Proof.Machine

/-! ## The copy of a match -/

@[simp] theorem copyBack_d (dist len : Nat) (s : State) :
    (copyBack dist len s).d = { s.d with op := s.d.op + len } := by
  obtain ⟨mem, frame, -⟩ := copyBack_frame dist len s
  rw [frame]

@[simp] theorem copyBack_inBase (dist len : Nat) (s : State) : (copyBack dist len s).inBase = s.inBase := by
  obtain ⟨mem, frame, -⟩ := copyBack_frame dist len s
  rw [frame]
  rfl

@[simp] theorem copyBack_inByte (dist len : Nat) (s : State) (a : Nat) :
    (copyBack dist len s).inByte a = s.inByte a := by
  obtain ⟨mem, frame, -⟩ := copyBack_frame dist len s
  rw [frame]
  rfl

/-- A byte within the first period is read from in front of the copy, and a later one is the byte a period before it,
which the copy wrote (44_match_instructions.md R239). -/
theorem copyBack_out {dist : Nat} (len : Nat) {s : State} (pos : 1 ≤ dist) (near : dist ≤ s.d.op) :
    OutHolds s (copyBack dist len s) s.d.op len (fun k => s.outByte (s.d.op - dist + k % dist)) := by
  refine ⟨fun k => ?_, copyBack_old dist len s⟩
  induction k using Nat.strong_induction_on with
  | _ k ih =>
    intro hk
    dsimp only at ih ⊢
    rw [copyBack_byte dist len s pos near k hk]
    by_cases first : k < dist
    · rw [copyBack_old _ _ _ _ (.inl (by omega)), Nat.mod_eq_of_lt first, Nat.sub_add_comm near]
    · have before := ih (k - dist) (by omega) (by omega)
      rwa [← Nat.mod_eq_sub_mod (Nat.le_of_not_lt first), ← Nat.add_sub_assoc (Nat.le_of_not_lt first)] at before

/-- Settles O18: each byte copied is traced back, period by period, to one in front of the copy. -/
theorem anOverlappingCopyRepeatsItsPeriod : Obligations.AnOverlappingCopyRepeatsItsPeriod :=
  fun _ _ len pos near => copyBack_out len pos near

/-! ## Matches that copy -/

/-- A match whose distance and output are in bounds copies and goes on to its trailing literals
(44_match_instructions.md R230). -/
theorem matchRun_copies {dist len count : Nat} {s : State} (near : dist ≤ s.d.op) (room : s.d.op + len ≤ s.d.C) :
    matchRun dist len count s = finishMatch count (copyBack dist len s) := by
  rw [matchRun, copyMatch, if_neg (Nat.not_lt.mpr near), if_neg (Nat.not_lt.mpr room)]
  rfl

/-- Trailing literals, where there are any, are a literal copy and the fetch of the next opcode
(42_decoder_fsm.md R192). -/
theorem finishMatch_pos {count : Nat} (s : State) (present : 1 ≤ count) :
    finishMatch count s = (copyLiterals count s).andThen fetchHeld :=
  if_neg (by omega)

/-- Settles O14: the copy passes both checks, and general dispatch is next. -/
theorem aMatchWithoutTrailingLiteralsCopies : Obligations.AMatchWithoutTrailingLiteralsCopies := by
  intro s i dist len hi bounds pos near room
  have ok : matchRun dist len 0 s = .ok ((copyBack dist len s).setDState .expectLiteralOrMatch) :=
    matchRun_copies near room
  have adv := (matchRun_advance dist len 0 s).of_ok ok
  exact ⟨_, (exec_match hi s).trans (decodeAnswer_ok bounds ok), adv.still, copyBack_out len pos near,
    by simp, by simp, rfl, by simp⟩

/-! ## Matches with trailing literals -/

/-- Two copies, the second right behind the first. -/
theorem OutHolds.append {s t u : State} {a n m : Nat} {f g : Nat → Byte} (first : OutHolds s t a n f)
    (second : OutHolds t u (a + n) m g) : OutHolds s u a (n + m) (fun k => if k < n then f k else g (k - n)) := by
  obtain ⟨new, old⟩ := first
  obtain ⟨new', old'⟩ := second
  refine ⟨fun k hk => ?_, fun x hx => ?_⟩
  · dsimp only
    by_cases inFirst : k < n
    · rw [if_pos inFirst, old' _ (.inl (by omega)), new k inFirst]
    · rw [if_neg inFirst, ← new' (k - n) (by omega)]
      congr 1
      omega
  · rw [old' x (by omega), old x (by omega)]

@[simp] theorem literalsCopied_d (n : Nat) (s : State) :
    (literalsCopied n s).d = { s.d with ip := s.d.ip + n, op := s.d.op + n } := rfl

@[simp] theorem literalsCopied_inBase (n : Nat) (s : State) : (literalsCopied n s).inBase = s.inBase := rfl

@[simp] theorem literalsCopied_inByte (n : Nat) (s : State) (a : Nat) :
    (literalsCopied n s).inByte a = s.inByte a := rfl

@[simp] theorem heldFetched_d (s : State) :
    (heldFetched s).d =
      { s.d with t := s.inByte (s.inBase + s.d.ip), ip := s.d.ip + 1, state := .expectMatch .afterTrailing } := rfl

/-- Settles O15: the copy of the match and the copy behind it pass their checks, and the input check leaves a byte for
the fetch. -/
theorem aMatchWithTrailingLiteralsCopiesBoth : Obligations.AMatchWithTrailingLiteralsCopiesBoth := by
  intro s i dist len count hi bounds pos near present room input
  have ok : matchRun dist len count s = .ok (heldFetched (literalsCopied count (copyBack dist len s))) := by
    rw [matchRun_copies near (by omega), finishMatch_pos _ present, copyLiterals_ok (by simpa) (by simpa)]
    exact fetchHeld_ok (by simp; omega)
  have adv := (matchRun_advance dist len count s).of_ok ok
  have literals := literalsCopied_out count (copyBack dist len s)
  simp only [copyBack_d, copyBack_inBase, copyBack_inByte] at literals
  exact ⟨_, (exec_match hi s).trans (decodeAnswer_ok bounds ok), adv.still,
    (copyBack_out len pos near).append literals, by simp, by simp, by simp, by simp [Nat.add_assoc]⟩

/-- An instruction of which a phase fails stops at that phase's cursors (60_exceptions.md R303, R309). -/
theorem exec_stops {i : Instr} {s u : State} {p : Phase} {kind : ErrKind} (answer : exec i s = decodeAnswer s p)
    (bounds : s.decodeBounds = true) (fails : p = .err kind u) (still : StillDecoding s u) :
    ∃ t, exec i s = .next t ∧ StoppedBy s t kind u.d.ip u.d.op := by
  refine ⟨u.raiseError kind, ?_, raiseError_stopped still kind⟩
  rw [answer, decodeAnswer, if_pos bounds, fails]
  rfl

/-- Settles O17: the match's copy is done, and the literals' copy fails at its output check or at its input check. -/
theorem trailingLiteralsThatDoNotFitStopTheMatch : Obligations.TrailingLiteralsThatDoNotFitStopTheMatch := by
  intro s i dist len count hi bounds near room present
  have stops {kind : ErrKind} (fails : copyLiterals count (copyBack dist len s) = .err kind (copyBack dist len s)) :
      ∃ t, exec i s = .next t ∧ StoppedBy s t kind s.d.ip (s.d.op + len) := by
    have run : matchRun dist len count s = .err kind (copyBack dist len s) := by
      rw [matchRun_copies near room, finishMatch_pos _ present, fails]
      rfl
    simpa using exec_stops (exec_match hi s) bounds run (copyBack_advance dist len s room).still
  refine ⟨fun full => stops ?_, fun roomBehind short => stops ?_⟩
  · rw [copyLiterals, if_pos (by simpa)]
  · rw [copyLiterals, if_neg (by simpa), if_pos (by simp; omega)]

/-! ## The end marker -/

/-- Settles O19: the stop keeps as the result the bytes below the write cursor. -/
theorem eosAtTheEndOfTheInputEndsTheDecode : Obligations.EosAtTheEndOfTheInputEndsTheDecode := by
  intro s l3 ext count bounds spent
  have answer : exec (.eos l3 ext count) s = .next s.endDecode :=
    (if_pos bounds).trans (if_pos spent)
  exact ⟨_, answer, .endDecode s, rfl, rfl, rfl, rfl, rfl, rfl, State.outByte_keepOut (s.setDState .ended) s.d.op⟩

end Sys2Proof.Machine
end

section
namespace Sys2Proof.Machine

/-! ## Whether a command fits -/

/-- The first row of the table of 45_host_commands.md R275. -/
@[simp] theorem State.inputTooLong_iff (s : State) :
    s.inputTooLong = true ↔ s.cfg.inSize < s.regs.inLen.toNat ∨ s.cfg.maxLen < s.regs.inLen.toNat := by
  simp [State.inputTooLong]

@[simp] theorem State.capacityTooLarge_iff (s : State) (C : Nat) :
    s.capacityTooLarge C = true ↔ s.cfg.outSize < C ∨ s.cfg.maxLen < C := by
  simp [State.capacityTooLarge]

theorem acceptCompress_of_not_fits {op : OpKind} {header : List Byte} {s : State}
    (large : (s.cfg.inSize < s.regs.inLen.toNat ∨ s.cfg.maxLen < s.regs.inLen.toNat) ∨
      s.cfg.outSize < header.length + outBound s.regs.inLen.toNat) :
    acceptCompress op header s = s.clearResults.refuse := by
  obtain ⟨source, maxLen, room, -⟩ | ⟨-, e⟩ := acceptCompress_cases op header s
  · omega
  · exact e

theorem acceptDecompress_of_not_fits {s : State}
    (large : (s.cfg.inSize < s.regs.inLen.toNat ∨ s.cfg.maxLen < s.regs.inLen.toNat) ∨
      (s.cfg.outSize < s.regs.dstCap.toNat ∨ s.cfg.maxLen < s.regs.dstCap.toNat)) :
    acceptDecompress s = s.clearResults.refuse := if_pos (by simpa using large)

/-- The input is checked first; where it fits and holds a header, the header's capacity is (45_host_commands.md R274,
R275). -/
theorem acceptDecompressFramed_of_not_fits {s : State}
    (large : (s.cfg.inSize < s.regs.inLen.toNat ∨ s.cfg.maxLen < s.regs.inLen.toNat) ∨
      4 ≤ s.regs.inLen.toNat ∧ (s.cfg.outSize < s.headerCapacity ∨ s.cfg.maxLen < s.headerCapacity)) :
    acceptDecompressFramed s = s.clearResults.refuse := by
  unfold acceptDecompressFramed
  by_cases input : s.inputTooLong = true
  · exact if_pos input
  · obtain long | ⟨four, capacity⟩ := large
    · exact absurd (s.inputTooLong_iff.mpr long) input
    · rw [if_neg input, if_neg (Nat.not_lt.mpr four), if_pos ((s.capacityTooLarge_iff _).mpr capacity)]

/-- A refused command touches neither the memories nor the engine (45_host_commands.md R276). -/
theorem Refused.refuse (s : State) : Refused s s.clearResults.refuse :=
  ⟨⟨rfl, rfl, rfl, rfl, rfl, rfl⟩, rfl, rfl, rfl, rfl, rfl, rfl, rfl, rfl, rfl, rfl⟩

/-- A command that is not ignored answers what its accepting step gives (45_host_commands.md R270). -/
theorem unlessBusy_eq_next {s accepted t : State} (idle : s.regs.status.busy = false) (e : accepted = t) :
    unlessBusy s accepted = .next t :=
  (unlessBusy_of_idle idle accepted).trans (congrArg _ e)

/-- Settles O27: each of its lengths that does not fit takes the command to its refusal. -/
theorem aCommandThatDoesNotFitIsRefused : Obligations.ACommandThatDoesNotFitIsRefused := by
  intro s idle
  have refused {accepted : State} (e : accepted = s.clearResults.refuse) :
      ∃ t, unlessBusy s accepted = .next t ∧ Refused s t :=
    ⟨_, unlessBusy_eq_next idle e, .refuse s⟩
  refine ⟨fun long i hi => ?_, fun large => refused (acceptCompress_of_not_fits (.inr ?_)),
    fun large => refused (acceptCompress_of_not_fits (.inr large)),
    fun large => refused (acceptDecompress_of_not_fits (.inr large)),
    fun four large => refused (acceptDecompressFramed_of_not_fits (.inr ⟨four, large⟩))⟩
  · obtain rfl | rfl | rfl | rfl := hi
    · exact refused (acceptCompress_of_not_fits (.inl long))
    · exact refused (acceptDecompress_of_not_fits (.inl long))
    · exact refused (acceptCompress_of_not_fits (.inl long))
    · exact refused (acceptDecompressFramed_of_not_fits (.inl long))
  · rwa [List.length_nil, Nat.zero_add]

end Sys2Proof.Machine
end

section
namespace Sys2Proof.Machine

/-! ## Accepted compressions -/

@[simp] theorem State.startEncode_d (s : State) (L : Nat) : (s.startEncode L).d = s.d := by
  rcases State.startEncode_cases s L with ⟨-, e⟩ | ⟨-, e⟩ <;> rw [e]

@[simp] theorem State.startEncode_outByte (s : State) (L a : Nat) : (s.startEncode L).outByte a = s.outByte a := by
  rcases State.startEncode_cases s L with ⟨-, e⟩ | ⟨-, e⟩ <;> rw [e] <;> rfl

/-- TABLE is cleared for a source that is searched (40_match_finder.md R114). -/
theorem State.startEncode_slot (s : State) {L : Nat} (long : 13 < L) (k : Nat) : (s.startEncode L).slot k = none := by
  obtain ⟨-, e⟩ | ⟨short, -⟩ := State.startEncode_cases s L
  · rw [e]
    rfl
  · omega

section
variable (op : OpKind) (header : List Byte) (s : State)

@[simp] theorem compressionStarted_d : (compressionStarted op header s).d = s.d := by
  simp [compressionStarted]

/-- No byte of OUT behind the header is written (45_host_commands.md R271, R273). -/
theorem compressionStarted_outByte {a : Nat} (behind : header.length ≤ a) :
    (compressionStarted op header s).outByte a = s.outByte a := by
  rw [compressionStarted, State.outByte_writeOut_out _ _ _ _ (by omega)]
  simp

theorem compressionStarted_slot (long : 13 < s.regs.inLen.toNat) (k : Nat) :
    (compressionStarted op header s).slot k = none :=
  State.startEncode_slot (s.clearResults.begin (.compressing op)) long k

/-- STATUS, the result registers and the mode of a compression that was accepted (45_host_commands.md R270). -/
theorem compressionStarted_accepted : Accepted s (compressionStarted op header s) (.compressing op) where
  frame := by constructor <;> simp [compressionStarted]
  status := by simp [compressionStarted, Status.running]
  outLen := by simp [compressionStarted]
  inPos := by simp [compressionStarted]
  outPos := by simp [compressionStarted]
  mode := by simp

end

theorem acceptCompress_of_fits {op : OpKind} {header : List Byte} {s : State}
    (source : s.regs.inLen.toNat ≤ s.cfg.inSize) (maxLen : s.regs.inLen.toNat ≤ s.cfg.maxLen)
    (room : header.length + outBound s.regs.inLen.toNat ≤ s.cfg.outSize) :
    acceptCompress op header s = compressionStarted op header s := by
  obtain ⟨-, -, -, e⟩ | ⟨large, -⟩ := acceptCompress_cases op header s
  · exact e
  · exact absurd ⟨source, maxLen, room⟩ large

/-- Settles O22: the stream has no header, so all of OUT lies behind it. -/
theorem compressStartsTheEncoder : Obligations.CompressStartsTheEncoder := by
  intro s idle source maxLen room
  have fits : acceptCompress .compress [] s = compressionStarted _ _ s :=
    acceptCompress_of_fits source maxLen (by rwa [List.length_nil, Nat.zero_add])
  obtain ⟨L, ii, op, ip⟩ := compressionStarted_e .compress [] s
  exact ⟨_, unlessBusy_eq_next idle fits, compressionStarted_accepted _ _ s, compressionStarted_d _ _ s, L, op, ii,
    fun a => compressionStarted_outByte _ _ s (Nat.zero_le a),
    fun long => ⟨ip long, compressionStarted_slot _ _ s long⟩⟩

/-- Settles O23: the header is the four bytes of the source length, lowest first. -/
theorem compressFramedWritesItsHeader : Obligations.CompressFramedWritesItsHeader := by
  intro s idle source maxLen room
  have fits : acceptCompress .compressFramed (leBytes 4 s.regs.inLen.toNat) s = compressionStarted _ _ s :=
    acceptCompress_of_fits source maxLen room
  obtain ⟨L, ii, op, ip⟩ := compressionStarted_e .compressFramed (leBytes 4 s.regs.inLen.toNat) s
  have written {k : Nat} {n : Nat} (h : (leBytes 4 s.regs.inLen.toNat)[k]? = some (byte n)) :
      ((compressionStarted .compressFramed (leBytes 4 s.regs.inLen.toNat) s).outByte k).toNat = n % 256 := by
    rw [compressionStarted_header _ _ s h]
    rfl
  refine ⟨_, unlessBusy_eq_next idle fits, compressionStarted_accepted _ _ s, compressionStarted_d _ _ s, L, op, ii,
    written rfl, written rfl, written ?_, written ?_,
    fun _ => compressionStarted_outByte .compressFramed (leBytes 4 _) s,
    fun long => ⟨ip long, compressionStarted_slot _ _ s long⟩⟩
  · simp [leBytes, Nat.div_div_eq_div_mul]
  · simp [leBytes, Nat.div_div_eq_div_mul]

end Sys2Proof.Machine
end

section
namespace Sys2Proof.Machine

/-! ## Accepted decompressions -/

/-- The block after it accepted a DECOMPRESS or DECOMPRESS_FRAMED for a stream of `N` bytes and a capacity `C`. -/
def decompressionStarted (op : OpKind) (N C : Nat) (s : State) : State :=
  (s.clearResults.begin (.decompressing op)).startDecode N C

/-- STATUS, the result registers and the mode of a decompression that was accepted (45_host_commands.md R270). -/
theorem decompressionStarted_accepted (op : OpKind) (N C : Nat) (s : State) :
    Accepted s (decompressionStarted op N C s) (.decompressing op) :=
  ⟨⟨rfl, rfl, rfl, rfl, rfl, rfl⟩, rfl, rfl, rfl, rfl, rfl⟩

section
variable {s : State} (source : s.regs.inLen.toNat ≤ s.cfg.inSize) (maxLen : s.regs.inLen.toNat ≤ s.cfg.maxLen)
include source maxLen

theorem not_inputTooLong : ¬s.inputTooLong = true := by
  rw [State.inputTooLong_iff]
  omega

theorem acceptDecompress_of_fits (room : s.regs.dstCap.toNat ≤ s.cfg.outSize)
    (maxCap : s.regs.dstCap.toNat ≤ s.cfg.maxLen) :
    acceptDecompress s = decompressionStarted .decompress s.regs.inLen.toNat s.regs.dstCap.toNat s :=
  if_neg (by rw [Bool.or_eq_true, State.inputTooLong_iff, State.capacityTooLarge_iff]; omega)

theorem acceptDecompressFramed_of_short (short : s.regs.inLen.toNat < 4) :
    acceptDecompressFramed s =
      (s.clearResults.begin (.decompressing .decompressFramed)).stopError .inputOverrun 0 0 :=
  (if_neg (not_inputTooLong source maxLen)).trans (if_pos short)

theorem acceptDecompressFramed_of_fits (four : 4 ≤ s.regs.inLen.toNat) (room : s.headerCapacity ≤ s.cfg.outSize)
    (maxCap : s.headerCapacity ≤ s.cfg.maxLen) :
    acceptDecompressFramed s =
      decompressionStarted .decompressFramed (s.regs.inLen.toNat - 4) s.headerCapacity s := by
  have capacity : ¬s.capacityTooLarge s.headerCapacity = true := by
    rw [State.capacityTooLarge_iff]
    omega
  exact (if_neg (not_inputTooLong source maxLen)).trans ((if_neg (Nat.not_lt.mpr four)).trans (if_neg capacity))

end

/-- Settles O24: both lengths fit, and the start step sets the decoder registers alone. -/
theorem decompressStartsTheDecoder : Obligations.DecompressStartsTheDecoder := by
  intro s idle source maxLen room maxCap
  have fits := acceptDecompress_of_fits source maxLen room maxCap
  exact ⟨_, unlessBusy_eq_next idle fits, decompressionStarted_accepted _ _ _ s, rfl, rfl, rfl, rfl, rfl, rfl, rfl,
    rfl, fun _ => rfl⟩

/-- Settles O25: the header is there and its capacity fits, and the stream is what lies behind it. -/
theorem decompressFramedTakesItsCapacityFromTheHeader : Obligations.DecompressFramedTakesItsCapacityFromTheHeader := by
  intro s idle source maxLen four room maxCap
  have fits := acceptDecompressFramed_of_fits source maxLen four room maxCap
  exact ⟨_, unlessBusy_eq_next idle fits, decompressionStarted_accepted _ _ _ s, rfl, rfl, rfl, rfl, rfl, rfl, rfl,
    rfl, fun _ => rfl⟩

/-- Settles O26: the input fits IN but ends within its header, and the stop reports both positions as 0. -/
theorem aContainerShorterThanItsHeaderIsAnInputOverrun :
    Obligations.AContainerShorterThanItsHeaderIsAnInputOverrun := by
  intro s idle source maxLen short
  exact ⟨_, unlessBusy_eq_next idle (acceptDecompressFramed_of_short source maxLen short),
    ⟨rfl, rfl, rfl, rfl, rfl, rfl⟩, rfl, rfl, rfl, rfl, reg32_toNat 0, reg32_toNat 0, rfl, rfl⟩

end Sys2Proof.Machine
end

section
namespace Sys2Proof.Machine

/-! ## While an operation runs -/

/-- A busy block ignores each of the four commands (45_host_commands.md R277). -/
theorem exec_command_of_busy {i : Instr}
    (hi : i = .compress ∨ i = .decompress ∨ i = .compressFramed ∨ i = .decompressFramed) {s : State}
    (busy : s.regs.status.busy = true) : exec i s = .next s := by
  obtain rfl | rfl | rfl | rfl := hi <;> exact if_pos busy

/-- Settles O28: a CTRL word starts one of the four commands, or nothing. -/
theorem aCommandIsIgnoredWhileBusy : Obligations.ACommandIsIgnoredWhileBusy := by
  refine ⟨fun s i hi busy => exec_command_of_busy hi busy, fun s u w hu busy => (step_of_host hu).trans ?_⟩
  show (hostWriteReg 0 w u).outcome = .next u
  rcases ctrlWrite_cases w u with ⟨-, e⟩ | ⟨-, e⟩ | ⟨-, e⟩ | ⟨-, e⟩ | ⟨-, e⟩ <;> rw [e]
  · exact exec_command_of_busy (.inl rfl) busy
  · exact exec_command_of_busy (.inr (.inl rfl)) busy
  · exact exec_command_of_busy (.inr (.inr (.inl rfl))) busy
  · exact exec_command_of_busy (.inr (.inr (.inr rfl))) busy

/-- BUSY excludes the other bits of STATUS (10_state.md R25). -/
theorem StatusInv.eq_running {s : State} (h : StatusInv s) (busy : s.regs.status.busy = true) :
    s.regs.status = Status.running := by
  have oneBit := h.oneBit
  rw [busy, Bool.toNat_true] at oneBit
  have done : s.regs.status.done = false := Bool.toNat_eq_zero.mp (by omega)
  have error : s.regs.status.error = false := Bool.toNat_eq_zero.mp (by omega)
  calc s.regs.status
      _ = ⟨s.regs.status.busy, s.regs.status.done, s.regs.status.error, s.regs.status.errKind⟩ := rfl
      _ = Status.running := by rw [busy, done, error, h.noKind error]; rfl

/-- Settles O35: the invariant leaves a busy block one STATUS and no result. -/
theorem whileBusyTheHostReadsBusyAndNoResult : Obligations.WhileBusyTheHostReadsBusyAndNoResult := by
  intro s inv busy
  obtain ⟨outLen, inPos, outPos⟩ := inv.status.busyRegs busy
  have status : s.hostReadReg 1 = Status.running.word := congrArg Status.word (inv.status.eq_running busy)
  exact ⟨status, outLen, inPos, outPos⟩

end Sys2Proof.Machine
end

section
namespace Sys2Proof.Machine

/-! ## Where the input ends (60_exceptions.md R305, R306) -/

/-- Each of these states checks that input is left before it fetches (42_decoder_fsm.md R187, R188, R190). -/
theorem decoderStep_of_noInput {u : State} (bounds : u.decodeBounds = true)
    (spent : u.d.state = .start ∧ u.d.N = 0 ∨ u.d.state = .expectLiteralOrMatch ∧ u.d.N ≤ u.d.ip ∨
      u.d.state = .expectMatch .afterTrailing ∧ u.d.N ≤ u.d.ip) :
    decoderStep u = .answer (.next (u.raiseError .eofMarkerNotFound)) := by
  rw [decoderStep, if_pos bounds]
  obtain ⟨state, atEnd⟩ | ⟨state, atEnd⟩ | ⟨state, atEnd⟩ := spent
  all_goals
    rw [state]
    exact if_pos atEnd

/-- Settles O10: the decoder step is the stop, in each of the three states that need an instruction. -/
theorem noInputForAnInstructionRaisesEofMarkerNotFound :
    Obligations.NoInputForAnInstructionRaisesEofMarkerNotFound := by
  intro s u op hu hm bounds spent
  refine ⟨u.raiseError .eofMarkerNotFound, ?_, raiseError_stopped (.refl u) _⟩
  rw [step_of_decompressing hu hm, decoderStep_of_noInput bounds spent, Work.outcome_answer]

/-- Settles O20: the cursor is not at the end of the input but before it, which is the marker's second case. -/
theorem eosBeforeTheEndOfTheInputRaisesInputNotConsumed :
    Obligations.EosBeforeTheEndOfTheInputRaisesInputNotConsumed := by
  intro s l3 ext count bounds before
  have answer : exec (.eos l3 ext count) s = .next (s.raiseError .inputNotConsumed) :=
    (if_pos bounds).trans ((if_neg before.ne).trans (if_pos before))
  exact ⟨_, answer, raiseError_stopped (.refl s) _⟩

/-! ## An idle engine -/

/-- Settles O38: the engine's turn answers the state it was taken in. -/
theorem anIdleEngineHoldsEverything : Obligations.AnIdleEngineHoldsEverything := by
  intro s u hu idle
  rw [step_of_engine hu, engineTurn, idle, Work.outcome_answer]

end Sys2Proof.Machine
end

section
namespace Sys2Proof.Machine

/-! ## The duties of the host (70_reset_and_hazards.md R334) -/

theorem whileIdle_of_busy {s : State} (busy : s.regs.status.busy = true) (written : State) :
    whileIdle s written = .answer (.fault .hostWriteWhileBusy) := if_pos busy

/-- Settles O33: each of the four writes is one that BUSY stops. -/
theorem aHostWriteWhileBusyHasNoStep : Obligations.AHostWriteWhileBusyHasNoStep := by
  intro s u a b w busy write
  obtain hu | hu | ⟨hu, inside⟩ | ⟨hu, inside⟩ := write <;> rw [step_of_host hu]
  · exact congrArg Work.outcome (whileIdle_of_busy busy _)
  · exact congrArg Work.outcome (whileIdle_of_busy busy _)
  · rw [hostTurn_writeIn inside, whileIdle_of_busy busy, Work.outcome_answer]
  · rw [hostTurn_writeOut inside, whileIdle_of_busy busy, Work.outcome_answer]

/-- A command is ignored or accepted, and each has a next state (45_host_commands.md R277). -/
theorem unlessBusy_answers (s accepted : State) : ∃ t, unlessBusy s accepted = .next t := by
  unfold unlessBusy
  split <;> exact ⟨_, rfl⟩

/-- A write to CTRL has a next state, busy or not (10_state.md R24, 45_host_commands.md R277). -/
theorem ctrlWrite_answers (w : Word) (s : State) : ∃ t, (hostWriteReg 0 w s).outcome = .next t := by
  rcases ctrlWrite_cases w s with ⟨-, e⟩ | ⟨-, e⟩ | ⟨-, e⟩ | ⟨-, e⟩ | ⟨-, e⟩ <;> rw [e]
  · exact unlessBusy_answers s _
  · exact unlessBusy_answers s _
  · exact unlessBusy_answers s _
  · exact unlessBusy_answers s _
  · exact ⟨s, rfl⟩

/-- The host's duty asks for an idle block at the two length registers alone. -/
theorem hostWriteReg_answers {n : Nat} {w : Word} {s : State} (duty : HostDuty s (.writeReg n w)) :
    ∃ t, (hostWriteReg n w s).outcome = .next t := by
  match n, duty with
  | 0, _ => exact ctrlWrite_answers w s
  | 1, _ | _ + 4, _ => exact ⟨s, rfl⟩
  | 2, duty => exact ⟨_, whileIdle_of_not_busy (duty (.inl rfl)) _⟩
  | 3, duty => exact ⟨_, whileIdle_of_not_busy (duty (.inr rfl)) _⟩

/-- A host's turn that keeps the duties has a next state, whatever the block is doing. -/
theorem hostTurn_answers {s : State} {a : HostAction} (duty : HostDuty s a) :
    ∃ t, (hostTurn a s).outcome = .next t := by
  cases a with
  | writeReg number value => exact hostWriteReg_answers duty
  | writeIn address value =>
    obtain ⟨idle, inside⟩ := duty
    exact ⟨_, by rw [hostTurn_writeIn inside, whileIdle_of_not_busy idle]⟩
  | writeOut address value =>
    obtain ⟨idle, inside⟩ := duty
    exact ⟨_, by rw [hostTurn_writeOut inside, whileIdle_of_not_busy idle]⟩
  | read what => exact ⟨s, by rw [hostTurn_read duty, Work.outcome_answer]⟩
  | reset => exact ⟨s.resetBlock, rfl⟩

/-- Settles O55: the step is the host's turn, whose duties alone give it a next state. -/
theorem aDutifulHostNeverStopsTheBlock : Obligations.ADutifulHostNeverStopsTheBlock := by
  intro s u a _ hu duty
  rw [step_of_host hu]
  exact hostTurn_answers duty

/-! ## Reset (70_reset_and_hazards.md R330) -/

/-- The host registers after a reset are those of the block after power-on. -/
theorem State.resetBlock_hostReadReg (s : State) (n : Nat) :
    s.resetBlock.hostReadReg n = State.reset.hostReadReg n := rfl

/-- Settles O37: the host's turn is the reset, which asks nothing of the state it abandons. -/
theorem resetAbandonsARunningOperation : Obligations.ResetAbandonsARunningOperation := by
  intro s u hu
  obtain ⟨readsZero, -⟩ := resetClearsTheHostRegisters
  exact ⟨u.resetBlock, step_of_host hu, fun n => (u.resetBlock_hostReadReg n).trans (readsZero n), rfl, rfl, rfl⟩

end Sys2Proof.Machine
end
